-- ==== Sys2Proof/Word.lean ====
section
/-! DEFINITION. The words, sequences and stored data types of HCC: bytes, bit strings, trees and the
tables of the internal stores (spec/00_scope.md R14, R15; spec/10_state.md R58 to R66). -/

namespace Sys2Proof

/-- A register or command word, 32 bits (R35, R120). -/
abbrev Word := BitVec 32

/-- A byte, an unsigned integer from 0 to 255 (R14, decision D20). -/
abbrev Byte := BitVec 8

/-- `Bytes` of R14: a finite sequence of bytes. -/
abbrev Bytes := List Byte

/-- `Bits` of R15: position 0 is the first bit emitted by the packer or consumed by the unpacker. -/
abbrev Bits := List Bool

/-- A frequency or weight table of one context, final byte to weight, ascending by byte (R58, R59).
Weights are the pseudocode's unbounded integers (R16); that they fit their fields is stated apart. -/
abbrev WeightTable := List (Byte × Nat)

/-- A code table of one context, final byte to code, ascending by byte (R61). An entry is present
exactly when R61's valid bit is set. -/
abbrev CodeTable := List (Byte × Bits)

/-- A node with all below it (R60). The creation index of an INTERNAL is kept; its children are held
in place of their arena indices (R8; log entry 13). -/
inductive Tree where
  | leaf (b : Byte) (weight : Nat)
  | placeholder
  | internal (index : Nat) (weight : Nat) (left right : Tree)
  deriving DecidableEq, Repr, Inhabited

/-- The FREQ store and the WT store: context key to weight table, ascending by key (R58, R59). -/
abbrev FreqModel := List (Bytes × WeightTable)

/-- The NODE arena: context key to tree (R60). -/
abbrev NodeStore := List (Bytes × Tree)

/-- The CODE store: context key to code table (R61). -/
abbrev CodeStore := List (Bytes × CodeTable)

/-- The internal stores (R58 to R62). -/
structure Stores where
  freq : FreqModel
  wt   : FreqModel
  node : NodeStore
  code : CodeStore
  deriving DecidableEq, Repr, Inhabited

/-- The hidden working registers that the phases set (R63 to R66). -/
structure Work where
  ord     : Byte
  cw      : Bytes
  acc     : Bits
  dead    : Bool
  inpos   : Nat
  outpos  : Nat
  bitpos  : Nat
  origLen : BitVec 64
  hlen    : Nat
  deriving DecidableEq, Repr, Inhabited

end Sys2Proof
end

