-- ==== Sys2Proof/Config.lean ====
section
/-! DEFINITION. What an instance of HCC fixes (spec/00_scope.md R9, R32) and the free values: what the
spec leaves unspecified is an opaque constant here, so that no proof can use a value of it. -/

namespace Sys2Proof

/-- The OPEN parameters of R9, Table 2. A model takes them as an argument; State carries them because
the step's type is fixed, and no event changes them (log entry 1). -/
structure Params where
  inCap    : Nat
  outCap   : Nat
  maxOrder : Nat
  maxCtx   : Nat
  deriving DecidableEq, Repr

/-- The ranges of R9, Table 2. -/
abbrev Params.legal (p : Params) : Prop :=
  1 ≤ p.inCap ∧ p.inCap ≤ 2 ^ 30 ∧ 1 ≤ p.outCap ∧ p.outCap ≤ 2 ^ 30 ∧
    p.maxOrder ≤ 254 ∧ 1 ≤ p.maxCtx ∧ p.maxCtx ≤ 2 ^ 32 - 1

/-- DESIGN CHOICE (log entry 1): the instance whose reset `State.reset` is, with the parameters of
spec/95_test_vectors.md L3. No statement rests on it: statements quantify over the parameters. -/
def Params.standard : Params := { inCap := 4096, outCap := 4096, maxOrder := 2, maxCtx := 16 }

namespace Config

/-- MAX_SYMS of R9: the largest number of symbols in one context's table. -/
def maxSyms : Nat := 256

/-- MAX_CODE_LEN of R9, in bits. -/
def maxCodeLen : Nat := 255

/-- WEIGHT_LIMIT of R9 and R192 (decision D24). -/
def weightLimit : Nat := 2 ^ 64 - 1

/-- ID reads "HCC1" (R3, R36). -/
def idValue : Word := 0x48434331#32

/-- VERSION reads 1.0 (R3, R37). -/
def versionValue : Word := 0x00010000#32

/-- Free value: the byte at an IN_MEM offset not written since the reset numbered `epoch`
(R56, R69, R396, U9; log entry 5). -/
opaque freeInByte : (epoch offset : Nat) → Byte

/-- Free value: what a read of an unspecified OUT_MEM byte returns, drawn anew at each read
(R57, R85, R89, R364, U7; log entry 6). -/
opaque freeOutByte : (draw offset : Nat) → Byte

/-- Free value: the working registers after a completion (R66, R408, U8; log entry 7). -/
opaque freeWork : (draw : Nat) → Work

/-- Free value: the internal stores after a completion (R62, U8; log entry 7). -/
opaque freeStores : (draw : Nat) → Stores

end Config

end Sys2Proof
end

