-- ==== Sys2Proof/Syntax.lean ====
section
/-! DEFINITION. The commands of HCC as syntax: one constructor per row of spec/opcode_table.json. -/

namespace Sys2Proof

/-- The decoded command words (spec/30_encoding.md R121, R126). -/
inductive Instr where
  /-- NOP, the word 0 (R313). -/
  | nop
  /-- COMPRESS with the context order of the word's ORDER field (R122, R315). -/
  | compress (order : Byte)
  /-- DECOMPRESS (R322). -/
  | decompress
  /-- ILLEGAL: any other word, kept whole (R124, R330). -/
  | illegal (word : Word)
  deriving DecidableEq, Repr

end Sys2Proof
end

