-- ==== Sys2Proof/WellFormed.lean ====
section
/-! DEFINITION. Which terms of `Instr` are commands: the order range of spec/00_scope.md R10 and the
list of illegal words of spec/30_encoding.md R124. -/

namespace Sys2Proof

/-- R124, letter for letter: a non-zero word is illegal if OP is 0 or in 3 .. 15, RSV0 or RSV1 is not 0,
OP = 2 and ORDER is not 0, or OP = 1 and ORDER = 255. Fields as in Table 7 (R120). -/
def illegalWord (w : Word) : Bool :=
  w != 0 &&
    (w.extractLsb' 0 4 == 0#4 || 3 ≤ (w.extractLsb' 0 4).toNat
      || w.extractLsb' 4 4 != 0#4
      || w.extractLsb' 16 16 != 0#16
      || (w.extractLsb' 0 4 == 2#4 && w.extractLsb' 8 8 != 0#8)
      || (w.extractLsb' 0 4 == 1#4 && w.extractLsb' 8 8 == 255#8))

/-- COMPRESS takes an order 0 .. 254 (R10, R122, R152); an ILLEGAL term holds an illegal word. -/
def Instr.wellFormed : Instr → Bool
  | .nop => true
  | .compress o => o != 255#8
  | .decompress => true
  | .illegal w => illegalWord w

end Sys2Proof
end

