-- ==== Sys2Proof/Decode.lean ====
section
/-! DEFINITION. The command decoder of spec/30_encoding.md R126, total on every 32-bit word, and the
encoder of R152. -/

namespace Sys2Proof

/-- OP, bits 3:0 (R120). -/
def wordOp (w : Word) : BitVec 4 := w.extractLsb' 0 4

/-- RSV0, bits 7:4 (R120). -/
def wordRsv0 (w : Word) : BitVec 4 := w.extractLsb' 4 4

/-- ORDER, bits 15:8, unsigned, neither scaled nor shifted (R120, R122). -/
def wordOrder (w : Word) : Byte := w.extractLsb' 8 8

/-- RSV1, bits 31:16 (R120). -/
def wordRsv1 (w : Word) : BitVec 16 := w.extractLsb' 16 16

/-- The decoder of R126. Every word decodes; a word that is no command is ILLEGAL, by name. -/
def decode (w : Word) : Instr :=
  if w = 0#32 then .nop
  else if wordRsv0 w ≠ 0#4 ∨ wordRsv1 w ≠ 0#16 then .illegal w
  else if wordOp w = 1#4 ∧ wordOrder w ≠ 255#8 then .compress (wordOrder w)
  else if wordOp w = 2#4 ∧ wordOrder w = 0#8 then .decompress
  else .illegal w

/-- The command word of a mnemonic (R152): NOP 0, COMPRESS o `(o << 8) | 1`, DECOMPRESS 2; an ILLEGAL
term is its own word. -/
def encode : Instr → Word
  | .nop => 0#32
  | .compress o => (o.zeroExtend 32 <<< 8) ||| 1#32
  | .decompress => 2#32
  | .illegal w => w

/-- Why a bit pattern is no command word at all. -/
inductive DecodeError where
  /-- A command word is exactly 32 bits (R127): longer patterns are no word. -/
  | longerThanAWord
  deriving DecidableEq, Repr

/-- The decoder on a pattern of `nbits` bits, numbered from the least significant; bits above `nbits`
are 0 (R127). -/
def decodePattern (nbits w : Nat) : Except DecodeError Instr :=
  if nbits ≤ 32 then .ok (decode (BitVec.ofNat 32 (w % 2 ^ nbits))) else .error .longerThanAWord

/-- The decoder on a word of spec/opcode_table.json; its bit numbering is the command word's. -/
def decodeTableWord (nbits w : Nat) : Option Instr :=
  match decodePattern nbits w with
  | .ok i => some i
  | .error _ => none

end Sys2Proof
end

