-- ==== Sys2Proof/Machine/State.lean ====
section
/-! DEFINITION. The state of HCC as plain data (spec/10_state.md), the events that act on it, and the
state after reset (R69, R390). -/

namespace Sys2Proof.Machine

/-- The error kinds of spec/60_exceptions.md R350, Table 14. -/
inductive ErrKind where
  | emptyInput | truncatedHeader | corruptHeader | unknownContext | bitstreamExhausted
  | capacityExceeded | illegalCommand
  deriving DecidableEq, Repr

/-- SEQ.PHASE (R34). -/
inductive Phase where
  | idle | check | freq | build | codegen | hdrw | pack | hdrp | rebuild | unpack
  deriving DecidableEq, Repr

/-- The stored STATUS fields (R43, Table 5). BUSY is computed from SEQ.PHASE (R34). -/
structure Status where
  done    : Bool
  err     : Bool
  rej     : Bool
  errcode : BitVec 4
  deriving DecidableEq, Repr

/-- INT_EN's three enables (R49). -/
structure IntEn where
  doneIe : Bool
  errIe  : Bool
  rejIe  : Bool
  deriving DecidableEq, Repr

/-- The host-visible registers that hold state (R35, Table 4). -/
structure Regs where
  status   : Status
  intEn    : IntEn
  inLen    : Word
  outLen   : Word
  hdrLen   : Word
  ctxCount : Word
  deriving DecidableEq, Repr

/-- A byte memory: the bytes with a defined value, addresses strictly rising. An address not listed
holds no defined value; what a read of it gives is a free value (log entries 5 and 6). -/
abbrev Memory := List Host.Cell

/-- The canonical form of a memory. An unlisted address has no byte value, so no entry can equal it. -/
abbrev Memory.wf (m : Memory) : Prop := m.Pairwise (fun a b => a.1 < b.1)

/-- Access sizes of the port, in bytes (R80). -/
inductive Size where
  | one | two | four
  deriving DecidableEq, Repr

/-- The direction of an access, with the 32 bits of data of a write (R80). -/
inductive Dir where
  | read
  | write (data : Word)
  deriving DecidableEq, Repr

/-- A host access: block-relative byte address, size, direction (R80). -/
structure Access where
  addr : Word
  size : Size
  dir  : Dir
  deriving DecidableEq, Repr

/-- The port's response: OKAY or ERROR, with 32 bits of read data (R80). -/
inductive Response where
  | okay (data : Word)
  | error (data : Word)
  deriving DecidableEq, Repr

/-- The atomic events of spec/60_exceptions.md R373. `complete` is the core's completion step, which
does nothing while it is not enabled (R312). -/
inductive Event where
  | access (a : Access)
  | complete
  | reset
  deriving DecidableEq, Repr

/-- The model's own: the events still to happen, in the order in which they happen (R94, R373; log
entry 3), and the port's last response (log entry 9). -/
structure HostPort where
  pending  : List Event
  response : Option Response
  deriving DecidableEq, Repr

/-- The state of HCC. -/
structure State where
  /-- The instance's parameters (R9, R32; log entry 1). -/
  params : Params
  /-- Host-visible registers (R35). -/
  regs   : Regs
  /-- SEQ.PHASE (R34). -/
  phase  : Phase
  /-- CMD, the accepted command word (R66). -/
  cmd    : Word
  /-- The hidden working registers (R63 to R66). -/
  work   : Work
  /-- The internal stores (R58 to R62). -/
  stores : Stores
  /-- IN_MEM (R56). -/
  inMem  : Memory
  /-- OUT_MEM (R57). -/
  outMem : Memory
  /-- The model's own: the schedule and the port's response. -/
  host   : HostPort
  /-- The model's own: numbers the free values drawn (log entries 6 and 7). -/
  draws  : Nat
  /-- The model's own: which reset the unwritten IN_MEM bytes date from (log entry 5). -/
  epoch  : Nat
  deriving DecidableEq, Repr

/-- The model's faults: two assertions that no run reaches. -/
inductive Fault where
  /-- Raised by TREE when its preconditions are broken (R191, U16: "should fault if it happens").
  Safe: the model stops, and no meaning reaches it. -/
  | treePrecondition
  /-- Raised by PACK when it asks for a code that does not exist (R227: "the entry always exists").
  Safe: the model stops, and no meaning reaches it (log entry 12). -/
  | codeMissing
  deriving DecidableEq, Repr

/-- The model's refusals. -/
inductive Refusal where
  /-- An instruction without a meaning, by mnemonic. Safe: the model stops. No arm of `exec` uses it. -/
  | notModelled (mnemonic : String)
  deriving DecidableEq, Repr

/-- The outcome of a step of this machine. -/
abbrev Outcome := Host.Outcome State Fault Refusal

/-- How a phase ends early: `raise Error(E)` with the state it is raised in (R17, R356), or one of the
model's faults. -/
inductive Stop where
  | raised (e : ErrKind) (s : State)
  | fault (f : Fault)
  deriving DecidableEq, Repr

/-- Empty stores: what a new command starts from (R62, R229). -/
def emptyStores : Stores := { freq := [], wt := [], node := [], code := [] }

/-- DESIGN CHOICE (log entry 8): the working registers after reset, which R69 leaves unspecified. -/
def zeroWork : Work :=
  { ord := 0#8, cw := [], acc := [], dead := false, inpos := 0, outpos := 0, bitpos := 0,
    origLen := 0#64, hlen := 0 }

/-- The reset values of Tables 4 and 5 (R35, R43). -/
def resetRegs : Regs :=
  { status := { done := false, err := false, rej := false, errcode := 0#4 },
    intEn := { doneIe := false, errIe := false, rejIe := false },
    inLen := 0#32, outLen := 0#32, hdrLen := 0#32, ctxCount := 0#32 }

/-- The state right after reset of an instance with parameters `p` (R69, R390). CMD, the working
registers and the stores are unspecified there and take the values that log entry 8 names; the
buffers hold no defined byte. -/
def State.resetWith (p : Params) : State :=
  { params := p, regs := resetRegs, phase := .idle, cmd := 0#32, work := zeroWork,
    stores := emptyStores, inMem := [], outMem := [], host := { pending := [], response := none },
    draws := 0, epoch := 0 }

/-- The state right after reset, of the instance of log entry 1. -/
def State.reset : State := State.resetWith Params.standard

end Sys2Proof.Machine
end

