-- ==== Sys2Proof/Machine/Flags.lean ====
section
/-! DEFINITION. STATUS, INT_EN and irq: every flag of HCC and every rule that changes one
(spec/10_state.md R43 to R49, R55; spec/60_exceptions.md R350, R360). -/

namespace Sys2Proof.Machine

/-- STATUS.BUSY = (SEQ.PHASE != IDLE) (R34, R44). -/
def State.busy (s : State) : Bool := s.phase != .idle

/-- The error codes of R350, Table 14. -/
def errCode : ErrKind → BitVec 4
  | .emptyInput => 1#4
  | .truncatedHeader => 2#4
  | .corruptHeader => 3#4
  | .unknownContext => 4#4
  | .bitstreamExhausted => 5#4
  | .capacityExceeded => 6#4
  | .illegalCommand => 7#4

/-- STATUS as the host reads it (R43, Table 5): BUSY bit 0, DONE bit 1, ERR bit 2, REJ bit 3, ERRCODE
bits 11:8, all other bits 0. -/
def statusWord (busy : Bool) (st : Status) : Word :=
  0#20 ++ st.errcode ++ 0#4 ++ BitVec.ofBool st.rej ++ BitVec.ofBool st.err
    ++ BitVec.ofBool st.done ++ BitVec.ofBool busy

/-- A write of `v` to STATUS (R43): bit 1 clears DONE, bit 2 clears ERR and ERRCODE, bit 3 clears REJ;
every other bit is ignored. This is also how the host leaves an error (R367). -/
def statusWrite (v : Word) (st : Status) : Status :=
  { done := st.done && !v.getLsbD 1
    err := st.err && !v.getLsbD 2
    rej := st.rej && !v.getLsbD 3
    errcode := if v.getLsbD 2 then 0#4 else st.errcode }

/-- Acceptance clears DONE, ERR and ERRCODE and leaves REJ (R45, R46, R47, R311). -/
def statusAccept (st : Status) : Status := { st with done := false, err := false, errcode := 0#4 }

/-- A non-zero command word written while busy sets REJ (R47, R310). -/
def statusReject (st : Status) : Status := { st with rej := true }

/-- Completion without error sets DONE (R45, R312). -/
def statusDone (st : Status) : Status := { st with done := true }

/-- Completion with error kind `e` sets ERR and ERRCODE (R46, R48, R312). -/
def statusError (e : ErrKind) (st : Status) : Status := { st with err := true, errcode := errCode e }

/-- INT_EN as the host reads it: DONE_IE bit 0, ERR_IE bit 1, REJ_IE bit 2, bits 31:3 zero (R49). -/
def intEnWord (e : IntEn) : Word :=
  0#29 ++ BitVec.ofBool e.rejIe ++ BitVec.ofBool e.errIe ++ BitVec.ofBool e.doneIe

/-- A write of `v` to INT_EN; bits 31:3 are ignored (R49). -/
def intEnWrite (v : Word) : IntEn :=
  { doneIe := v.getLsbD 0, errIe := v.getLsbD 1, rejIe := v.getLsbD 2 }

/-- The interrupt output, a combinational function of STATUS and INT_EN (R68, R360). -/
def irq (r : Regs) : Bool :=
  (r.status.done && r.intEn.doneIe) || (r.status.err && r.intEn.errIe)
    || (r.status.rej && r.intEn.rejIe)

end Sys2Proof.Machine
end

