-- ==== Sys2Proof/Machine/Ops.lean ====
section
/-! DEFINITION. The shared operations: finite maps (spec/00_scope.md R17, R18), byte memory
(spec/20_memory.md R91), the two buffers, acceptance (R311), the two completions (R312, R356, R364) and
reset (R390). -/

namespace Sys2Proof.Machine

/-! ### Orders and finite maps -/

/-- Bytes compare as unsigned values (R18, decision D20). -/
def byteLt (a b : Byte) : Bool := decide (a.toNat < b.toNat)

/-- The lexicographic order of R18; a proper prefix is smaller. -/
def bytesLt : Bytes → Bytes → Bool
  | _, [] => false
  | [], _ :: _ => true
  | a :: s, b :: t => byteLt a b || (a == b && bytesLt s t)

/-- Addresses compare as numbers. -/
def natLt (a b : Nat) : Bool := decide (a < b)

/-- `m[k]` of R17, where the key is in the map. -/
def lookupKey {α β : Type} [DecidableEq α] (k : α) : List (α × β) → Option β
  | [] => none
  | (k', v) :: m => if k = k' then some v else lookupKey k m

/-- `m[k] <- f m[k]` of R17 on a map held in ascending key order, where `f` is given what the key held
before, if anything. -/
def alterKey {α β : Type} [DecidableEq α] (lt : α → α → Bool) (k : α) (f : Option β → β) :
    List (α × β) → List (α × β)
  | [] => [(k, f none)]
  | (k', v) :: m =>
    if k = k' then (k', f (some v)) :: m
    else if lt k k' then (k, f none) :: (k', v) :: m
    else (k', v) :: alterKey lt k f m

/-- `m[k] <- v` of R17. -/
def insertKey {α β : Type} [DecidableEq α] (lt : α → α → Bool) (k : α) (v : β)
    (m : List (α × β)) : List (α × β) :=
  alterKey lt k (fun _ => v) m

/-- The canonical form of a map: keys strictly ascending. -/
abbrev Ascending {α β : Type} (lt : α → α → Bool) (m : List (α × β)) : Prop :=
  m.Pairwise (fun x y => lt x.1 y.1 = true)

/-! ### Byte memory -/

/-- The defined byte at an address, if there is one. -/
def memGet (m : Memory) (a : Nat) : Option Byte := lookupKey a m

/-- One byte written (R91). -/
def memPut (a : Nat) (b : Byte) (m : Memory) : Memory := insertKey natLt a b m

/-- Bytes written from `a` upward, each as a single byte, in order (R91, R93). -/
def memPutAll (a : Nat) : Bytes → Memory → Memory
  | [], m => m
  | b :: bs, m => memPutAll (a + 1) bs (memPut a b m)

/-- IN_MEM as read by the host and by the core: `MemRead(IN, off, 1)` of R17. A byte not written since
reset is a free value, the same until it is written or the block is reset (R56, R89, R396). -/
def State.inByte (s : State) (off : Nat) : Byte :=
  (memGet s.inMem off).getD (Config.freeInByte s.epoch off)

/-- OUT_MEM as read by the host. An unspecified byte is a free value of this very read (R85, R89). -/
def State.outByte (s : State) (off : Nat) : Byte :=
  (memGet s.outMem off).getD (Config.freeOutByte s.draws off)

/-- Bytes written to OUT_MEM by the core: `MemWrite(OUT, off, 1, v)` of R17, repeated. -/
def State.writeOut (off : Nat) (bs : Bytes) (s : State) : State :=
  { s with outMem := memPutAll off bs s.outMem }

/-! ### Commands: acceptance, rejection, completion -/

/-- Acceptance of the word `w` (R311): CMD latched, BUSY set through SEQ.PHASE = CHECK, DONE, ERR and
ERRCODE cleared, the result registers zeroed; REJ, INT_EN, IN_LEN and the buffers unchanged. -/
def State.accept (w : Word) (s : State) : State :=
  { s with
    cmd := w
    phase := .check
    regs := { s.regs with
      status := statusAccept s.regs.status, outLen := 0#32, hdrLen := 0#32, ctxCount := 0#32 } }

/-- A non-zero word dropped while busy (R310, Table 13). -/
def State.reject (s : State) : State :=
  { s with regs := { s.regs with status := statusReject s.regs.status } }

/-- The effect of a CTRL write on the state (R310, Table 13). -/
def State.present (w : Word) (s : State) : State :=
  if w = 0#32 then s else if s.busy then s.reject else s.accept w

/-- SEQ.PHASE goes to IDLE and the working registers and stores become unspecified: free values
numbered by `draws` (R62, R312, R408; log entry 7). CMD keeps its word (log entry 10). -/
def State.release (s : State) : State :=
  { s with phase := .idle, work := Config.freeWork s.draws, stores := Config.freeStores s.draws }

/-- Completion without error (R312, `Ok(out, hl, k)`), after the phases wrote OUT_MEM: OUT_LEN,
HDR_LEN, CTX_COUNT and DONE set, BUSY cleared. -/
def State.completeOk (outLen hl k : Nat) (s : State) : State :=
  State.release { s with regs := { s.regs with
    status := statusDone s.regs.status
    outLen := BitVec.ofNat 32 outLen
    hdrLen := BitVec.ofNat 32 hl
    ctxCount := BitVec.ofNat 32 k } }

/-- TAKING AN ERROR: completion with error kind `e` (R312 `Err(E)`, R356, R365). ERR and ERRCODE are
set, BUSY is cleared, and every byte of OUT_MEM becomes unspecified (R364), so that none is listed.
OUT_LEN, HDR_LEN and CTX_COUNT stay as acceptance left them. The return is the host's: a write of
STATUS bit 2 (`statusWrite`) or the next acceptance (R367). -/
def State.completeErr (e : ErrKind) (s : State) : State :=
  State.release { s with
    outMem := []
    regs := { s.regs with status := statusError e s.regs.status } }

/-- `raise Error(E)` in a phase (R17, R356). -/
def raiseError {α : Type} (e : ErrKind) (s : State) : Except Stop α := .error (.raised e s)

/-- The end of a command's phases as an outcome. Success carries the state after the last phase and
the three result values. -/
def finish : Except Stop (State × Nat × Nat × Nat) → Outcome
  | .ok (s, outLen, hl, k) => .next (s.completeOk outLen hl k)
  | .error (.raised e s) => .next (s.completeErr e)
  | .error (.fault f) => .fault f

/-! ### Reset and the model's own fields -/

/-- The reset event (R390, R373): the state of R69 for the same instance. Any command in flight is
abandoned. The events still pending stay pending, and the unwritten IN_MEM bytes are new free values
(log entry 21). -/
def State.resetEvent (s : State) : State :=
  { State.resetWith s.params with
    host := { pending := s.host.pending, response := none }
    draws := s.draws
    epoch := s.draws }

/-- The next event is taken off the schedule, and the free values drawn in it get a number of their
own (log entries 3, 6 and 7). -/
def State.advance (rest : List Event) (s : State) : State :=
  { s with host := { s.host with pending := rest }, draws := s.draws + 1 }

/-- The port answers (R80). -/
def State.respond (r : Response) (s : State) : State :=
  { s with host := { s.host with response := some r } }

end Sys2Proof.Machine
end

