-- ==== Sys2Proof/Machine/Operands.lean ====
section
/-! DEFINITION. The operands of a command (spec/30_encoding.md R122, R123), the big-endian integers of
spec/00_scope.md R16, the body's bit order (R145) and the context window (R172). -/

namespace Sys2Proof.Machine

/-- The `n` bytes at the offsets from `a` upward. -/
def readIn (s : State) (a : Nat) : Nat → Bytes
  | 0 => []
  | n + 1 => s.inByte a :: readIn s (a + 1) n

/-- The implicit input operand `IN_MEM[0 .. IN_LEN)` (R123). -/
def State.input (s : State) : Bytes := readIn s 0 s.regs.inLen.toNat

/-- `be32` and `be64` of R16: big-endian bytes read as an unsigned integer. -/
def beValue (bs : Bytes) : Nat := bs.foldl (fun v b => v * 256 + b.toNat) 0

/-- The `k` low big-endian bytes of `v`: `enc32` at k = 4 and `enc64` at k = 8 (R16). -/
def beBytes : Nat → Nat → Bytes
  | 0, _ => []
  | k + 1, v => BitVec.ofNat 8 (v / 256 ^ k) :: beBytes k v

/-- The eight bits of a byte, most significant first (R145). -/
def byteBits (b : Byte) : Bits := (List.range 8).map (fun t => b.getLsbD (7 - t))

/-- The bit stream of a body: stream bit k is bit `7 - (k mod 8)` of byte `k div 8` (R87, R145). -/
def bytesBits (bs : Bytes) : Bits := bs.flatMap byteBits

/-- The byte whose bits are `s`, most significant first: the sum over t of `s[t] * 2^(7 - t)` (R282). -/
def bitsByte (s : Bits) : Byte :=
  BitVec.ofNat 8 ((List.range 8).map (fun t => if s.getD t false then 2 ^ (7 - t) else 0)).sum

/-- `zeros(n)` of R14: the context window at the start of a pass (R63, R172). -/
def zeros (n : Nat) : Bytes := List.replicate n 0#8

/-- `slide(cw, b)` of R172: drop the oldest byte, append the newest; an empty window stays empty. -/
def slide (cw : Bytes) (b : Byte) : Bytes := if cw.length = 0 then [] else (cw ++ [b]).drop 1

/-- The window after a run of bytes (R63, R172). -/
def windowAfter (cw : Bytes) (input : Bytes) : Bytes := input.foldl slide cw

end Sys2Proof.Machine
end

