-- ==== Sys2Proof/Machine/Freq.lean ====
section
/-! DEFINITION. The FREQ unit (spec/40_frequency_model.md). -/

namespace Sys2Proof.Machine

/-- One symbol counted: `F[cw][b] <- F[cw][b] + 1`, with the table and the entry made where they are
missing (R171, R173). -/
def countSymbol (cw : Bytes) (b : Byte) (F : FreqModel) : FreqModel :=
  alterKey bytesLt cw
    (fun t => alterKey byteLt b (fun c => c.getD 0 + 1) (t.getD [])) F

/-- The loop of R173 from window `cw` and model `F`. -/
def freqFrom (cw : Bytes) (F : FreqModel) : Bytes → FreqModel
  | [] => F
  | b :: rest => freqFrom (slide cw b) (countSymbol cw b F) rest

/-- `FreqModel(order, in)` of R173. -/
def freqModel (order : Nat) (input : Bytes) : FreqModel := freqFrom (zeros order) [] input

end Sys2Proof.Machine
end

