-- ==== Sys2Proof/Machine/TreeBuilder.lean ====
section
/-! DEFINITION. The TREE unit (spec/41_tree_builder.md). -/

namespace Sys2Proof.Machine

/-- The exact sum S of a table's weights (R192). -/
def tableTotal (W : WeightTable) : Nat := (W.map Prod.snd).sum

/-- One scaling round: `W[b] <- max(W[b] >> 1, 1)` for every entry at once (R193, decision D25). -/
def scaleRound (W : WeightTable) : WeightTable := W.map (fun e => (e.1, max (e.2 >>> 1) 1))

/-- The loop of R193, at most `n` rounds of it. -/
def scaleRounds : Nat → WeightTable → WeightTable
  | 0, W => W
  | n + 1, W => if Config.weightLimit < tableTotal W then scaleRounds n (scaleRound W) else W

/-- `Scale(W)` of R193. The loop ends after at most 8 rounds (R194). -/
def scale (W : WeightTable) : WeightTable := scaleRounds 8 W

/-- The weight of a node (R60, R198). -/
def treeWeight : Tree → Nat
  | .leaf _ w => w
  | .placeholder => 0
  | .internal _ w _ _ => w

/-- The rank key of R199. -/
def treeKey : Tree → Nat × Nat × Nat
  | .leaf b w => (w, 0, b.toNat + 1)
  | .placeholder => (0, 0, 0)
  | .internal k w _ _ => (w, 1, k)

/-- Keys compare lexicographically, left component first, ascending (R199). -/
def keyLt (x y : Nat × Nat × Nat) : Bool :=
  decide (x.1 < y.1) ||
    (decide (x.1 = y.1) &&
      (decide (x.2.1 < y.2.1) || (decide (x.2.1 = y.2.1) && decide (x.2.2 < y.2.2))))

/-- `Q ∪ {n}`, with Q held in ascending key order so that its head is the lowest node (R200, R201). -/
def insertNode (n : Tree) : List Tree → List Tree
  | [] => [n]
  | m :: q => if keyLt (treeKey n) (treeKey m) then n :: m :: q else m :: insertNode n q

/-- The start of Q: one LEAF per entry (R197), and the PLACEHOLDER when there is one entry (R198). -/
def startQueue (W : WeightTable) : List Tree :=
  let q := (W.map (fun e => Tree.leaf e.1 e.2)).foldr insertNode []
  if q.length = 1 then insertNode .placeholder q else q

/-- The merge loop of R200 from creation index `k`: the first node extracted becomes the left child
(decision D22). Each round takes one node out of Q, so as many rounds as Q has nodes suffice. -/
def mergeRounds : Nat → Nat → List Tree → List Tree
  | n + 1, k, a :: c :: q =>
    mergeRounds n (k + 1) (insertNode (.internal k (treeWeight a + treeWeight c) a c) q)
  | _, _, q => q

/-- The preconditions of R191. -/
def treeReady (W : WeightTable) : Bool :=
  decide (1 ≤ W.length) && decide (W.length ≤ Config.maxSyms) && decide (0 < tableTotal W)

/-- The root of the tree of a table whose weights are already scaled. -/
def treeOfScaled (W : WeightTable) : Option Tree :=
  (mergeRounds (startQueue W).length 0 (startQueue W)).head?

/-- `BuildTree(W)` of R200; none where the preconditions of R191 are broken. -/
def buildTree (W : WeightTable) : Option Tree :=
  if treeReady W then treeOfScaled (scale W) else none

/-- The number of nodes of a tree (R204, R208). -/
def treeSize : Tree → Nat
  | .leaf _ _ => 1
  | .placeholder => 1
  | .internal _ _ l r => treeSize l + treeSize r + 1

/-- The LEAF entries of a tree, left to right: final byte and weight (R197, R204). -/
def treeLeaves : Tree → List (Byte × Nat)
  | .leaf b w => [(b, w)]
  | .placeholder => []
  | .internal _ _ l r => treeLeaves l ++ treeLeaves r

/-- How many placeholders a tree holds (R198, R204). -/
def placeholders : Tree → Nat
  | .leaf _ _ => 0
  | .placeholder => 1
  | .internal _ _ l r => placeholders l + placeholders r

end Sys2Proof.Machine
end

