-- ==== Sys2Proof/Machine/Codegen.lean ====
section
/-! DEFINITION. The CODEGEN unit (spec/42_code_table.md). -/

namespace Sys2Proof.Machine

/-- `walk(node, p)` of R221, which binds each leaf's final byte to its path; 0 is left and 1 right. The
placeholder binds nothing (R222). -/
def walk : Tree → Bits → CodeTable → CodeTable
  | .leaf b _, p, C => insertKey byteLt b p C
  | .placeholder, _, C => C
  | .internal _ _ l r, p, C => walk r (p ++ [true]) (walk l (p ++ [false]) C)

/-- `CodeTable(root)` of R221. -/
def codeTable (root : Tree) : CodeTable := walk root [] []

/-- The code table of a weight table; empty where no tree can be built. -/
def codesOf (W : WeightTable) : CodeTable :=
  match buildTree W with
  | some t => codeTable t
  | none => []

/-- The code tables of every context of a model or of a header (R229). -/
def codeStoreOf (F : FreqModel) : CodeStore := F.map (fun e => (e.1, codesOf e.2))

/-- The decode lookup `lookup(c, a)` of R228 in one code table: the final byte with code `a`. -/
def decodeLookup (C : CodeTable) (a : Bits) : Option Byte :=
  (C.find? (fun e => e.2 == a)).map Prod.fst

/-- `a` is a proper prefix of some code of the table (R292, R302). -/
def properPrefix (C : CodeTable) (a : Bits) : Bool :=
  C.any (fun e => a.isPrefixOf e.2 && a != e.2)

/-- The encode lookup `code(c, b)` of R227. -/
def encodeLookup (C : CodeStore) (cw : Bytes) (b : Byte) : Option Bits :=
  (lookupKey cw C).bind (lookupKey b)

end Sys2Proof.Machine
end

