-- ==== Sys2Proof/Machine/Container.lean ====
section
/-! DEFINITION. The container codec: the HDRW and HDRP units (spec/43_container.md), over the layout of
spec/30_encoding.md R130 to R136. -/

namespace Sys2Proof.Machine

/-- One symbol entry: the whole symbol `k ++ [b]`, then its unscaled weight (R135, R139, R241). -/
def writeEntry (key : Bytes) (e : Byte × Nat) : Bytes := key ++ [e.1] ++ beBytes 8 e.2

/-- One context record: key, symbol count, entries in ascending order (R134, R140, R241). -/
def writeRecord (r : Bytes × WeightTable) : Bytes :=
  r.1 ++ beBytes 4 r.2.length ++ r.2.flatMap (writeEntry r.1)

/-- The three fields before the records (R131 to R133): original_length, block_size, context_count. -/
def headerStart (order n count : Nat) : Bytes :=
  beBytes 8 n ++ [BitVec.ofNat 8 (order + 1)] ++ beBytes 4 count

/-- `WriteHeader(o, n, F)` of R241. -/
def writeHeader (order n : Nat) (F : FreqModel) : Bytes :=
  headerStart order n F.length ++ F.flatMap writeRecord

/-- The header length of R136 and R244. -/
def headerLength (order : Nat) (F : FreqModel) : Nat :=
  13 + (F.map (fun r => order + 4 + r.2.length * (order + 9))).sum

/-- What HDRP gives on success (R250, R255). -/
structure Header where
  origLen : Nat
  order   : Nat
  count   : Nat
  wt      : FreqModel
  hlen    : Nat
  deriving DecidableEq, Repr

/-- `need(k)` and the read that follows it: `rest` is `in[pos ..)`, so `pos + k > |in|` is
`k > |rest|` (R255, R256). -/
def takeField (k : Nat) (rest : Bytes) : Except ErrKind (Bytes × Bytes) :=
  if rest.length < k then .error .truncatedHeader else .ok (rest.take k, rest.drop k)

/-- The loop over a record's symbol entries (R255, R262). -/
def parseEntries (order : Nat) (key : Bytes) :
    Nat → WeightTable → Bytes → Except ErrKind (WeightTable × Bytes)
  | 0, T, rest => .ok (T, rest)
  | m + 1, T, rest => do
    let (sym, rest) ← takeField (order + 1) rest
    if sym.take order ≠ key then .error .corruptHeader
    else if (lookupKey (sym.getD order 0#8) T).isSome then .error .corruptHeader
    else do
      let (weight, rest) ← takeField 8 rest
      parseEntries order key m (insertKey byteLt (sym.getD order 0#8) (beValue weight) T) rest

/-- The loop over the context records (R255, R260, R261, R263). -/
def parseRecords (order : Nat) : Nat → FreqModel → Bytes → Except ErrKind (FreqModel × Bytes)
  | 0, WT, rest => .ok (WT, rest)
  | k + 1, WT, rest => do
    let (key, rest) ← takeField order rest
    if (lookupKey key WT).isSome then .error .corruptHeader
    else do
      let (count, rest) ← takeField 4 rest
      if beValue count = 0 ∨ Config.maxSyms < beValue count then .error .corruptHeader
      else do
        let (T, rest) ← parseEntries order key (beValue count) [] rest
        if tableTotal T = 0 then .error .corruptHeader
        else parseRecords order k (insertKey bytesLt key T WT) rest

/-- `ParseHeader(in)` of R255, with its checks in the order of decision D28. -/
def parseHeader (p : Params) (input : Bytes) : Except ErrKind Header := do
  let (origLen, rest) ← takeField 8 input
  if p.outCap < beValue origLen then .error .capacityExceeded
  else do
    let (blockSize, rest) ← takeField 1 rest
    if beValue blockSize = 0 then .error .corruptHeader
    else if p.maxOrder < beValue blockSize - 1 then .error .capacityExceeded
    else do
      let (count, rest) ← takeField 4 rest
      if p.maxCtx < beValue count then .error .capacityExceeded
      else do
        let (WT, rest) ← parseRecords (beValue blockSize - 1) (beValue count) [] rest
        .ok { origLen := beValue origLen, order := beValue blockSize - 1, count := beValue count,
              wt := WT, hlen := input.length - rest.length }

end Sys2Proof.Machine
end

