-- ==== Sys2Proof/Machine/Bitstream.lean ====
section
/-! DEFINITION. The PACK and UNPACK units (spec/44_bitstream.md). -/

namespace Sys2Proof.Machine

/-- `PackBits(in, o, C)` of R281 from window `cw`; none where a code is missing (R227). -/
def packBits (C : CodeStore) (cw : Bytes) : Bytes → Option Bits
  | [] => some []
  | b :: rest => do
    let code ← encodeLookup C cw b
    let more ← packBits C (slide cw b) rest
    some (code ++ more)

/-- The padding of R282: zero bits up to the next byte boundary. -/
def padBits (s : Bits) : Bits := List.replicate ((8 - s.length % 8) % 8) false

/-- `PackBytes(s)` of R282: pad, then byte j from bits 8j to 8j + 7. -/
def packBytes (s : Bits) : Bytes :=
  let padded := s ++ padBits s
  (List.range (padded.length / 8)).map (fun j => bitsByte ((padded.drop (8 * j)).take 8))

/-- `T`, the number of code bits, from the counts and the code lengths (R285). -/
def codeBits (F : FreqModel) (C : CodeStore) : Nat :=
  (F.map (fun r =>
    (r.2.map (fun e => e.2 * ((encodeLookup C r.1 e.1).getD []).length)).sum)).sum

/-- The unpacker's registers as one pass of R292 leaves them, with the bytes it has output. -/
structure Unpacked where
  cw     : Bytes
  acc    : Bits
  dead   : Bool
  bitpos : Nat
  out    : Bytes
  deriving DecidableEq, Repr

/-- The loop of R292, one body bit at a time, with the error it ends in, if any. The next symbol
starts with an empty accumulator, which a hit leaves (R294). -/
def unpackFrom (C : CodeStore) (L : Nat) : Bits → Unpacked → Unpacked × Option ErrKind
  | [], u => if u.out.length < L then (u, some .bitstreamExhausted) else (u, none)
  | b :: rest, u =>
    if u.out.length < L then
      let acc := u.acc ++ [b]
      let u := { u with acc := acc, bitpos := u.bitpos + 1 }
      match lookupKey u.cw C with
      | none => (u, some .unknownContext)
      | some table =>
        match decodeLookup table acc with
        | some x =>
          unpackFrom C L rest { u with acc := [], cw := slide u.cw x, out := u.out ++ [x] }
        | none =>
          if properPrefix table acc then unpackFrom C L rest u
          else ({ u with dead := true }, some .bitstreamExhausted)
    else (u, none)

/-- The start of UNPACK: CW zero, ACC empty, DEAD clear, BITPOS 0, nothing output (R290). -/
def unpackStart (order : Nat) : Unpacked :=
  { cw := zeros order, acc := [], dead := false, bitpos := 0, out := [] }

/-- UNPACK over a body's bits (R292). -/
def unpackRun (C : CodeStore) (order L : Nat) (body : Bits) : Unpacked × Option ErrKind :=
  unpackFrom C L body (unpackStart order)

/-- `Unpack(body, o, L, C)` of R292: the output, or the error. -/
def unpack (C : CodeStore) (order L : Nat) (body : Bits) : Except ErrKind Bytes :=
  match unpackRun C order L body with
  | (u, none) => .ok u.out
  | (_, some e) => .error e

end Sys2Proof.Machine
end

