-- ==== Sys2Proof/Machine/Unpacker.lean ====
section
/-! DEFINITION. The unpacker as the state machine of spec/44_bitstream.md R302, Table 12, and the
tree-walking form of R295. The meaning of DECOMPRESS runs the loop of R292; that these are the same
function is a statement. -/

namespace Sys2Proof.Machine

/-- The states of Table 12. U_ERR carries the error raised. -/
inductive UState where
  | sym | fetch | look | done
  | err (e : ErrKind)
  deriving DecidableEq, Repr

/-- The registers of the machine (R302): CW, ACC, DEAD, BITPOS, and the bytes written to
`OUT_MEM[0 .. OUTPOS)`, whose number is OUTPOS. -/
structure UMachine where
  ustate : UState
  cw     : Bytes
  acc    : Bits
  dead   : Bool
  bitpos : Nat
  out    : Bytes
  deriving DecidableEq, Repr

/-- What the machine reads: the code store, L, the input and HLEN (R290). -/
structure UInput where
  codes   : CodeStore
  origLen : Nat
  input   : Bytes
  hlen    : Nat
  deriving DecidableEq, Repr

/-- `NB = 8 * (IN_LEN - HLEN)`, the body length in bits (R302). -/
def bodyBits (u : UInput) : Nat := 8 * (u.input.length - u.hlen)

/-- Body bit `k`: bit `7 - (k mod 8)` of `IN_MEM[HLEN + k div 8]` (R302). -/
def bodyBit (u : UInput) (k : Nat) : Bool :=
  (u.input.getD (u.hlen + k / 8) 0#8).getLsbD (7 - k % 8)

/-- One transition of Table 12. U_DONE and U_ERR are exits. -/
def uStep (u : UInput) (m : UMachine) : UMachine :=
  match m.ustate with
  | .sym =>
    if m.out.length < u.origLen then { m with acc := [], dead := false, ustate := .fetch }
    else { m with ustate := .done }
  | .fetch =>
    if m.bitpos < bodyBits u then
      { m with acc := m.acc ++ [bodyBit u m.bitpos], bitpos := m.bitpos + 1, ustate := .look }
    else { m with ustate := .err .bitstreamExhausted }
  | .look =>
    match lookupKey m.cw u.codes with
    | none => { m with ustate := .err .unknownContext }
    | some table =>
      match decodeLookup table m.acc with
      | some b => { m with out := m.out ++ [b], cw := slide m.cw b, ustate := .sym }
      | none =>
        if properPrefix table m.acc then { m with ustate := .fetch }
        else { m with dead := true, ustate := .err .bitstreamExhausted }
  | .done => m
  | .err _ => m

/-- `n` transitions. -/
def uSteps (u : UInput) : Nat → UMachine → UMachine
  | 0, m => m
  | n + 1, m => uSteps u n (uStep u m)

/-- The start of the machine: U_SYM with the registers of R290. -/
def uStart (order : Nat) : UMachine :=
  { ustate := .sym, cw := zeros order, acc := [], dead := false, bitpos := 0, out := [] }

/-- The node a bit string leads to from a root: left on 0, right on 1 (R295). -/
def treeAt : Tree → Bits → Option Tree
  | t, [] => some t
  | .internal _ _ l r, b :: p => treeAt (if b then r else l) p
  | .leaf _ _, _ :: _ => none
  | .placeholder, _ :: _ => none

end Sys2Proof.Machine
end

