-- ==== Sys2Proof/Machine/Commands.lean ====
section
/-! DEFINITION. The phases of the commands as steps over State, and the meaning of each command: the
core's completion step of spec/45_commands.md R312 with `Execute` of R315, R322 and R330. The phases are
folded into the one step (R34, R312, decision D35). -/

namespace Sys2Proof.Machine

/-! ### Phases of COMPRESS -/

/-- Phase CHECK of any command: the stores start empty (R62, R229). -/
def phaseCheck (s : State) : State := { s with phase := .check, stores := emptyStores }

/-- Checks 1 to 3 of R318, with ORD set from the word (R122). -/
def checkCompress (o : Byte) (s : State) : Except Stop State :=
  let s := { phaseCheck s with work := { s.work with ord := o } }
  if s.params.maxOrder < o.toNat then raiseError .capacityExceeded s
  else if s.params.inCap < s.regs.inLen.toNat then raiseError .capacityExceeded s
  else if s.regs.inLen.toNat = 0 then raiseError .emptyInput s
  else .ok s

/-- Phase FREQ (R173), then check 4 of R318 (R178). -/
def phaseFreq (s : State) : Except Stop State :=
  let o := s.work.ord.toNat
  let s := { s with
    phase := .freq
    stores := { s.stores with freq := freqModel o s.input }
    work := { s.work with cw := windowAfter (zeros o) s.input, inpos := s.input.length } }
  if s.params.maxCtx < s.stores.freq.length then raiseError .capacityExceeded s else .ok s

/-- One tree per context (R190); none where a table breaks the preconditions of R191. -/
def buildAll : FreqModel → Option NodeStore
  | [] => some []
  | (k, W) :: F =>
    match buildTree W, buildAll F with
    | some t, some N => some ((k, t) :: N)
    | _, _ => none

/-- Trees into the NODE arena, from the tables of the FREQ store or the WT store (R200). -/
def buildPhase (p : Phase) (F : FreqModel) (s : State) : Except Stop State :=
  match buildAll F with
  | some N => .ok { s with phase := p, stores := { s.stores with node := N } }
  | none => .error (.fault .treePrecondition)

/-- CODEGEN: the CODE store from the NODE arena (R220, R221, R229). -/
def phaseCodegen (p : Phase) (s : State) : State :=
  { s with
    phase := p
    stores := { s.stores with code := s.stores.node.map (fun e => (e.1, codeTable e.2)) } }

/-- The size check of R315 (check 5 of R318), which runs before anything is written (R317). -/
def checkSize (s : State) : Except Stop State :=
  let h := writeHeader s.work.ord.toNat s.regs.inLen.toNat s.stores.freq
  let T := codeBits s.stores.freq s.stores.code
  if s.params.outCap < h.length + (T + 7) / 8 then raiseError .capacityExceeded s else .ok s

/-- Phase HDRW: the header at OUT_MEM[0 ..) (R240, R241). -/
def phaseHdrw (s : State) : State :=
  let h := writeHeader s.work.ord.toNat s.regs.inLen.toNat s.stores.freq
  let s := s.writeOut 0 h
  { s with phase := .hdrw, work := { s.work with outpos := h.length, hlen := h.length } }

/-- Phase PACK: the body from the header's end upward, over a second pass of the input (R281 to R283). -/
def phasePack (s : State) : Except Stop State :=
  let o := s.work.ord.toNat
  match packBits s.stores.code (zeros o) s.input with
  | none => .error (.fault .codeMissing)
  | some bits =>
    let body := packBytes bits
    let s := s.writeOut s.work.outpos body
    .ok { s with
      phase := .pack
      work := { s.work with
        cw := windowAfter (zeros o) s.input
        inpos := s.input.length
        outpos := s.work.outpos + body.length } }

/-- `Compress(o)` of R315, phase by phase, with the three result values of R312. -/
def compressPhases (o : Byte) (s : State) : Except Stop (State × Nat × Nat × Nat) := do
  let s ← checkCompress o s
  let s ← phaseFreq s
  let s ← buildPhase .build s.stores.freq s
  let s ← checkSize (phaseCodegen .codegen s)
  let s ← phasePack (phaseHdrw s)
  .ok (s, s.work.outpos, s.work.hlen, s.stores.freq.length)

/-! ### Phases of DECOMPRESS -/

/-- The check of R323. -/
def checkDecompress (s : State) : Except Stop State :=
  let s := phaseCheck s
  if s.params.inCap < s.regs.inLen.toNat then raiseError .capacityExceeded s else .ok s

/-- Phase HDRP: L, ORD, WT and HLEN from the header, and the record count K (R250, R255). -/
def phaseHdrp (s : State) : Except Stop (State × Nat) :=
  let s := { s with phase := .hdrp }
  match parseHeader s.params s.input with
  | .error e => raiseError e s
  | .ok h =>
    .ok ({ s with
      stores := { s.stores with wt := h.wt }
      work := { s.work with
        origLen := BitVec.ofNat 64 h.origLen
        ord := BitVec.ofNat 8 h.order
        inpos := h.hlen
        hlen := h.hlen } }, h.count)

/-- Phase UNPACK: the body after HLEN, one output byte per hit at OUT_MEM[0 ..) (R290 to R301). -/
def phaseUnpack (s : State) : Except Stop State :=
  let run := unpackRun s.stores.code s.work.ord.toNat s.work.origLen.toNat
    (bytesBits (s.input.drop s.work.hlen))
  let s := s.writeOut 0 run.1.out
  let s := { s with
    phase := .unpack
    work := { s.work with
      cw := run.1.cw, acc := run.1.acc, dead := run.1.dead, bitpos := run.1.bitpos
      outpos := run.1.out.length } }
  match run.2 with
  | none => .ok s
  | some e => raiseError e s

/-- `Decompress()` of R322, phase by phase, with the three result values of R312. -/
def decompressPhases (s : State) : Except Stop (State × Nat × Nat × Nat) := do
  let s ← checkDecompress s
  let (s, k) ← phaseHdrp s
  let s ← buildPhase .rebuild s.stores.wt s
  let s ← phaseUnpack (phaseCodegen .rebuild s)
  .ok (s, s.work.outpos, s.work.hlen, k)

/-! ### The meanings -/

/-- NOP: `skip` (R313). -/
def execNop (s : State) : Outcome := .next s

/-- COMPRESS o (R315). -/
def execCompress (o : Byte) (s : State) : Outcome := finish (compressPhases o s)

/-- DECOMPRESS (R322). -/
def execDecompress (s : State) : Outcome := finish (decompressPhases s)

/-- An accepted ILLEGAL word completes with IllegalCommand, before anything else is checked or read
(R330, R358). -/
def execIllegal (_w : Word) (s : State) : Outcome :=
  finish (raiseError .illegalCommand (phaseCheck s))

end Sys2Proof.Machine
end

