-- ==== Sys2Proof/Machine/Execute.lean ====
section
/-! DEFINITION. `Execute` of spec/45_commands.md R312 as one function of the values R314 names, without
the phases: the pseudocode of R315, R322 and R330 read as a calculation. The meanings go through the
phases; that the two agree is a statement. -/

namespace Sys2Proof.Machine

/-- The result of R312: `Ok(out, hl, k)` or `Err(E)`. -/
inductive Result where
  | ok (out : Bytes) (hl k : Nat)
  | err (e : ErrKind)
  deriving DecidableEq, Repr

/-- The container that COMPRESS writes (R316): header, then packed body. -/
def container (order : Nat) (input : Bytes) : Bytes :=
  let F := freqModel order input
  writeHeader order input.length F
    ++ packBytes ((packBits (codeStoreOf F) (zeros order) input).getD [])

/-- `Compress(o)` of R315. -/
def compressResult (p : Params) (order inLen : Nat) (input : Bytes) : Result :=
  if p.maxOrder < order then .err .capacityExceeded
  else if p.inCap < inLen then .err .capacityExceeded
  else if inLen = 0 then .err .emptyInput
  else
    let F := freqModel order input
    if p.maxCtx < F.length then .err .capacityExceeded
    else if p.outCap < (container order input).length then .err .capacityExceeded
    else .ok (container order input) (writeHeader order input.length F).length F.length

/-- `Decompress()` of R322. -/
def decompressResult (p : Params) (inLen : Nat) (input : Bytes) : Result :=
  if p.inCap < inLen then .err .capacityExceeded
  else
    match parseHeader p input with
    | .error e => .err e
    | .ok h =>
      match unpack (codeStoreOf h.wt) h.order h.origLen (bytesBits (input.drop h.hlen)) with
      | .error e => .err e
      | .ok out => .ok out h.hlen h.count

/-- `Execute` (R312, R314) on a decoded command; NOP is never accepted and has no result (R313). -/
def executeResult (i : Instr) (p : Params) (inLen : Nat) (input : Bytes) : Option Result :=
  match i with
  | .nop => none
  | .compress o => some (compressResult p o.toNat inLen input)
  | .decompress => some (decompressResult p inLen input)
  | .illegal _ => some (.err .illegalCommand)

/-- The completion step's effect for a result (R312). -/
def State.complete (r : Result) (s : State) : State :=
  match r with
  | .ok out hl k => (s.writeOut 0 out).completeOk out.length hl k
  | .err e => s.completeErr e

end Sys2Proof.Machine
end

