-- ==== Sys2Proof/Machine/Port.lean ====
section
/-! DEFINITION. The host port: the address map, the register block and the buffer windows
(spec/20_memory.md R80 to R89; spec/10_state.md R35 to R54; spec/60_exceptions.md R370). -/

namespace Sys2Proof.Machine

/-- The regions of R81, Table 6, with the offset inside the region. -/
inductive Region where
  | registers (off : Nat)
  | inWindow (off : Nat)
  | outWindow (off : Nat)
  | unmapped
  deriving DecidableEq, Repr

/-- The address map of R81, Table 6. -/
def regionOf (addr : Word) : Region :=
  let a := addr.toNat
  if a < 0x1000 then .registers a
  else if a < 0x40000000 then .unmapped
  else if a < 0x80000000 then .inWindow (a - 0x40000000)
  else if a < 0xC0000000 then .outWindow (a - 0x80000000)
  else .unmapped

/-- What a read of the register at an offset returns (R35 to R54). CTRL and reserved offsets read 0. -/
def readReg (s : State) (off : Nat) : Word :=
  match off with
  | 0x000 => Config.idValue
  | 0x004 => Config.versionValue
  | 0x008 => BitVec.ofNat 32 s.params.inCap
  | 0x00C => BitVec.ofNat 32 s.params.outCap
  | 0x010 => BitVec.ofNat 32 s.params.maxCtx
  | 0x014 => BitVec.ofNat 32 s.params.maxOrder
  | 0x024 => statusWord s.busy s.regs.status
  | 0x028 => intEnWord s.regs.intEn
  | 0x02C => s.regs.inLen
  | 0x030 => s.regs.outLen
  | 0x034 => s.regs.hdrLen
  | 0x038 => s.regs.ctxCount
  | _ => 0#32

/-- A write of `v` to STATUS, in any state (R43). -/
def State.writeStatus (v : Word) (s : State) : State :=
  { s with regs := { s.regs with status := statusWrite v s.regs.status } }

/-- A write of `v` to INT_EN, in any state (R49). -/
def State.writeIntEn (v : Word) (s : State) : State :=
  { s with regs := { s.regs with intEn := intEnWrite v } }

/-- A write of `v` to IN_LEN while idle; any value may be written (R50). -/
def State.writeInLen (v : Word) (s : State) : State := { s with regs := { s.regs with inLen := v } }

/-- A byte written to IN_MEM by the host (R84). -/
def State.writeIn (off : Nat) (b : Byte) (s : State) : State := { s with inMem := memPut off b s.inMem }

/-- A write to the register at an offset; none is an ERROR response. IN_LEN is refused while busy
(R50, R88); RO registers and reserved offsets ignore writes (R35, R54). -/
def writeReg (off : Nat) (v : Word) (s : State) : Option State :=
  match off with
  | 0x020 => some (s.present v)
  | 0x024 => some (s.writeStatus v)
  | 0x028 => some (s.writeIntEn v)
  | 0x02C => if s.busy then none else some (s.writeInLen v)
  | _ => some s

/-- A register access needs size 4 and an offset that is a multiple of 4 (R83). -/
def registerAccess (size : Size) (off : Nat) : Bool := size == .four && off % 4 == 0

/-- The data of a read; none is an ERROR response (R83, R84, R85, R88). -/
def readPort (s : State) (addr : Word) (size : Size) : Option Word :=
  match regionOf addr with
  | .registers off => if registerAccess size off then some (readReg s off) else none
  | .inWindow off =>
    if size = .one ∧ off < s.params.inCap then some ((s.inByte off).zeroExtend 32) else none
  | .outWindow off =>
    if size = .one ∧ off < s.params.outCap ∧ s.busy = false then
      some ((s.outByte off).zeroExtend 32)
    else none
  | .unmapped => none

/-- The state after a write; none is an ERROR response (R83, R84, R85, R88). Data bits 31:8 of a byte
write are ignored. -/
def writePort (addr : Word) (size : Size) (data : Word) (s : State) : Option State :=
  match regionOf addr with
  | .registers off => if registerAccess size off then writeReg off data s else none
  | .inWindow off =>
    if size = .one ∧ off < s.params.inCap ∧ s.busy = false then
      some (s.writeIn off (data.extractLsb' 0 8))
    else none
  | .outWindow _ => none
  | .unmapped => none

/-- One host access (R80): a read with ERROR returns 0, a write with ERROR has no effect. A write's
response carries data 0 (log entry 9). -/
def State.performAccess (a : Access) (s : State) : State :=
  match a.dir with
  | .read =>
    match readPort s a.addr a.size with
    | some v => s.respond (.okay v)
    | none => s.respond (.error 0#32)
  | .write data =>
    match writePort a.addr a.size data s with
    | some t => t.respond (.okay 0#32)
    | none => s.respond (.error 0#32)

/-- The address of CTRL (R42, Table 10). -/
def ctrlAddr : Word := 0x020#32

/-- The command word an access presents: a 4-byte write at CTRL (R42, R310). -/
def presentedWord (a : Access) : Option Word :=
  match a.dir with
  | .write w => if a.addr = ctrlAddr ∧ a.size = .four then some w else none
  | .read => none

end Sys2Proof.Machine
end

