-- ==== Sys2Proof/Machine/Step.lean ====
section
/-! DEFINITION. One atomic event of the machine (spec/60_exceptions.md R373): a host access, the core's
completion step, or reset, in the order that the schedule gives. -/

namespace Sys2Proof.Machine

/-- The core's step (R312): enabled while BUSY = 1, it runs the command that CMD decodes to. -/
def coreStep (s : State) : Outcome := if s.busy then exec (decode s.cmd) s else .next s

/-- A host access (R80). A CTRL write of the NOP word runs NOP at once (R310, R313). -/
def hostStep (a : Access) (s : State) : Outcome :=
  match presentedWord a with
  | some w =>
    match decode w with
    | .nop => exec .nop (s.performAccess a)
    | _ => .next (s.performAccess a)
  | none => .next (s.performAccess a)

/-- One step: the next event of the schedule. When the schedule is used up, a command in flight
completes, by the fairness of R405 and R407, and an idle block does nothing (R386). -/
def step (s : State) : Host.Outcome State Fault Refusal :=
  match s.host.pending with
  | .access a :: rest => hostStep a (s.advance rest)
  | .complete :: rest => coreStep (s.advance rest)
  | .reset :: rest => .next (s.advance rest).resetEvent
  | [] => if s.busy then coreStep (s.advance []) else .next s

/-- The state in which the very next step runs the command word `w` (log entry 2). HCC takes its
commands from CTRL writes and runs an accepted one in the completion step. A non-zero word is latched
as an idle block's acceptance latches it (R311), with the completion as the next event. The NOP word is
never accepted: the next event is the CTRL write that presents it (R310). -/
def State.withFetchWord (s : State) (nbits w : Nat) : State :=
  let word : Word := BitVec.ofNat 32 (w % 2 ^ nbits)
  if word = 0#32 then
    { s with host := { s.host with
      pending := .access { addr := ctrlAddr, size := .four, dir := .write 0#32 } :: s.host.pending } }
  else
    let t := s.accept word
    { t with host := { t.host with pending := .complete :: t.host.pending } }

end Sys2Proof.Machine
end

