-- ==== Sys2Proof/Machine/HostNotation.lean ====
section
/-! DEFINITION. The host as an agent that runs a program: the host notation of spec/30_encoding.md R150 to
R153 and the end of a run (spec/70_reset_and_hazards.md R407). The program and its variables are not HCC
state (R32); they stand beside it. -/

namespace Sys2Proof.Machine

/-- What a host expression may add to a constant: a host variable `h0`, `h1`, ..., or the counter `k` of
COPYOUT's loop (R150, R153). -/
inductive HostVar where
  | h (n : Nat)
  | k
  deriving DecidableEq, Repr

/-- A host-side value: a constant plus, where it is given, a variable (R150; an address such as `OUT+h4`
or `OUT+k` is computed by the host). DESIGN CHOICE (log entry 23): 32 bits, the width of the port's data
and addresses; R150 gives a host variable no width. -/
structure HostExpr where
  base : Word
  var  : Option HostVar
  deriving DecidableEq, Repr

/-- The host operations of R150, Table 9, and the three steps of the loop that Table 11 gives COPYOUT.
Branch targets are positions in the program, in place of labels (log entry 22). -/
inductive HostOp where
  | w32 (addr value : HostExpr)
  | r32 (addr : HostExpr) (dst : Nat)
  | w8 (addr byte : HostExpr)
  | r8 (addr : HostExpr) (dst : Nat)
  | bset (var bit target : Nat)
  | bne (var : Nat) (value : Word) (target : Nat)
  | add (dst src : Nat) (value : Word)
  | halt
  /-- `k := 0`: the loop begins. -/
  | loopStart
  /-- Leave the loop for `target` unless `k` is below the bound that a host variable holds now. -/
  | loopTest (bound target : Nat)
  /-- `k := k + 1`, and back to `target`. -/
  | loopNext (target : Nat)
  deriving DecidableEq, Repr

/-- A host with its program, its position, its variables, the counter of COPYOUT's loop and the block it
drives. DESIGN CHOICE (log entry 23): a host variable holds 32 bits. -/
structure HostAgent where
  prog   : List HostOp
  at_    : Nat
  vars   : List (Nat × Word)
  count  : Word
  halted : Bool
  hcc    : State
  deriving DecidableEq, Repr

/-- A host variable; variables start at 0 (spec/95_test_vectors.md L3). -/
def hostVar (vars : List (Nat × Word)) (n : Nat) : Word := (lookupKey n vars).getD 0#32

/-- The value of a host expression. DESIGN CHOICE (log entry 23): the sum wraps at 2^32. -/
def hostValue (h : HostAgent) (e : HostExpr) : Word :=
  match e.var with
  | none => e.base
  | some (.h n) => e.base + hostVar h.vars n
  | some .k => e.base + h.count

/-- A constant. -/
def hostConst (w : Word) : HostExpr := { base := w, var := none }

/-- The data of a response, as a host variable receives it. -/
def responseData : Option Response → Word
  | some (.okay v) => v
  | some (.error v) => v
  | none => 0#32

/-- The host's next bus access goes through the port; the host then moves on (R80, R150). -/
def hostAccess (h : HostAgent) (a : Access) : HostAgent :=
  { h with at_ := h.at_ + 1, hcc := (h.hcc.advance h.hcc.host.pending).performAccess a }

/-- The same for a read whose data, masked, goes into a host variable. -/
def hostLoad (h : HostAgent) (a : Access) (dst : Nat) (mask : Word) : HostAgent :=
  let t := hostAccess h a
  { t with vars := insertKey natLt dst (responseData t.hcc.host.response &&& mask) t.vars }

/-- One host operation (R150, Table 9). DESIGN CHOICE (log entry 23): ADD wraps at 2^32, BNE and BSET look
at 32 bits, and a host past its last operation has halted. -/
def hostOp (h : HostAgent) : HostAgent :=
  if h.halted then h
  else
    match h.prog[h.at_]? with
    | none => { h with halted := true }
    | some .halt => { h with halted := true }
    | some (.w32 addr value) => hostAccess h
        { addr := hostValue h addr, size := .four, dir := .write (hostValue h value) }
    | some (.w8 addr byte) => hostAccess h
        { addr := hostValue h addr, size := .one, dir := .write (hostValue h byte) }
    | some (.r32 addr dst) =>
      hostLoad h { addr := hostValue h addr, size := .four, dir := .read } dst 0xFFFFFFFF#32
    | some (.r8 addr dst) =>
      hostLoad h { addr := hostValue h addr, size := .one, dir := .read } dst 0xFF#32
    | some (.bset var bit target) =>
      { h with at_ := if (hostVar h.vars var).getLsbD bit then target else h.at_ + 1 }
    | some (.bne var value target) =>
      { h with at_ := if hostVar h.vars var ≠ value then target else h.at_ + 1 }
    | some (.add dst src value) =>
      { h with at_ := h.at_ + 1, vars := insertKey natLt dst (hostVar h.vars src + value) h.vars }
    | some .loopStart => { h with at_ := h.at_ + 1, count := 0#32 }
    | some (.loopTest bound target) =>
      { h with at_ := if h.count.toNat < (hostVar h.vars bound).toNat then h.at_ + 1 else target }
    | some (.loopNext target) => { h with at_ := target, count := h.count + 1#32 }

/-- Which agent moves (R30, R373). -/
inductive Turn where
  | host | core
  deriving DecidableEq, Repr

/-- One move of the host and block together. -/
def hostTurn (t : Turn) (h : HostAgent) : Host.Outcome HostAgent Fault Refusal :=
  match t with
  | .host => .next (hostOp h)
  | .core =>
    match coreStep (h.hcc.advance h.hcc.host.pending) with
    | .next s => .next { h with hcc := s }
    | .fault f => .fault f
    | .refused r => .refused r

/-- A run over a schedule of moves. Where the schedule ends with a command in flight, the end state is
taken after its completion (R407). -/
def hostRun : List Turn → HostAgent → Host.Outcome HostAgent Fault Refusal
  | [], h => if h.hcc.busy then hostTurn .core h else .next h
  | t :: ts, h =>
    match hostTurn t h with
    | .next h => hostRun ts h
    | .fault f => .fault f
    | .refused r => .refused r

/-- The symbolic addresses of R151, Table 10, that the pseudo-instructions use. -/
def statusAddr : Word := 0x024#32
/-- IN_LEN of Table 10. -/
def inLenAddr : Word := 0x02C#32
/-- OUT_LEN of Table 10. -/
def outLenAddr : Word := 0x030#32
/-- `IN+k` of Table 10. -/
def inAddr (k : Nat) : Word := 0x40000000#32 + BitVec.ofNat 32 k
/-- `OUT+k` of Table 10. -/
def outAddr (k : Nat) : Word := 0x80000000#32 + BitVec.ofNat 32 k

/-- The command mnemonics of R152, with the order as the programmer writes it. -/
inductive Mnemonic where
  | nop
  | compress (o : Nat)
  | decompress
  deriving DecidableEq, Repr

/-- The command word of a mnemonic; the assembler refuses `COMPRESS o` for o outside 0 .. 254 (R152). -/
def assemble : Mnemonic → Option Word
  | .nop => some (encode .nop)
  | .compress o => if o ≤ 254 then some (encode (.compress (BitVec.ofNat 8 o))) else none
  | .decompress => some (encode .decompress)

/-- `CMD m` of R153, Table 11; none where the assembler refuses m. -/
def cmdOps (m : Mnemonic) : Option (List HostOp) :=
  (assemble m).map (fun w => [.w32 (hostConst ctrlAddr) (hostConst w)])

/-- `WAIT`, standing at position `at_` of its program: h0 holds the final STATUS. -/
def waitOps (pos : Nat) : List HostOp := [.r32 (hostConst statusAddr) 0, .bset 0 0 pos]

/-- `LOADIN b0 b1 ...`. -/
def loadInOps (bs : Bytes) : List HostOp :=
  (bs.zipIdx.map (fun e => HostOp.w8 (hostConst (inAddr e.2)) (hostConst (e.1.zeroExtend 32))))
    ++ [.w32 (hostConst inLenAddr) (hostConst (BitVec.ofNat 32 bs.length))]

/-- `COPYOUT`, standing at position `pos` of its program: h1 receives OUT_LEN, and the host's loop runs
for k below the h1 just read, then IN_LEN takes h1 (R153, Table 11). -/
def copyOutOps (pos : Nat) : List HostOp :=
  [ .r32 (hostConst outLenAddr) 1,
    .loopStart,
    .loopTest 1 (pos + 6),
    .r8 { base := outAddr 0, var := some .k } 2,
    .w8 { base := inAddr 0, var := some .k } { base := 0#32, var := some (.h 2) },
    .loopNext (pos + 2),
    .w32 (hostConst inLenAddr) { base := 0#32, var := some (.h 1) } ]

/-- `CLR`: clears DONE, ERR with ERRCODE, and REJ. -/
def clrOps : List HostOp := [.w32 (hostConst statusAddr) (hostConst 0x0000000E#32)]

/-- A line of a host program: an operation or a pseudo-instruction (R150). -/
inductive HostLine where
  | op (o : HostOp)
  | cmd (m : Mnemonic)
  | wait
  | loadIn (bs : Bytes)
  | copyOut
  | clr
  deriving DecidableEq, Repr

/-- The expansion of a line that stands at position `pos` (R153, Table 11). -/
def expandLine (pos : Nat) : HostLine → Option (List HostOp)
  | .op o => some [o]
  | .cmd m => cmdOps m
  | .wait => some (waitOps pos)
  | .loadIn bs => some (loadInOps bs)
  | .copyOut => some (copyOutOps pos)
  | .clr => some clrOps

/-- The operations of a program from position `pos`; none where the assembler refuses a line. -/
def expandProgram (pos : Nat) : List HostLine → Option (List HostOp)
  | [] => some []
  | l :: ls => do
    let ops ← expandLine pos l
    let rest ← expandProgram (pos + ops.length) ls
    some (ops ++ rest)

end Sys2Proof.Machine
end

