-- ==== Sys2Proof/Safety.lean ====
section
/-! DEFINITION. What claims about HCC are stated in: the machine's invariant, what an access is refused
for, what the host can see, which headers HDRP accepts and refuses, and in which order a tree was merged. -/

namespace Sys2Proof.Machine

/-- An outcome that goes on. -/
abbrev Completes (o : Outcome) : Prop := ∃ t, o = .next t

/-- The machine's invariant (spec/10_state.md R55 and the rules cited at each field). -/
structure Inv (s : State) : Prop where
  /-- R9, Table 2. -/
  legal : s.params.legal
  /-- R55: DONE and ERR are never both 1. -/
  doneErr : ¬ (s.regs.status.done = true ∧ s.regs.status.err = true)
  /-- R55: BUSY = 1 implies DONE = 0, ERR = 0 and ERRCODE = 0. -/
  busyFlags : s.busy = true →
    s.regs.status.done = false ∧ s.regs.status.err = false ∧ s.regs.status.errcode = 0#4
  /-- R55: ERR = 0 if and only if ERRCODE = 0. -/
  errCode : s.regs.status.err = false ↔ s.regs.status.errcode = 0#4
  /-- R350: codes 8 to 15 are never produced. -/
  errRange : s.regs.status.errcode.toNat ≤ 7
  /-- R51 to R53: the result registers are 0 from acceptance to completion. -/
  busyResults : s.busy = true →
    s.regs.outLen = 0#32 ∧ s.regs.hdrLen = 0#32 ∧ s.regs.ctxCount = 0#32
  /-- R310: the word 0 is never accepted. -/
  busyCmd : s.busy = true → s.cmd ≠ 0#32
  /-- R312, R34: between two events SEQ.PHASE is IDLE, or CHECK from acceptance to completion. -/
  settled : s.phase = .idle ∨ s.phase = .check
  /-- IN_MEM is in canonical form and lies below IN_CAP (R56, R84). -/
  inWf : s.inMem.wf
  inBound : ∀ c ∈ s.inMem, c.1 < s.params.inCap
  /-- OUT_MEM is in canonical form and lies below OUT_CAP (R57, R93). -/
  outWf : s.outMem.wf
  outBound : ∀ c ∈ s.outMem, c.1 < s.params.outCap
  /-- R57: every byte below OUT_LEN is defined. -/
  outDefined : ∀ k, k < s.regs.outLen.toNat → (memGet s.outMem k).isSome = true

/-- The accesses that get an ERROR response, case by case as spec/60_exceptions.md R370 and
spec/20_memory.md R88 list them. -/
abbrev badAccess (s : State) (a : Access) : Prop :=
  (0x1000 ≤ a.addr.toNat ∧ a.addr.toNat < 0x40000000) ∨ 0xC0000000 ≤ a.addr.toNat ∨
  (a.addr.toNat < 0x1000 ∧ (a.size ≠ .four ∨ a.addr.toNat % 4 ≠ 0)) ∨
  (0x40000000 ≤ a.addr.toNat ∧ a.addr.toNat < 0x80000000 ∧
    (a.size ≠ .one ∨ s.params.inCap ≤ a.addr.toNat - 0x40000000)) ∨
  (0x80000000 ≤ a.addr.toNat ∧ a.addr.toNat < 0xC0000000 ∧
    (a.size ≠ .one ∨ a.dir ≠ .read ∨ s.params.outCap ≤ a.addr.toNat - 0x80000000)) ∨
  (s.busy = true ∧
    ((0x40000000 ≤ a.addr.toNat ∧ a.addr.toNat < 0x80000000 ∧ a.dir ≠ .read) ∨
      (a.addr.toNat = 0x02C ∧ a.dir ≠ .read) ∨
      (0x80000000 ≤ a.addr.toNat ∧ a.addr.toNat < 0xC0000000)))

/-- Two states that agree on everything but the working registers and the internal stores, which no
host access observes (R67). -/
def sameVisible (s t : State) : Prop :=
  { s with work := t.work, stores := t.stores } = t

/-- The same for outcomes. -/
def sameVisibleOutcome : Outcome → Outcome → Prop
  | .next s, .next t => sameVisible s t
  | .fault f, .fault g => f = g
  | .refused r, .refused q => r = q
  | _, _ => False

/-- Host accesses performed one after another, with no other event between them (R94). -/
def performAll (as : List Access) (s : State) : State := as.foldl (fun s a => s.performAccess a) s

/-- The registers of R35, Table 4, that ignore writes: RO registers and reserved offsets. -/
def ignoresWrites (off : Nat) : Prop :=
  off ≠ 0x020 ∧ off ≠ 0x024 ∧ off ≠ 0x028 ∧ off ≠ 0x02C

/-- The length of a byte's code in a code table; 0 where it has none (R223, R285). -/
def codeLength (C : CodeTable) (b : Byte) : Nat := ((lookupKey b C).getD []).length

/-- One context record that HDRP accepts at order `o` (R255, R260 to R263): a key of `o` bytes and 1 to
256 entries with distinct final bytes, u64 weights and a positive total. -/
def goodRecord (o : Nat) (r : Bytes × WeightTable) : Prop :=
  r.1.length = o ∧ 1 ≤ r.2.length ∧ r.2.length ≤ 256 ∧ (r.2.map Prod.fst).Nodup ∧
    (∀ e ∈ r.2, e.2 < 2 ^ 64) ∧ 0 < tableTotal r.2

/-- What the header of a container that the block accepts holds: an order, a length and a record count
within the parameters (R257 to R259), good records, and no key twice (R260). -/
def acceptable (p : Params) (o n : Nat) (R : FreqModel) : Prop :=
  o ≤ p.maxOrder ∧ n ≤ p.outCap ∧ R.length ≤ p.maxCtx ∧ (∀ r ∈ R, goodRecord o r) ∧
    (R.map Prod.fst).Nodup

/-! Where HDRP refuses a header. Each predicate is given what is left to read, after fields that passed
their checks, and names the first field that fails and the error it raises (R255). -/

/-- At a symbol entry of the record with key `key`, after entries with the final bytes `seen`
(R256, R262). -/
inductive EntryRefused (key : Bytes) (seen : List Byte) : Bytes → ErrKind → Prop
  /-- The symbol is cut short. -/
  | shortSymbol (rest : Bytes) : rest.length < key.length + 1 →
      EntryRefused key seen rest .truncatedHeader
  /-- The symbol does not begin with the record's key. -/
  | otherContext (sym rest : Bytes) : sym.length = key.length + 1 → ¬ key <+: sym →
      EntryRefused key seen (sym ++ rest) .corruptHeader
  /-- The symbol's final byte repeats within its record. -/
  | repeatedByte (b : Byte) (rest : Bytes) : b ∈ seen →
      EntryRefused key seen (key ++ [b] ++ rest) .corruptHeader
  /-- The weight is cut short. -/
  | shortWeight (b : Byte) (rest : Bytes) : b ∉ seen → rest.length < 8 →
      EntryRefused key seen (key ++ [b] ++ rest) .truncatedHeader

/-- Entries that passed the checks of R262, of a record of `m` symbols that passed the check of R261. -/
def goodEntries (m : Nat) (E : WeightTable) : Prop :=
  1 ≤ m ∧ m ≤ 256 ∧ (E.map Prod.fst).Nodup ∧ ∀ e ∈ E, e.2 < 2 ^ 64

/-- At a context record of order `o`, after records with the keys `keys` (R256, R260 to R263). -/
inductive RecordRefused (o : Nat) (keys : List Bytes) : Bytes → ErrKind → Prop
  /-- The key is cut short. -/
  | shortKey (rest : Bytes) : rest.length < o → RecordRefused o keys rest .truncatedHeader
  /-- The key is an earlier record's. -/
  | repeatedKey (key rest : Bytes) : key.length = o → key ∈ keys →
      RecordRefused o keys (key ++ rest) .corruptHeader
  /-- The symbol count is cut short. -/
  | shortCount (key rest : Bytes) : key.length = o → key ∉ keys → rest.length < 4 →
      RecordRefused o keys (key ++ rest) .truncatedHeader
  /-- The symbol count is 0 or above 256. -/
  | badCount (key rest : Bytes) (m : Nat) : key.length = o → key ∉ keys → m < 2 ^ 32 →
      m = 0 ∨ 256 < m → RecordRefused o keys (key ++ beBytes 4 m ++ rest) .corruptHeader
  /-- One of the record's symbol entries is refused. -/
  | entry (key rest : Bytes) (m : Nat) (E : WeightTable) (e : ErrKind) : key.length = o →
      key ∉ keys → goodEntries m E → E.length < m → EntryRefused key (E.map Prod.fst) rest e →
      RecordRefused o keys (key ++ beBytes 4 m ++ E.flatMap (writeEntry key) ++ rest) e
  /-- The record's weights sum to 0. -/
  | zeroTotal (key rest : Bytes) (m : Nat) (E : WeightTable) : key.length = o → key ∉ keys →
      goodEntries m E → E.length = m → tableTotal E = 0 →
      RecordRefused o keys (key ++ beBytes 4 m ++ E.flatMap (writeEntry key) ++ rest) .corruptHeader

/-- The input is refused by HDRP with an error (R255 to R259, and at its records). -/
inductive HeaderRefused (p : Params) : Bytes → ErrKind → Prop
  /-- original_length is cut short. -/
  | shortLength (input : Bytes) : input.length < 8 → HeaderRefused p input .truncatedHeader
  /-- original_length is above OUT_CAP. -/
  | longOutput (n : Nat) (rest : Bytes) : n < 2 ^ 64 → p.outCap < n →
      HeaderRefused p (beBytes 8 n ++ rest) .capacityExceeded
  /-- There is no block_size. -/
  | noBlockSize (n : Nat) : n ≤ p.outCap → HeaderRefused p (beBytes 8 n) .truncatedHeader
  /-- block_size is 0. -/
  | zeroBlockSize (n : Nat) (rest : Bytes) : n ≤ p.outCap →
      HeaderRefused p (beBytes 8 n ++ [0#8] ++ rest) .corruptHeader
  /-- The order, block_size - 1, is above MAX_ORDER. -/
  | largeOrder (n o : Nat) (rest : Bytes) : n ≤ p.outCap → o ≤ 254 → p.maxOrder < o →
      HeaderRefused p (beBytes 8 n ++ [BitVec.ofNat 8 (o + 1)] ++ rest) .capacityExceeded
  /-- context_count is cut short. -/
  | shortCount (n o : Nat) (rest : Bytes) : n ≤ p.outCap → o ≤ p.maxOrder → rest.length < 4 →
      HeaderRefused p (beBytes 8 n ++ [BitVec.ofNat 8 (o + 1)] ++ rest) .truncatedHeader
  /-- context_count is above MAX_CTX. -/
  | manyContexts (n o K : Nat) (rest : Bytes) : n ≤ p.outCap → o ≤ p.maxOrder → K < 2 ^ 32 →
      p.maxCtx < K → HeaderRefused p (headerStart o n K ++ rest) .capacityExceeded
  /-- One of the context records is refused. -/
  | record (n o K : Nat) (R : FreqModel) (rest : Bytes) (e : ErrKind) : K ≤ p.maxCtx →
      acceptable p o n R → R.length < K → RecordRefused o (R.map Prod.fst) rest e →
      HeaderRefused p (headerStart o n K ++ R.flatMap writeRecord ++ rest) e

/-- Node x ranks below node y, in the words of R199: the lower weight first; at equal weight a leaf or
the placeholder before an internal node, the placeholder before a leaf, the smaller final byte first
among leaves, and the node created earlier first among internal nodes. -/
def ranksBelow (x y : Tree) : Prop :=
  treeWeight x < treeWeight y ∨ (treeWeight x = treeWeight y ∧
    match x, y with
    | .placeholder, .leaf _ _ => True
    | .placeholder, .internal _ _ _ _ => True
    | .leaf _ _, .internal _ _ _ _ => True
    | .leaf b _, .leaf c _ => b.toNat < c.toNat
    | .internal i _ _ _, .internal j _ _ _ => i < j
    | _, _ => False)

/-- The merges of R200 that made a tree took its nodes in ascending rank: the internal node with creation
index k has the (2k + 1)-th and the (2k + 2)-th node taken as its left and right child. -/
def mergedInRankOrder (t : Tree) : Prop :=
  (∀ p k w l r, treeAt t p = some (.internal k w l r) →
    w = treeWeight l + treeWeight r ∧ ranksBelow l r) ∧
  ∀ p q i j v w a b c d, treeAt t p = some (.internal i v a b) →
    treeAt t q = some (.internal j w c d) →
    (i = j → p = q) ∧ (i < j → ranksBelow b c)

/-- The windows before each byte of an input, in order: `CW_i` of R171. -/
def windows (cw : Bytes) : Bytes → List Bytes
  | [] => []
  | b :: rest => cw :: windows (slide cw b) rest

/-- A weight table as TREE takes it: canonical, and its preconditions hold (R190, R191). -/
def goodTable (W : WeightTable) : Prop :=
  Ascending byteLt W ∧ 1 ≤ W.length ∧ 0 < tableTotal W ∧ ∀ e ∈ W, e.2 < 2 ^ 64

end Sys2Proof.Machine
end

