-- ==== Sys2Proof/Certificates/Slice0/Obligations.lean ====
section
/-! DEFINITION. The statements about HCC, in the order of OBLIGATIONS.json. -/

open Sys2Proof Sys2Proof.Machine

/-! ### Encodings (spec/30_encoding.md) -/

/-- Decode and encode agree on every well-formed command, at every operand value (R120, R126, R152). -/
def Obligations.DecodeOfEncode : Prop :=
  ∀ i : Instr, i.wellFormed = true → decode (encode i) = i

/-- Every word decodes to a well-formed command whose encoding is that word (R126). -/
def Obligations.EncodeOfDecode : Prop :=
  ∀ w : Word, (decode w).wellFormed = true ∧ encode (decode w) = w

/-- R124: the list of illegal words is exactly what the decoder of R126 calls ILLEGAL, and an accepted
illegal word completes with IllegalCommand, code 7. -/
def Obligations.IllegalWordsAsListed : Prop :=
  ∀ w : Word, (decode w = .illegal w ↔ illegalWord w = true) ∧
    (illegalWord w = true → ∀ s : State, s.busy = true → s.cmd = w → s.host.pending = [] →
      ∃ t, step s = .next t ∧ t.busy = false ∧
        t.regs.status.err = true ∧ t.regs.status.errcode = 7#4)

/-- Words written out from Table 7 decode as spec/95_test_vectors.md L2.1 says. -/
def Obligations.SpecWordsDecode : Prop :=
  decode 0b0000000000000000_00000000_0000_0000#32 = .nop ∧
  decode 0b0000000000000000_00000000_0000_0001#32 = .compress 0#8 ∧
  decode 0b0000000000000000_00000010_0000_0001#32 = .compress 2#8 ∧
  decode 0b0000000000000000_11111110_0000_0001#32 = .compress 254#8 ∧
  decode 0b0000000000000000_00000000_0000_0010#32 = .decompress ∧
  decode 0b0000000000000000_11111111_0000_0001#32 = .illegal 0x0000FF01#32 ∧
  decode 0b0000000000000000_00000001_0000_0010#32 = .illegal 0x00000102#32 ∧
  decode 0b0000000000000000_00000000_0001_0001#32 = .illegal 0x00000011#32 ∧
  decode 0b1000000000000000_00000000_0000_0010#32 = .illegal 0x80000002#32

/-! ### Steps -/

/-- A step runs the decoded command. While a command is in flight, a completion event, or the end of
the schedule (R405, R407; log entry 3), runs what CMD decodes to; a CTRL write of the NOP word runs
NOP, and its answer's data is left open. With the fetch word placed (log entry 2), the very next step runs that word. -/
def Obligations.StepRunsDecodedCommand : Prop :=
  (∀ (s : State) (rest : List Event), s.busy = true → s.host.pending = .complete :: rest →
    step s = exec (decode s.cmd) (s.advance rest)) ∧
  (∀ s : State, s.busy = true → s.host.pending = [] →
    step s = exec (decode s.cmd) (s.advance [])) ∧
  (∀ (s : State) (rest : List Event),
    s.host.pending = .access ⟨0x020#32, .four, .write 0#32⟩ :: rest →
    ∃ d, step s = exec .nop ((s.advance rest).respond (.okay d))) ∧
  (∀ (s : State) (w : Word), w ≠ 0#32 →
    step (s.withFetchWord 32 w.toNat) = exec (decode w) ((s.accept w).advance s.host.pending)) ∧
  (∀ s : State, ∃ d,
    step (s.withFetchWord 32 0) = exec .nop ((s.advance s.host.pending).respond (.okay d)))

/-- A completion event while no command is in flight, and the end of the schedule while idle, leave the
block as it is: the completion step is enabled only while BUSY = 1 (R312, R386). -/
def Obligations.IdleCoreDoesNothing : Prop :=
  ∀ s : State, s.busy = false →
    (s.host.pending = [] → step s = .next s) ∧
    (∀ rest, s.host.pending = .complete :: rest → step s = .next (s.advance rest))

/-- A host access event performs that access on the port, whatever it is (R80, R94). -/
def Obligations.AccessEventUsesThePort : Prop :=
  ∀ (s : State) (a : Access) (rest : List Event), s.host.pending = .access a :: rest →
    step s = .next ((s.advance rest).performAccess a)

/-- Every command completes and every step goes on: TREE's preconditions always hold (R191) and every
code that PACK asks for exists (R227), so that the model's two faults are never reached. -/
def Obligations.EveryStepGoesOn : Prop :=
  (∀ (i : Instr) (s : State), ∃ t, exec i s = .next t) ∧ (∀ s : State, ∃ t, step s = .next t)

/-! ### Reset (spec/70_reset_and_hazards.md) -/

/-- R391: what the host-visible registers read after reset, for every legal choice of parameters. -/
def Obligations.RegistersAfterReset : Prop :=
  ∀ p : Params, p.legal →
    let s := State.resetWith p
    readPort s 0x000#32 .four = some 0x48434331#32 ∧
    readPort s 0x004#32 .four = some 0x00010000#32 ∧
    (∃ v, readPort s 0x008#32 .four = some v ∧ v.toNat = p.inCap) ∧
    (∃ v, readPort s 0x00C#32 .four = some v ∧ v.toNat = p.outCap) ∧
    (∃ v, readPort s 0x010#32 .four = some v ∧ v.toNat = p.maxCtx) ∧
    (∃ v, readPort s 0x014#32 .four = some v ∧ v.toNat = p.maxOrder) ∧
    readPort s 0x020#32 .four = some 0#32 ∧
    readPort s 0x024#32 .four = some 0#32 ∧
    readPort s 0x028#32 .four = some 0#32 ∧
    readPort s 0x02C#32 .four = some 0#32 ∧
    readPort s 0x030#32 .four = some 0#32 ∧
    readPort s 0x034#32 .four = some 0#32 ∧
    readPort s 0x038#32 .four = some 0#32 ∧
    (∀ a : Word, a.toNat % 4 = 0 → (a.toNat = 0x018 ∨ a.toNat = 0x01C ∨
      (0x03C ≤ a.toNat ∧ a.toNat ≤ 0xFFC)) → readPort s a .four = some 0#32)

/-- R390: the reset event, from any state, busy or idle, abandons a command in flight without a
completion, puts every register and STATUS field to its reset value and SEQ.PHASE to IDLE, leaves no
defined byte in either buffer, and leaves irq low. Nothing is said of the hidden registers and stores,
which R390 leaves unspecified. -/
def Obligations.ResetEvent : Prop :=
  ∀ (s : State) (rest : List Event), s.host.pending = .reset :: rest →
    ∃ t, step s = .next t ∧ t.phase = .idle ∧ t.busy = false ∧
      t.regs.status = { done := false, err := false, rej := false, errcode := 0#4 } ∧
      t.regs.intEn = { doneIe := false, errIe := false, rejIe := false } ∧
      t.regs.inLen = 0#32 ∧ t.regs.outLen = 0#32 ∧ t.regs.hdrLen = 0#32 ∧
      t.regs.ctxCount = 0#32 ∧ irq t.regs = false ∧
      (∀ k, memGet t.inMem k = none ∧ memGet t.outMem k = none) ∧
      t.params = s.params ∧ t.host.pending = rest

/-- The invariant of Safety.lean holds right after reset, for every legal choice of parameters. -/
def Obligations.ResetMeetsInvariant : Prop := ∀ p : Params, p.legal → Inv (State.resetWith p)

/-- Every step keeps the invariant: the flag invariants of R55, error codes 0 .. 7 (R350), zero result
registers while busy (R51 to R53), no accepted NOP word (R310), canonical buffers below their
capacities (R56, R57, R93), and OUT_MEM[0 .. OUT_LEN) defined (R57). -/
def Obligations.StepKeepsInvariant : Prop :=
  ∀ s t : State, Inv s → step s = .next t → Inv t

/-! ### The port (spec/20_memory.md, spec/10_state.md) -/

/-- R370: an access gets ERROR in exactly the listed cases, an ERROR has no effect on any state, and
every other access gets OKAY. Nothing is said of the data that comes with an answer. -/
def Obligations.BusErrorsAsListed : Prop :=
  ∀ (s : State) (a : Access),
    (badAccess s a → ∃ d, s.performAccess a = s.respond (.error d)) ∧
    (¬ badAccess s a → ∃ v, (s.performAccess a).host.response = some (.okay v))

/-- R89: a read has no side effect; a read repeated at once returns the same value, except for a read
of an unspecified OUT_MEM byte. A read with ERROR returns 0 (R80). (The fields `host` and `draws` are the
model's own.) -/
def Obligations.ReadsHaveNoSideEffect : Prop :=
  ∀ (s : State) (a : Access) (rest : List Event), a.dir = .read →
    s.host.pending = .access a :: .access a :: rest →
    ∃ t u, step s = .next t ∧ step t = .next u ∧
      t = { s with host := t.host, draws := s.draws + 1 } ∧
      u = { s with host := u.host, draws := s.draws + 2 } ∧
      ((∀ off, regionOf a.addr = .outWindow off → (memGet s.outMem off).isSome = true) →
        u.host.response = t.host.response) ∧
      (badAccess s a → t.host.response = some (.error 0#32))

/-- R36 to R41: the constant registers read the same in every state; a read of CTRL returns 0 (R42). -/
def Obligations.ConstantRegisters : Prop :=
  ∀ s : State, s.params.legal →
    readPort s 0x000#32 .four = some 0x48434331#32 ∧
    readPort s 0x004#32 .four = some 0x00010000#32 ∧
    (∃ v, readPort s 0x008#32 .four = some v ∧ v.toNat = s.params.inCap) ∧
    (∃ v, readPort s 0x00C#32 .four = some v ∧ v.toNat = s.params.outCap) ∧
    (∃ v, readPort s 0x010#32 .four = some v ∧ v.toNat = s.params.maxCtx) ∧
    (∃ v, readPort s 0x014#32 .four = some v ∧ v.toNat = s.params.maxOrder) ∧
    readPort s 0x020#32 .four = some 0#32

/-- R43 with Table 5: where the STATUS fields stand in the word a read returns, and what a write of `v`
does, busy or idle. -/
def Obligations.StatusReadAndWrite : Prop :=
  ∀ (s : State) (v : Word),
    (∃ w, readPort s 0x024#32 .four = some w ∧
      w.getLsbD 0 = s.busy ∧ w.getLsbD 1 = s.regs.status.done ∧
      w.getLsbD 2 = s.regs.status.err ∧ w.getLsbD 3 = s.regs.status.rej ∧
      w.extractLsb' 4 4 = 0#4 ∧ w.extractLsb' 8 4 = s.regs.status.errcode ∧
      w.extractLsb' 12 20 = 0#20) ∧
    s.performAccess ⟨0x024#32, .four, .read⟩
      = s.respond (.okay (statusWord s.busy s.regs.status)) ∧
    (∃ (t : State) (d : Word), s.performAccess ⟨0x024#32, .four, .write v⟩ = t.respond (.okay d) ∧
      t = { s with regs := { s.regs with status := t.regs.status } } ∧
      t.regs.status.done = (if v.getLsbD 1 then false else s.regs.status.done) ∧
      t.regs.status.err = (if v.getLsbD 2 then false else s.regs.status.err) ∧
      t.regs.status.errcode = (if v.getLsbD 2 then 0#4 else s.regs.status.errcode) ∧
      t.regs.status.rej = (if v.getLsbD 3 then false else s.regs.status.rej)) ∧
    ∀ p : Params, readPort (State.resetWith p) 0x024#32 .four = some 0#32

/-- INT_EN in any state keeps bits 2:0 of a write and nothing else changes (R49); IN_LEN while idle
takes any value, and while busy the write gets ERROR and leaves it unchanged (R50, R88). -/
def Obligations.IntEnAndInLenWrites : Prop :=
  ∀ (s : State) (v : Word),
    (∃ (t : State) (d : Word), s.performAccess ⟨0x028#32, .four, .write v⟩ = t.respond (.okay d) ∧
      t = { s with regs := { s.regs with intEn := t.regs.intEn } } ∧
      readPort t 0x028#32 .four = some (v &&& 7#32)) ∧
    (s.busy = false → ∃ (t : State) (d : Word),
      s.performAccess ⟨0x02C#32, .four, .write v⟩ = t.respond (.okay d) ∧
      t = { s with regs := { s.regs with inLen := v } } ∧
      readPort t 0x02C#32 .four = some v) ∧
    (s.busy = true → ∃ d,
      s.performAccess ⟨0x02C#32, .four, .write v⟩ = s.respond (.error d))

/-- Writes to RO registers and reserved offsets are ignored with OKAY (R35, R54), and reserved offsets
read 0 (R54). -/
def Obligations.IgnoredWrites : Prop :=
  ∀ (s : State) (a v : Word), a.toNat < 0x1000 → a.toNat % 4 = 0 →
    (ignoresWrites a.toNat →
      ∃ d, s.performAccess ⟨a, .four, .write v⟩ = s.respond (.okay d)) ∧
    (a.toNat = 0x018 ∨ a.toNat = 0x01C ∨ 0x03C ≤ a.toNat →
      readPort s a .four = some 0#32)

/-- R84: the IN_MEM window. -/
def Obligations.InMemWindow : Prop :=
  ∀ (s : State) (off : Nat), off < 2 ^ 30 →
    let a := BitVec.ofNat 32 (0x40000000 + off)
    (∀ size dir, (size ≠ .one ∨ s.params.inCap ≤ off) →
      ∃ d, s.performAccess ⟨a, size, dir⟩ = s.respond (.error d)) ∧
    (off < s.params.inCap →
      s.performAccess ⟨a, .one, .read⟩ = s.respond (.okay ((s.inByte off).zeroExtend 32)) ∧
      (∀ v, s.busy = true →
        ∃ d, s.performAccess ⟨a, .one, .write v⟩ = s.respond (.error d)) ∧
      (∀ v, s.busy = false → ∃ (t : State) (d : Word),
        s.performAccess ⟨a, .one, .write v⟩ = t.respond (.okay d) ∧
        t = { s with inMem := t.inMem } ∧
        t.inByte off = v.extractLsb' 0 8 ∧
        ∀ k, k ≠ off → t.inByte k = s.inByte k))

/-- R85: the OUT_MEM window. -/
def Obligations.OutMemWindow : Prop :=
  ∀ (s : State) (off : Nat), off < 2 ^ 30 →
    let a := BitVec.ofNat 32 (0x80000000 + off)
    (∀ size v, ∃ d, s.performAccess ⟨a, size, .write v⟩ = s.respond (.error d)) ∧
    (∀ size, (size ≠ .one ∨ s.params.outCap ≤ off ∨ s.busy = true) →
      ∃ d, s.performAccess ⟨a, size, .read⟩ = s.respond (.error d)) ∧
    (off < s.params.outCap → s.busy = false →
      s.performAccess ⟨a, .one, .read⟩ = s.respond (.okay ((s.outByte off).zeroExtend 32)) ∧
      ∀ b, memGet s.outMem off = some b → s.outByte off = b)

/-- R97: however many host accesses are performed while a command is in flight, the command, its
IN_LEN and its IN_MEM bytes stay as they stood at acceptance, and so does OUT_MEM. -/
def Obligations.OperandsFrozenWhileBusy : Prop :=
  ∀ (s : State) (as : List Access), s.busy = true →
    let t := performAll as s
    t.busy = true ∧ t.cmd = s.cmd ∧ t.params = s.params ∧ t.regs.inLen = s.regs.inLen ∧
      t.inMem = s.inMem ∧ t.input = s.input ∧ t.outMem = s.outMem ∧
      t.regs.outLen = s.regs.outLen ∧ t.regs.hdrLen = s.regs.hdrLen ∧
      t.regs.ctxCount = s.regs.ctxCount

/-- The frame of host accesses: none touches the parameters, OUT_MEM, the working registers or the
stores; only a write below 0x1000 changes a register, CMD or SEQ.PHASE, and only one in the IN_MEM
window changes IN_MEM (R83 to R85, R89, R93). -/
def Obligations.AccessFrame : Prop :=
  ∀ (s : State) (a : Access),
    let t := s.performAccess a
    t.params = s.params ∧ t.outMem = s.outMem ∧ t.work = s.work ∧ t.stores = s.stores ∧
      t.draws = s.draws ∧ t.epoch = s.epoch ∧ t.host.pending = s.host.pending ∧
      (∀ k, t.outByte k = s.outByte k) ∧
      ((a.dir = .read ∨ 0x1000 ≤ a.addr.toNat) →
        t.regs = s.regs ∧ t.cmd = s.cmd ∧ t.phase = s.phase) ∧
      ((a.dir = .read ∨ a.addr.toNat < 0x40000000 ∨ 0x80000000 ≤ a.addr.toNat) →
        t.inMem = s.inMem ∧ ∀ k, t.inByte k = s.inByte k)

/-- R360 over the two words the host reads: irq is high exactly when one of DONE, ERR, REJ (STATUS bits
1, 2, 3) meets its enable (INT_EN bits 0, 1, 2). -/
def Obligations.IrqFromTheReadWords : Prop :=
  ∀ s : State, irq s.regs =
    ((statusWord s.busy s.regs.status &&& (intEnWord s.regs.intEn <<< 1)) != 0#32)

/-! ### Commands (spec/45_commands.md, spec/60_exceptions.md) -/

/-- R313: NOP, the word 0, does nothing; written to CTRL, idle or busy, it starts no command and sets no
REJ. A word with OP = 0 and any other bit set is illegal. -/
def Obligations.NopDoesNothing : Prop :=
  (∀ w : Word, decode w = .nop ↔ w = 0#32) ∧
  (∀ w : Word, w.extractLsb' 0 4 = 0#4 → w ≠ 0#32 → decode w = .illegal w) ∧
  ∀ (s : State) (rest : List Event), exec .nop s = .next s ∧
    (s.host.pending = .access ⟨0x020#32, .four, .write 0#32⟩ :: rest →
      ∃ d, step s = .next ((s.advance rest).respond (.okay d)))

/-- R311: accepting a non-zero word while idle. -/
def Obligations.NonzeroWordAccepted : Prop :=
  ∀ (s : State) (w : Word) (rest : List Event), s.busy = false → w ≠ 0#32 →
    s.host.pending = .access ⟨0x020#32, .four, .write w⟩ :: rest →
    ∃ t, step s = .next t ∧ (∃ d, t.host.response = some (.okay d)) ∧
      t.cmd = w ∧ t.busy = true ∧ t.phase = .check ∧
      t.regs.status = { done := false, err := false, rej := s.regs.status.rej, errcode := 0#4 } ∧
      t.regs.outLen = 0#32 ∧ t.regs.hdrLen = 0#32 ∧ t.regs.ctxCount = 0#32 ∧
      t.regs.intEn = s.regs.intEn ∧ t.regs.inLen = s.regs.inLen ∧
      t.inMem = s.inMem ∧ t.outMem = s.outMem ∧ t.params = s.params

/-- R310, the busy row of Table 13: a non-zero word written while busy gets OKAY, sets REJ and does
nothing else; the command in flight is not affected. -/
def Obligations.WordWhileBusyDropped : Prop :=
  ∀ (s : State) (w : Word) (rest : List Event), s.busy = true → w ≠ 0#32 →
    s.host.pending = .access ⟨0x020#32, .four, .write w⟩ :: rest →
    ∃ t, step s = .next t ∧ (∃ d, t.host.response = some (.okay d)) ∧
      t.regs = { s.regs with status := { s.regs.status with rej := true } } ∧
      t.phase = s.phase ∧ t.cmd = s.cmd ∧ t.work = s.work ∧ t.stores = s.stores ∧
      t.inMem = s.inMem ∧ t.outMem = s.outMem ∧ t.params = s.params

/-- R312 with R315, R322 and R330: the completion step, which goes through the phases over State, has
exactly the effect of the result that the pseudocode calculates from the values R314 names. -/
def Obligations.CompletionIsThePseudocode : Prop :=
  ∀ (i : Instr) (s : State) (r : Result),
    executeResult i s.params s.regs.inLen.toNat s.input = some r →
    exec i s = .next (s.complete r)

/-- R316: when its checks pass, COMPRESS completes with the container in OUT_MEM[0 .. OUT_LEN), OUT_LEN =
HDR_LEN + ceil(T / 8), and the rest of OUT_MEM as it was. -/
def Obligations.CompressWritesContainer : Prop :=
  ∀ (s : State) (o : Byte), s.params.legal → o.toNat ≤ s.params.maxOrder →
    s.regs.inLen.toNat ≤ s.params.inCap → 0 < s.regs.inLen.toNat →
    let F := freqModel o.toNat s.input
    F.length ≤ s.params.maxCtx → (container o.toNat s.input).length ≤ s.params.outCap →
    ∃ t, exec (.compress o) s = .next t ∧ t.busy = false ∧
      t.regs.status = { s.regs.status with done := true } ∧
      t.regs.outLen.toNat = (container o.toNat s.input).length ∧
      t.regs.hdrLen.toNat = headerLength o.toNat F ∧
      t.regs.outLen.toNat = t.regs.hdrLen.toNat + (codeBits F (codeStoreOf F) + 7) / 8 ∧
      t.regs.ctxCount.toNat = F.length ∧
      (∀ k, k < t.regs.outLen.toNat → some (t.outByte k) = (container o.toNat s.input)[k]?) ∧
      (∀ k, t.regs.outLen.toNat ≤ k → t.outByte k = s.outByte k)

/-- R318: the checks of COMPRESS in their order, each with its error code. -/
def Obligations.CompressChecksInOrder : Prop :=
  ∀ (s : State) (o : Byte),
    let n := s.regs.inLen.toNat
    let contexts := (freqModel o.toNat s.input).length
    let failsWith (code : BitVec 4) := ∃ t, exec (.compress o) s = .next t ∧ t.busy = false ∧
      t.regs.status = { s.regs.status with err := true, errcode := code }
    (s.params.maxOrder < o.toNat → failsWith 6#4) ∧
    (o.toNat ≤ s.params.maxOrder → s.params.inCap < n → failsWith 6#4) ∧
    (o.toNat ≤ s.params.maxOrder → n ≤ s.params.inCap → n = 0 → failsWith 1#4) ∧
    (o.toNat ≤ s.params.maxOrder → n ≤ s.params.inCap → n ≠ 0 →
      s.params.maxCtx < contexts → failsWith 6#4) ∧
    (o.toNat ≤ s.params.maxOrder → n ≤ s.params.inCap → n ≠ 0 →
      contexts ≤ s.params.maxCtx → s.params.outCap < (container o.toNat s.input).length →
      failsWith 6#4)

/-- When the header parses and the body decodes, DECOMPRESS completes with exactly original_length
bytes in OUT_MEM[0 .. OUT_LEN) and the rest of OUT_MEM as it was (R301, R312, R322, R327). -/
def Obligations.DecompressWritesOutput : Prop :=
  ∀ (s : State) (h : Header) (out : Bytes), s.params.legal →
    s.regs.inLen.toNat ≤ s.params.inCap → parseHeader s.params s.input = .ok h →
    unpack (codeStoreOf h.wt) h.order h.origLen (bytesBits (s.input.drop h.hlen)) = .ok out →
    ∃ t, exec .decompress s = .next t ∧ t.busy = false ∧
      t.regs.status = { s.regs.status with done := true } ∧
      t.regs.outLen.toNat = h.origLen ∧ out.length = h.origLen ∧
      t.regs.hdrLen.toNat = h.hlen ∧ t.regs.ctxCount.toNat = h.count ∧
      (∀ k, k < h.origLen → some (t.outByte k) = out[k]?) ∧
      (∀ k, h.origLen ≤ k → t.outByte k = s.outByte k)

/-- R324: the input size check comes first, then the header's error, then the body's. The header is
refused with an error exactly where `HeaderRefused` says so, which takes the fields in the order of R255
and lists, at the first field that fails, each case of TruncatedHeader, CorruptHeader and the header's
CapacityExceeded (R256 to R263). -/
def Obligations.DecompressChecksInOrder : Prop :=
  ∀ s : State,
    let failsWith (e : ErrKind) := ∃ t, exec .decompress s = .next t ∧ t.busy = false ∧
      t.regs.status = { s.regs.status with err := true, errcode := errCode e }
    (s.params.inCap < s.regs.inLen.toNat → failsWith .capacityExceeded) ∧
    (s.params.legal → ∀ e, parseHeader s.params s.input = .error e ↔
      HeaderRefused s.params s.input e) ∧
    (∀ e, s.regs.inLen.toNat ≤ s.params.inCap → parseHeader s.params s.input = .error e →
      failsWith e) ∧
    (∀ h e, s.regs.inLen.toNat ≤ s.params.inCap → parseHeader s.params s.input = .ok h →
      unpack (codeStoreOf h.wt) h.order h.origLen (bytesBits (s.input.drop h.hlen)) = .error e →
      failsWith e)

/-- R365: what an error completion changes, and that it changes nothing else, with the codes of Table 14
(R350). Every OUT_MEM byte is unspecified after it (R364). That CMD keeps its word is the model's choice
(log entry 10); nothing is said of the other hidden registers and the stores. -/
def Obligations.ErrorCompletionChanges : Prop :=
  ∀ (i : Instr) (s : State) (e : ErrKind), Inv s → s.busy = true →
    executeResult i s.params s.regs.inLen.toNat s.input = some (.err e) →
    ∃ t, exec i s = .next t ∧ t.busy = false ∧ t.phase = .idle ∧
      t.regs.status =
        { done := false, err := true, rej := s.regs.status.rej,
          errcode := match e with
            | .emptyInput => 1#4
            | .truncatedHeader => 2#4
            | .corruptHeader => 3#4
            | .unknownContext => 4#4
            | .bitstreamExhausted => 5#4
            | .capacityExceeded => 6#4
            | .illegalCommand => 7#4 } ∧
      t.regs.outLen = 0#32 ∧ t.regs.hdrLen = 0#32 ∧ t.regs.ctxCount = 0#32 ∧
      (∀ k, memGet t.outMem k = none) ∧
      t.inMem = s.inMem ∧ t.regs.inLen = s.regs.inLen ∧ t.regs.intEn = s.regs.intEn ∧
      t.cmd = s.cmd ∧ t.params = s.params

/-- An accepted illegal word completes with IllegalCommand whatever IN_LEN and IN_MEM hold: no other
check is made and no input byte is read (R330, R358). That CMD keeps its word is the model's choice (log
entry 10). -/
def Obligations.IllegalReadsNothing : Prop :=
  ∀ (w : Word) (s : State) (inLen : Word) (mem : Memory),
    let s' := { s with inMem := mem, regs := { s.regs with inLen := inLen } }
    ∃ t, exec (.illegal w) s = .next t ∧ t.busy = false ∧
      t.regs = { s.regs with status := { s.regs.status with err := true, errcode := 7#4 } } ∧
      (∀ k, memGet t.outMem k = none) ∧ t.inMem = s.inMem ∧ t.cmd = s.cmd ∧
      exec (.illegal w) s' =
        .next { t with inMem := mem, regs := { t.regs with inLen := inLen } }

/-- The frame of every command: no command changes IN_MEM, IN_LEN, INT_EN, REJ or the parameters (R56,
R312, R404), nor the model's schedule and counters. That none changes CMD is the model's choice (log
entry 10). -/
def Obligations.CommandFrame : Prop :=
  ∀ (i : Instr) (s t : State), exec i s = .next t →
    t.inMem = s.inMem ∧ (∀ k, t.inByte k = s.inByte k) ∧ t.regs.inLen = s.regs.inLen ∧
      t.regs.intEn = s.regs.intEn ∧ t.regs.status.rej = s.regs.status.rej ∧ t.cmd = s.cmd ∧
      t.params = s.params ∧ t.host = s.host ∧ t.draws = s.draws ∧ t.epoch = s.epoch ∧
      (i ≠ .nop → t.phase = .idle)

/-- R67: no event lets the host observe the working registers or the stores. Two states that agree on
everything else go to states that agree on everything else. -/
def Obligations.HiddenStateUnobserved : Prop :=
  ∀ s t : State, sameVisible s t → sameVisibleOutcome (step s) (step t)

/-- R321: COMPRESS on the same input bytes and order leaves the same container and the same result
registers, whatever else differs between the two states. -/
def Obligations.CompressDeterministic : Prop :=
  ∀ (o : Byte) (s t s' t' : State), s.params = t.params → s.regs.inLen = t.regs.inLen →
    (∀ k, k < s.regs.inLen.toNat → s.inByte k = t.inByte k) →
    s.regs.status.done = false → t.regs.status.done = false →
    exec (.compress o) s = .next s' → exec (.compress o) t = .next t' →
    s'.regs.status.done = t'.regs.status.done ∧
    (s'.regs.status.done = true →
      s'.regs.outLen = t'.regs.outLen ∧ s'.regs.hdrLen = t'.regs.hdrLen ∧
      s'.regs.ctxCount = t'.regs.ctxCount ∧
      ∀ k, k < s'.regs.outLen.toNat → s'.outByte k = t'.outByte k)

/-! ### FREQ (spec/40_frequency_model.md) -/

/-- R175: the counts of a table sum to the number of positions with its window, the sums total n, and
every table has 1 to 256 entries and a positive total. -/
def Obligations.CountsSumToPositions : Prop :=
  ∀ (o : Nat) (input : Bytes),
    let F := freqModel o input
    (∀ r ∈ F, tableTotal r.2 = (windows (zeros o) input).count r.1 ∧
      1 ≤ r.2.length ∧ r.2.length ≤ 256 ∧ 0 < tableTotal r.2) ∧
    (F.map (fun r => tableTotal r.2)).sum = input.length

/-- R174: one table per distinct context that precedes an input byte, no other tables, and in each an
entry exactly for the bytes that follow the context, with how often they do. Keys and entries are held
in ascending order. -/
def Obligations.TablesAreTheContexts : Prop :=
  ∀ (o : Nat) (input : Bytes),
    let F := freqModel o input
    Ascending bytesLt F ∧ (∀ k, k ∈ F.map Prod.fst ↔ k ∈ windows (zeros o) input) ∧
    ∀ r ∈ F, Ascending byteLt r.2 ∧ ∀ b,
      let c := ((windows (zeros o) input).zip input).count (r.1, b)
      lookupKey b r.2 = if c = 0 then none else some c

/-! ### TREE (spec/41_tree_builder.md) -/

/-- R194: after r rounds every weight is at most max((2^64 - 1) >> r, 1), so after 8 rounds the sum is at
most 2^64 - 256; after at most 8 rounds the total is at most WEIGHT_LIMIT, so that no further round would run;
if any round ran every weight is at least 1. -/
def Obligations.ScalingEnds : Prop :=
  ∀ W : WeightTable, W.length ≤ 256 → (∀ e ∈ W, e.2 < 2 ^ 64) →
    (∀ r, ∀ e ∈ scaleRound^[r] W, e.2 ≤ max ((2 ^ 64 - 1) >>> r) 1) ∧
    tableTotal (scaleRound^[8] W) ≤ 2 ^ 64 - 256 ∧
    tableTotal (scale W) ≤ 2 ^ 64 - 1 ∧ (∀ n, 8 ≤ n → scaleRounds n W = scale W) ∧
    (2 ^ 64 - 1 < tableTotal W → ∀ e ∈ scale W, 1 ≤ e.2) ∧
    (tableTotal W ≤ 2 ^ 64 - 1 → scale W = W)

/-- R196: on the COMPRESS path scaling never runs, because a table's counts sum to at most IN_LEN; it
changes only a table whose weights sum above 2^64 - 1. -/
def Obligations.CompressNeverScales : Prop :=
  (∀ (o : Nat) (input : Bytes), input.length ≤ 2 ^ 30 →
    ∀ r ∈ freqModel o input, tableTotal r.2 ≤ input.length ∧ scale r.2 = r.2) ∧
  ∀ W : WeightTable, scale W ≠ W → 2 ^ 64 - 1 < tableTotal W

/-- R204: the tree is full, with m leaves and m - 1 internal nodes, and with one leaf, one placeholder
and one internal node when m = 1; its leaves are the entries of the scaled table; its root is never a
leaf. The merges took the nodes in the rank order of R199, as R200 says: their creation indices are 0, 1,
2, ..., each node's left child ranks below its right child, and both children of an earlier merge rank
below both children of a later one. -/
def Obligations.TreeIsFull : Prop :=
  ∀ W : WeightTable, goodTable W → ∃ t, buildTree W = some t ∧
    (treeLeaves t).Perm (scale W) ∧
    (2 ≤ W.length → placeholders t = 0 ∧ treeSize t = W.length + (W.length - 1)) ∧
    (W.length = 1 → placeholders t = 1 ∧ treeSize t = 3) ∧
    treeSize t ≤ 511 ∧ (∃ k w l r, t = .internal k w l r) ∧
    mergedInRankOrder t ∧
    ∀ p k w l r, treeAt t p = some (.internal k w l r) → k < max 1 (W.length - 1)

/-- R203: every node's weight is the sum of the leaf weights below it and fits in 64 bits, and the
root's is the scaled total. -/
def Obligations.NodeWeightsFit : Prop :=
  ∀ (W : WeightTable) (t : Tree), goodTable W → buildTree W = some t →
    treeWeight t = tableTotal (scale W) ∧
    ∀ p n, treeAt t p = some n →
      treeWeight n = tableTotal (treeLeaves n) ∧ treeWeight n ≤ tableTotal (scale W) ∧
      tableTotal (scale W) ≤ 2 ^ 64 - 1

/-- R205 and R224: in the single-entry case the placeholder is the left child and the real leaf the
right child, and the code is "1". -/
def Obligations.SingleEntryTree : Prop :=
  ∀ (b : Byte) (w : Nat), 1 ≤ w → w < 2 ^ 64 →
    buildTree [(b, w)] = some (.internal 0 w .placeholder (.leaf b w)) ∧
    codesOf [(b, w)] = [(b, [true])]

/-- R206: in a two-entry table each code is 1 bit long; with equal weights the smaller byte is the left
child and its code is "0". -/
def Obligations.TwoEntryCodes : Prop :=
  ∀ (a b : Byte) (v w : Nat), a.toNat < b.toNat → v < 2 ^ 64 → w < 2 ^ 64 → 0 < v + w →
    (∃ x y, codesOf [(a, v), (b, w)] = [(a, [x]), (b, [y])] ∧ x ≠ y) ∧
    (v = w → codesOf [(a, v), (b, w)] = [(a, [false]), (b, [true])] ∧
      ∃ n x, buildTree [(a, v), (b, w)] = some (.internal 0 n (.leaf a x) (.leaf b x)))

/-- R207: a strictly heavier symbol (by scaled weight) never has the longer code. -/
def Obligations.HeavierIsNotDeeper : Prop :=
  ∀ (W : WeightTable) (a b : Byte) (v w : Nat), goodTable W →
    lookupKey a (scale W) = some v → lookupKey b (scale W) = some w → w < v →
    codeLength (codesOf W) a ≤ codeLength (codesOf W) b

/-! ### CODEGEN (spec/42_code_table.md) -/

/-- R223: the code table is not empty and has exactly one code for each byte of the weight table, 1 to
255 bits long, and in fact at most max(1, m - 1). -/
def Obligations.CodesCoverTheTable : Prop :=
  ∀ W : WeightTable, goodTable W →
    codesOf W ≠ [] ∧ (codesOf W).map Prod.fst = W.map Prod.fst ∧
    ∀ e ∈ codesOf W, 1 ≤ e.2.length ∧ e.2.length ≤ 255 ∧ e.2.length ≤ max 1 (W.length - 1)

/-- R225: no code of a table is a prefix of a different symbol's code. -/
def Obligations.CodesPrefixFree : Prop :=
  ∀ W : WeightTable, goodTable W → ∀ e ∈ codesOf W, ∀ f ∈ codesOf W, e.1 ≠ f.1 → ¬ e.2 <+: f.2

/-- R226: with two or more entries the code set is complete; with one it is {"1"}, a bit string that starts
with 0 neither has a code as a prefix nor is a prefix of one, and its path leads to the placeholder. -/
def Obligations.CodesComplete : Prop :=
  ∀ W : WeightTable, goodTable W →
    (2 ≤ W.length → ∀ a : Bits,
      (∃ e ∈ codesOf W, e.2 <+: a) ∨ ∃ e ∈ codesOf W, a <+: e.2 ∧ a ≠ e.2) ∧
    (W.length = 1 → (codesOf W).map Prod.snd = [[true]] ∧
      (∀ a : Bits,
        ¬ (∃ e ∈ codesOf W, e.2 <+: false :: a) ∧ ¬ ∃ e ∈ codesOf W, false :: a <+: e.2) ∧
      ∃ t, buildTree W = some t ∧ treeAt t [false] = some .placeholder)

/-- R295: walking the tree answers as the code table does: a leaf is a hit, an internal node a miss
that is a proper prefix of a code, the placeholder a dead accumulator. -/
def Obligations.TreeWalkIsTheLookup : Prop :=
  ∀ (W : WeightTable) (t : Tree) (a : Bits), goodTable W → buildTree W = some t →
    (∀ b w, treeAt t a = some (.leaf b w) → decodeLookup (codesOf W) a = some b) ∧
    (∀ k w l r, treeAt t a = some (.internal k w l r) →
      decodeLookup (codesOf W) a = none ∧ properPrefix (codesOf W) a = true) ∧
    (treeAt t a = some .placeholder →
      decodeLookup (codesOf W) a = none ∧ properPrefix (codesOf W) a = false) ∧
    (treeAt t a = none →
      decodeLookup (codesOf W) a = none ∧ properPrefix (codesOf W) a = false)

/-! ### HDRW and HDRP (spec/30_encoding.md, spec/43_container.md) -/

/-- R136: the header length as a function of the order and the symbol counts. -/
def Obligations.HeaderLengthFormula : Prop :=
  ∀ (o n : Nat) (F : FreqModel), (∀ r ∈ F, r.1.length = o) →
    (writeHeader o n F).length
      = 13 + (F.map (fun r => o + 4 + r.2.length * (o + 1 + 8))).sum

/-- A header laid out as R130 to R135 say, of good records in ANY key order and with entries in any order
(R266), followed by any body, parses to its fields, its length and, in canonical order, its tables. And
no other header parses: where HDRP succeeds (R255), the input begins with such a header, and HLEN is its
length. -/
def Obligations.ParserInvertsWriter : Prop :=
  (∀ (p : Params) (o n : Nat) (R : FreqModel) (body : Bytes), p.legal → acceptable p o n R →
    ∃ WT, parseHeader p (writeHeader o n R ++ body) =
        .ok { origLen := n, order := o, count := R.length, wt := WT,
              hlen := (writeHeader o n R).length } ∧
      Ascending bytesLt WT ∧ WT.length = R.length ∧
      ∀ r ∈ R, ∃ T, (r.1, T) ∈ WT ∧ Ascending byteLt T ∧ T.Perm r.2) ∧
  ∀ (p : Params) (input : Bytes) (h : Header), p.legal → parseHeader p input = .ok h →
    ∃ R, acceptable p h.order h.origLen R ∧ h.count = R.length ∧
      input.take h.hlen = writeHeader h.order h.origLen R ∧
      h.hlen = (writeHeader h.order h.origLen R).length

/-- R267 for the writer's own headers: the frequency model itself comes back. -/
def Obligations.ParserReturnsTheModel : Prop :=
  ∀ (p : Params) (o : Nat) (input body : Bytes), p.legal → o ≤ p.maxOrder →
    input.length ≤ p.outCap → input.length ≤ 2 ^ 30 →
    (freqModel o input).length ≤ p.maxCtx →
    parseHeader p (writeHeader o input.length (freqModel o input) ++ body) =
      .ok { origLen := input.length, order := o, count := (freqModel o input).length,
            wt := freqModel o input,
            hlen := (writeHeader o input.length (freqModel o input)).length }

/-! ### PACK and UNPACK (spec/44_bitstream.md) -/

/-- R284, read in the bit order of R145: the packed bytes hold the stream and then zero bits, at most 7
of them and none where the length is a multiple of 8, and no extra byte. -/
def Obligations.PackedBytesHoldTheStream : Prop :=
  ∀ s : Bits, ∃ p, bytesBits (packBytes s) = s ++ List.replicate p false ∧ p ≤ 7 ∧
    (s.length % 8 = 0 → p = 0) ∧ (packBytes s).length = (s.length + 7) / 8

/-- R285: PACK finds every code, and the number of code bits is the sum of counts times code lengths,
at least n and at most 255 n (R227, R282, R285). -/
def Obligations.CodeBitCount : Prop :=
  ∀ (o : Nat) (input : Bytes),
    let F := freqModel o input
    ∃ s, packBits (codeStoreOf F) (zeros o) input = some s ∧
      s.length = codeBits F (codeStoreOf F) ∧
      input.length ≤ s.length ∧ s.length ≤ 255 * input.length

/-- R304: from the tables of the input, UNPACK over the stream PACK wrote, with anything after it,
outputs the input exactly, reads exactly T bits, and meets no dead accumulator and no missing table. -/
def Obligations.UnpackInvertsPack : Prop :=
  ∀ (o : Nat) (input : Bytes) (s extra : Bits),
    let C := codeStoreOf (freqModel o input)
    packBits C (zeros o) input = some s →
    unpackRun C o input.length (s ++ extra) =
      ({ cw := windowAfter (zeros o) input, acc := [], dead := false, bitpos := s.length,
         out := input }, none)

/-- R302 and R303: Table 12's machine, started as R290 says, halts within 2 * NB + L + 2 transitions and
ends as the loop of R292 does: the same output, window, bit position, DEAD flag and error. -/
def Obligations.UnpackerMachineIsTheLoop : Prop :=
  ∀ (u : UInput) (o : Nat),
    let m := uSteps u (2 * bodyBits u + u.origLen + 2) (uStart o)
    let run := unpackRun u.codes o u.origLen (bytesBits (u.input.drop u.hlen))
    m.ustate = (match run.2 with | none => .done | some e => .err e) ∧
      m.out = run.1.out ∧ m.cw = run.1.cw ∧ m.bitpos = run.1.bitpos ∧ m.dead = run.1.dead

/-- R299: ACC never holds more than 255 bits, however far the unpacker reads into any body. -/
def Obligations.AccumulatorBound : Prop :=
  ∀ (WT : FreqModel) (o L : Nat) (body : Bits), (∀ r ∈ WT, goodTable r.2) →
    (unpackRun (codeStoreOf WT) o L body).1.acc.length ≤ 255

/-- R300: what follows the last bit read, padding or extra bytes, changes nothing: any other bits there
give the same output. A run that ends without an error has output exactly L bytes. -/
def Obligations.TrailingBitsIgnored : Prop :=
  ∀ (C : CodeStore) (o L : Nat) (body extra : Bits) (u : Unpacked),
    unpackRun C o L body = (u, none) →
    u.bitpos ≤ body.length ∧ u.out.length = L ∧
      unpackRun C o L (body.take u.bitpos ++ extra) = (u, none)

/-! ### Whole-machine properties -/

/-- R335: after a successful COMPRESS, DECOMPRESS on the container it left (in any state of the same
block that holds it as its input) completes without error and returns the input, provided the container
fits IN_MEM and the input fits OUT_MEM. -/
def Obligations.RoundTrip : Prop :=
  ∀ (o : Byte) (s t u : State), s.params.legal → s.regs.status.done = false →
    exec (.compress o) s = .next t → t.regs.status.done = true →
    u.params = s.params → u.regs.inLen = t.regs.outLen →
    (∀ k, k < t.regs.outLen.toNat → u.inByte k = t.outByte k) →
    t.regs.outLen.toNat ≤ s.params.inCap → s.regs.inLen.toNat ≤ s.params.outCap →
    ∃ v, exec .decompress u = .next v ∧
      v.regs.status = { u.regs.status with done := true } ∧
      v.regs.outLen = s.regs.inLen ∧ v.regs.hdrLen = t.regs.hdrLen ∧
      v.regs.ctxCount = t.regs.ctxCount ∧
      ∀ k, k < s.regs.inLen.toNat → v.outByte k = s.inByte k

/-- R336: DECOMPRESS on the container without its last byte fails with BitstreamExhausted, under the
conditions of R335 that let the header parse on the same block. -/
def Obligations.TruncatedContainerFails : Prop :=
  ∀ (o : Byte) (s t u : State), s.params.legal → s.regs.status.done = false →
    exec (.compress o) s = .next t → t.regs.status.done = true →
    u.params = s.params → u.regs.inLen.toNat + 1 = t.regs.outLen.toNat →
    (∀ k, k < u.regs.inLen.toNat → u.inByte k = t.outByte k) →
    u.regs.inLen.toNat ≤ s.params.inCap → s.regs.inLen.toNat ≤ s.params.outCap →
    ∃ v, exec .decompress u = .next v ∧
      v.regs.status = { u.regs.status with err := true, errcode := 5#4 }
end

