-- ==== Sys2Proof/Laws/State.lean ====
section
/-! SUPPORT. One lemma per field of State per named update, true by rfl, so that no proof unfolds a record
update. -/

namespace Sys2Proof.Machine

section Advance
variable (rest : List Event) (s : State)

@[simp] theorem advance_params : (s.advance rest).params = s.params := rfl
@[simp] theorem advance_regs : (s.advance rest).regs = s.regs := rfl
@[simp] theorem advance_phase : (s.advance rest).phase = s.phase := rfl
@[simp] theorem advance_cmd : (s.advance rest).cmd = s.cmd := rfl
@[simp] theorem advance_work : (s.advance rest).work = s.work := rfl
@[simp] theorem advance_stores : (s.advance rest).stores = s.stores := rfl
@[simp] theorem advance_inMem : (s.advance rest).inMem = s.inMem := rfl
@[simp] theorem advance_outMem : (s.advance rest).outMem = s.outMem := rfl
@[simp] theorem advance_host : (s.advance rest).host = { s.host with pending := rest } := rfl
@[simp] theorem advance_draws : (s.advance rest).draws = s.draws + 1 := rfl
@[simp] theorem advance_epoch : (s.advance rest).epoch = s.epoch := rfl

end Advance

section Respond
variable (r : Response) (s : State)

@[simp] theorem respond_params : (s.respond r).params = s.params := rfl
@[simp] theorem respond_regs : (s.respond r).regs = s.regs := rfl
@[simp] theorem respond_phase : (s.respond r).phase = s.phase := rfl
@[simp] theorem respond_cmd : (s.respond r).cmd = s.cmd := rfl
@[simp] theorem respond_work : (s.respond r).work = s.work := rfl
@[simp] theorem respond_stores : (s.respond r).stores = s.stores := rfl
@[simp] theorem respond_inMem : (s.respond r).inMem = s.inMem := rfl
@[simp] theorem respond_outMem : (s.respond r).outMem = s.outMem := rfl
@[simp] theorem respond_host : (s.respond r).host = { s.host with response := some r } := rfl
@[simp] theorem respond_draws : (s.respond r).draws = s.draws := rfl
@[simp] theorem respond_epoch : (s.respond r).epoch = s.epoch := rfl

end Respond

section WriteOut
variable (off : Nat) (bs : Bytes) (s : State)

@[simp] theorem writeOut_params : (s.writeOut off bs).params = s.params := rfl
@[simp] theorem writeOut_regs : (s.writeOut off bs).regs = s.regs := rfl
@[simp] theorem writeOut_phase : (s.writeOut off bs).phase = s.phase := rfl
@[simp] theorem writeOut_cmd : (s.writeOut off bs).cmd = s.cmd := rfl
@[simp] theorem writeOut_work : (s.writeOut off bs).work = s.work := rfl
@[simp] theorem writeOut_stores : (s.writeOut off bs).stores = s.stores := rfl
@[simp] theorem writeOut_inMem : (s.writeOut off bs).inMem = s.inMem := rfl
@[simp] theorem writeOut_outMem : (s.writeOut off bs).outMem = memPutAll off bs s.outMem := rfl
@[simp] theorem writeOut_host : (s.writeOut off bs).host = s.host := rfl
@[simp] theorem writeOut_draws : (s.writeOut off bs).draws = s.draws := rfl
@[simp] theorem writeOut_epoch : (s.writeOut off bs).epoch = s.epoch := rfl

end WriteOut

section WriteIn
variable (off : Nat) (b : Byte) (s : State)

@[simp] theorem writeIn_params : (s.writeIn off b).params = s.params := rfl
@[simp] theorem writeIn_regs : (s.writeIn off b).regs = s.regs := rfl
@[simp] theorem writeIn_phase : (s.writeIn off b).phase = s.phase := rfl
@[simp] theorem writeIn_cmd : (s.writeIn off b).cmd = s.cmd := rfl
@[simp] theorem writeIn_work : (s.writeIn off b).work = s.work := rfl
@[simp] theorem writeIn_stores : (s.writeIn off b).stores = s.stores := rfl
@[simp] theorem writeIn_inMem : (s.writeIn off b).inMem = memPut off b s.inMem := rfl
@[simp] theorem writeIn_outMem : (s.writeIn off b).outMem = s.outMem := rfl
@[simp] theorem writeIn_host : (s.writeIn off b).host = s.host := rfl
@[simp] theorem writeIn_draws : (s.writeIn off b).draws = s.draws := rfl
@[simp] theorem writeIn_epoch : (s.writeIn off b).epoch = s.epoch := rfl

end WriteIn

section WriteStatus
variable (v : Word) (s : State)

@[simp] theorem writeStatus_params : (s.writeStatus v).params = s.params := rfl
@[simp] theorem writeStatus_regs : (s.writeStatus v).regs =
    { s.regs with status := statusWrite v s.regs.status } := rfl
@[simp] theorem writeStatus_phase : (s.writeStatus v).phase = s.phase := rfl
@[simp] theorem writeStatus_cmd : (s.writeStatus v).cmd = s.cmd := rfl
@[simp] theorem writeStatus_work : (s.writeStatus v).work = s.work := rfl
@[simp] theorem writeStatus_stores : (s.writeStatus v).stores = s.stores := rfl
@[simp] theorem writeStatus_inMem : (s.writeStatus v).inMem = s.inMem := rfl
@[simp] theorem writeStatus_outMem : (s.writeStatus v).outMem = s.outMem := rfl
@[simp] theorem writeStatus_host : (s.writeStatus v).host = s.host := rfl
@[simp] theorem writeStatus_draws : (s.writeStatus v).draws = s.draws := rfl
@[simp] theorem writeStatus_epoch : (s.writeStatus v).epoch = s.epoch := rfl

end WriteStatus

section WriteIntEn
variable (v : Word) (s : State)

@[simp] theorem writeIntEn_params : (s.writeIntEn v).params = s.params := rfl
@[simp] theorem writeIntEn_regs : (s.writeIntEn v).regs =
    { s.regs with intEn := intEnWrite v } := rfl
@[simp] theorem writeIntEn_phase : (s.writeIntEn v).phase = s.phase := rfl
@[simp] theorem writeIntEn_cmd : (s.writeIntEn v).cmd = s.cmd := rfl
@[simp] theorem writeIntEn_work : (s.writeIntEn v).work = s.work := rfl
@[simp] theorem writeIntEn_stores : (s.writeIntEn v).stores = s.stores := rfl
@[simp] theorem writeIntEn_inMem : (s.writeIntEn v).inMem = s.inMem := rfl
@[simp] theorem writeIntEn_outMem : (s.writeIntEn v).outMem = s.outMem := rfl
@[simp] theorem writeIntEn_host : (s.writeIntEn v).host = s.host := rfl
@[simp] theorem writeIntEn_draws : (s.writeIntEn v).draws = s.draws := rfl
@[simp] theorem writeIntEn_epoch : (s.writeIntEn v).epoch = s.epoch := rfl

end WriteIntEn

section WriteInLen
variable (v : Word) (s : State)

@[simp] theorem writeInLen_params : (s.writeInLen v).params = s.params := rfl
@[simp] theorem writeInLen_regs : (s.writeInLen v).regs = { s.regs with inLen := v } := rfl
@[simp] theorem writeInLen_phase : (s.writeInLen v).phase = s.phase := rfl
@[simp] theorem writeInLen_cmd : (s.writeInLen v).cmd = s.cmd := rfl
@[simp] theorem writeInLen_work : (s.writeInLen v).work = s.work := rfl
@[simp] theorem writeInLen_stores : (s.writeInLen v).stores = s.stores := rfl
@[simp] theorem writeInLen_inMem : (s.writeInLen v).inMem = s.inMem := rfl
@[simp] theorem writeInLen_outMem : (s.writeInLen v).outMem = s.outMem := rfl
@[simp] theorem writeInLen_host : (s.writeInLen v).host = s.host := rfl
@[simp] theorem writeInLen_draws : (s.writeInLen v).draws = s.draws := rfl
@[simp] theorem writeInLen_epoch : (s.writeInLen v).epoch = s.epoch := rfl

end WriteInLen

section Accept
variable (w : Word) (s : State)

@[simp] theorem accept_params : (s.accept w).params = s.params := rfl
@[simp] theorem accept_regs : (s.accept w).regs =
    { s.regs with status := statusAccept s.regs.status, outLen := 0#32, hdrLen := 0#32, ctxCount := 0#32 } := rfl
@[simp] theorem accept_phase : (s.accept w).phase = .check := rfl
@[simp] theorem accept_cmd : (s.accept w).cmd = w := rfl
@[simp] theorem accept_work : (s.accept w).work = s.work := rfl
@[simp] theorem accept_stores : (s.accept w).stores = s.stores := rfl
@[simp] theorem accept_inMem : (s.accept w).inMem = s.inMem := rfl
@[simp] theorem accept_outMem : (s.accept w).outMem = s.outMem := rfl
@[simp] theorem accept_host : (s.accept w).host = s.host := rfl
@[simp] theorem accept_draws : (s.accept w).draws = s.draws := rfl
@[simp] theorem accept_epoch : (s.accept w).epoch = s.epoch := rfl

end Accept

section Reject
variable (s : State)

@[simp] theorem reject_params : s.reject.params = s.params := rfl
@[simp] theorem reject_regs : s.reject.regs =
    { s.regs with status := statusReject s.regs.status } := rfl
@[simp] theorem reject_phase : s.reject.phase = s.phase := rfl
@[simp] theorem reject_cmd : s.reject.cmd = s.cmd := rfl
@[simp] theorem reject_work : s.reject.work = s.work := rfl
@[simp] theorem reject_stores : s.reject.stores = s.stores := rfl
@[simp] theorem reject_inMem : s.reject.inMem = s.inMem := rfl
@[simp] theorem reject_outMem : s.reject.outMem = s.outMem := rfl
@[simp] theorem reject_host : s.reject.host = s.host := rfl
@[simp] theorem reject_draws : s.reject.draws = s.draws := rfl
@[simp] theorem reject_epoch : s.reject.epoch = s.epoch := rfl

end Reject

section Release
variable (s : State)

@[simp] theorem release_params : s.release.params = s.params := rfl
@[simp] theorem release_regs : s.release.regs = s.regs := rfl
@[simp] theorem release_phase : s.release.phase = .idle := rfl
@[simp] theorem release_cmd : s.release.cmd = s.cmd := rfl
@[simp] theorem release_work : s.release.work = Config.freeWork s.draws := rfl
@[simp] theorem release_stores : s.release.stores = Config.freeStores s.draws := rfl
@[simp] theorem release_inMem : s.release.inMem = s.inMem := rfl
@[simp] theorem release_outMem : s.release.outMem = s.outMem := rfl
@[simp] theorem release_host : s.release.host = s.host := rfl
@[simp] theorem release_draws : s.release.draws = s.draws := rfl
@[simp] theorem release_epoch : s.release.epoch = s.epoch := rfl

end Release

section CompleteOk
variable (n hl k : Nat) (s : State)

@[simp] theorem completeOk_params : (s.completeOk n hl k).params = s.params := rfl
@[simp] theorem completeOk_regs : (s.completeOk n hl k).regs =
    { s.regs with status := statusDone s.regs.status, outLen := BitVec.ofNat 32 n, hdrLen := BitVec.ofNat 32 hl, ctxCount := BitVec.ofNat 32 k } := rfl
@[simp] theorem completeOk_phase : (s.completeOk n hl k).phase = .idle := rfl
@[simp] theorem completeOk_cmd : (s.completeOk n hl k).cmd = s.cmd := rfl
@[simp] theorem completeOk_work : (s.completeOk n hl k).work = Config.freeWork s.draws := rfl
@[simp] theorem completeOk_stores : (s.completeOk n hl k).stores = Config.freeStores s.draws := rfl
@[simp] theorem completeOk_inMem : (s.completeOk n hl k).inMem = s.inMem := rfl
@[simp] theorem completeOk_outMem : (s.completeOk n hl k).outMem = s.outMem := rfl
@[simp] theorem completeOk_host : (s.completeOk n hl k).host = s.host := rfl
@[simp] theorem completeOk_draws : (s.completeOk n hl k).draws = s.draws := rfl
@[simp] theorem completeOk_epoch : (s.completeOk n hl k).epoch = s.epoch := rfl

end CompleteOk

section CompleteErr
variable (e : ErrKind) (s : State)

@[simp] theorem completeErr_params : (s.completeErr e).params = s.params := rfl
@[simp] theorem completeErr_regs : (s.completeErr e).regs =
    { s.regs with status := statusError e s.regs.status } := rfl
@[simp] theorem completeErr_phase : (s.completeErr e).phase = .idle := rfl
@[simp] theorem completeErr_cmd : (s.completeErr e).cmd = s.cmd := rfl
@[simp] theorem completeErr_work : (s.completeErr e).work = Config.freeWork s.draws := rfl
@[simp] theorem completeErr_stores : (s.completeErr e).stores = Config.freeStores s.draws := rfl
@[simp] theorem completeErr_inMem : (s.completeErr e).inMem = s.inMem := rfl
@[simp] theorem completeErr_outMem : (s.completeErr e).outMem = [] := rfl
@[simp] theorem completeErr_host : (s.completeErr e).host = s.host := rfl
@[simp] theorem completeErr_draws : (s.completeErr e).draws = s.draws := rfl
@[simp] theorem completeErr_epoch : (s.completeErr e).epoch = s.epoch := rfl

end CompleteErr

section ResetEvent
variable (s : State)

@[simp] theorem resetEvent_params : s.resetEvent.params = s.params := rfl
@[simp] theorem resetEvent_regs : s.resetEvent.regs = resetRegs := rfl
@[simp] theorem resetEvent_phase : s.resetEvent.phase = .idle := rfl
@[simp] theorem resetEvent_cmd : s.resetEvent.cmd = 0#32 := rfl
@[simp] theorem resetEvent_work : s.resetEvent.work = zeroWork := rfl
@[simp] theorem resetEvent_stores : s.resetEvent.stores = emptyStores := rfl
@[simp] theorem resetEvent_inMem : s.resetEvent.inMem = [] := rfl
@[simp] theorem resetEvent_outMem : s.resetEvent.outMem = [] := rfl
@[simp] theorem resetEvent_host : s.resetEvent.host =
    { pending := s.host.pending, response := none } := rfl
@[simp] theorem resetEvent_draws : s.resetEvent.draws = s.draws := rfl
@[simp] theorem resetEvent_epoch : s.resetEvent.epoch = s.draws := rfl

end ResetEvent

end Sys2Proof.Machine
end

