-- ==== Sys2Proof/Laws/Maps.lean ====
section
/-! SUPPORT. Finite maps and byte memory: read after write, frames, and the canonical form. -/

namespace Sys2Proof.Machine

section Maps
variable {α β : Type} [DecidableEq α] {lt : α → α → Bool}

theorem lookup_alter_self (k : α) (f : Option β → β) (m : List (α × β)) (h : Ascending lt m)
    (irr : ∀ a, lt a a = false) (tr : ∀ a b c, lt a b = true → lt b c = true → lt a c = true) :
    lookupKey k (alterKey lt k f m) = some (f (lookupKey k m)) := by
  induction m with
  | nil => simp [alterKey, lookupKey]
  | cons e m ih =>
    obtain ⟨k', v⟩ := e
    rw [Ascending, List.pairwise_cons] at h
    by_cases hk : k = k'
    · simp [alterKey, lookupKey, hk]
    · by_cases hl : lt k k' = true
      · have hm : lookupKey k m = none := by
          have hall : ∀ y ∈ m, lt k y.1 = true := fun y hy => tr _ _ _ hl (h.1 y hy)
          clear ih h
          induction m with
          | nil => rfl
          | cons y m ih2 =>
            have hne : k ≠ y.1 := by
              intro he
              have := hall y (by simp)
              rw [← he, irr] at this
              exact Bool.noConfusion this
            simp only [lookupKey, hne, ↓reduceIte]
            exact ih2 (fun z hz => hall z (by simp [hz]))
        simp [alterKey, lookupKey, hk, hl, hm]
      · simp [alterKey, lookupKey, hk, hl, ih h.2]

theorem lookup_insert_self (k : α) (v : β) (m : List (α × β)) :
    lookupKey k (insertKey lt k v m) = some v := by
  unfold insertKey
  induction m with
  | nil => simp [alterKey, lookupKey]
  | cons e m ih =>
    obtain ⟨k', v'⟩ := e
    by_cases hk : k = k'
    · simp [alterKey, lookupKey, hk]
    · by_cases hl : lt k k' = true <;> simp [alterKey, lookupKey, hk, hl, ih]

theorem lookup_alter_other (k j : α) (f : Option β → β) (m : List (α × β)) (hj : j ≠ k) :
    lookupKey j (alterKey lt k f m) = lookupKey j m := by
  induction m with
  | nil => simp [alterKey, lookupKey, hj]
  | cons e m ih =>
    obtain ⟨k', v'⟩ := e
    by_cases hk : k = k'
    · simp [alterKey, lookupKey, ← hk, hj]
    · by_cases hl : lt k k' = true <;> simp [alterKey, lookupKey, hk, hl, hj, ih]

theorem mem_alter_key (k : α) (f : Option β → β) (m : List (α × β)) (x : α × β)
    (hx : x ∈ alterKey lt k f m) : x.1 = k ∨ x ∈ m := by
  induction m with
  | nil => simp [alterKey] at hx; simp [hx]
  | cons e m ih =>
    obtain ⟨k', v'⟩ := e
    by_cases hk : k = k'
    · simp only [alterKey, hk, ↓reduceIte, List.mem_cons] at hx
      rcases hx with rfl | hx
      · simp [hk]
      · simp [hx]
    · by_cases hl : lt k k' = true
      · simp only [alterKey, hk, ↓reduceIte, hl, List.mem_cons] at hx
        rcases hx with rfl | rfl | hx <;> simp_all
      · simp only [alterKey, hk, ↓reduceIte, hl, Bool.false_eq_true, List.mem_cons] at hx
        rcases hx with rfl | hx
        · simp
        · rcases ih hx with h | h <;> simp [h]

/-- Every update keeps the canonical form, for a strict total order. -/
theorem alter_ascending (k : α) (f : Option β → β) (m : List (α × β)) (h : Ascending lt m)
    (tr : ∀ a b c, lt a b = true → lt b c = true → lt a c = true)
    (tot : ∀ a b, a ≠ b → lt a b = false → lt b a = true) : Ascending lt (alterKey lt k f m) := by
  induction m with
  | nil => simp [alterKey, Ascending]
  | cons e m ih =>
    obtain ⟨k', v'⟩ := e
    rw [Ascending, List.pairwise_cons] at h
    by_cases hk : k = k'
    · simpa [alterKey, hk, Ascending] using h
    · by_cases hl : lt k k' = true
      · simp only [alterKey, hk, ↓reduceIte, hl, Ascending, List.pairwise_cons]
        refine ⟨?_, h⟩
        intro y hy
        rcases List.mem_cons.mp hy with rfl | hy
        · exact hl
        · exact tr _ _ _ hl (h.1 y hy)
      · simp only [alterKey, hk, ↓reduceIte, hl, Bool.false_eq_true, Ascending, List.pairwise_cons]
        refine ⟨?_, ih h.2⟩
        intro y hy
        rcases mem_alter_key k f m y hy with hy | hy
        · rw [hy]; exact tot _ _ hk (by simpa using hl)
        · exact h.1 y hy

end Maps

/-! ### The three orders are strict and total -/

theorem natLt_irrefl (a : Nat) : natLt a a = false := by simp [natLt]
theorem natLt_trans (a b c : Nat) (h : natLt a b = true) (g : natLt b c = true) :
    natLt a c = true := by simp [natLt] at *; omega
theorem natLt_total (a b : Nat) (h : a ≠ b) (g : natLt a b = false) : natLt b a = true := by
  simp [natLt] at *; omega

theorem byteLt_irrefl (a : Byte) : byteLt a a = false := by simp [byteLt]
theorem byteLt_trans (a b c : Byte) (h : byteLt a b = true) (g : byteLt b c = true) :
    byteLt a c = true := by simp only [byteLt, decide_eq_true_eq] at *; omega
theorem byteLt_total (a b : Byte) (h : a ≠ b) (g : byteLt a b = false) : byteLt b a = true := by
  simp only [byteLt, decide_eq_true_eq, decide_eq_false_iff_not] at *
  have : a.toNat ≠ b.toNat := fun he => h (BitVec.eq_of_toNat_eq he)
  omega

theorem bytesLt_irrefl (s : Bytes) : bytesLt s s = false := by
  induction s with
  | nil => rfl
  | cons a s ih => simp [bytesLt, byteLt_irrefl, ih]

theorem bytesLt_trans : ∀ s t u : Bytes, bytesLt s t = true → bytesLt t u = true →
    bytesLt s u = true
  | _, [], _, h, _ => by simp [bytesLt] at h
  | _, _ :: _, [], _, g => by simp [bytesLt] at g
  | [], _ :: _, _ :: _, _, _ => rfl
  | a :: s, b :: t, c :: u, h, g => by
    simp only [bytesLt, Bool.or_eq_true, Bool.and_eq_true, beq_iff_eq] at *
    rcases h with h | ⟨rfl, h⟩ <;> rcases g with g | ⟨rfl, g⟩
    · exact .inl (byteLt_trans _ _ _ h g)
    · exact .inl h
    · exact .inl g
    · exact .inr ⟨rfl, bytesLt_trans s t u h g⟩

theorem bytesLt_total : ∀ s t : Bytes, s ≠ t → bytesLt s t = false → bytesLt t s = true
  | [], [], h, _ => absurd rfl h
  | [], _ :: _, _, g => by simp [bytesLt] at g
  | _ :: _, [], _, _ => rfl
  | a :: s, b :: t, h, g => by
    simp only [bytesLt, Bool.or_eq_false_iff, Bool.and_eq_false_iff, beq_eq_false_iff_ne] at g
    simp only [bytesLt, Bool.or_eq_true, Bool.and_eq_true, beq_iff_eq]
    by_cases hab : a = b
    · subst hab
      refine .inr ⟨rfl, bytesLt_total s t (fun he => h (by rw [he])) ?_⟩
      exact g.2.resolve_left (fun hn => hn rfl)
    · exact .inl (byteLt_total a b hab g.1)

/-! ### Byte memory -/

theorem memGet_put_self (a : Nat) (b : Byte) (m : Memory) : memGet (memPut a b m) a = some b :=
  lookup_insert_self a b m

theorem memGet_put_other (a c : Nat) (b : Byte) (m : Memory) (h : c ≠ a) :
    memGet (memPut a b m) c = memGet m c :=
  lookup_alter_other a c _ m h

theorem memPut_wf (a : Nat) (b : Byte) (m : Memory) (h : m.wf) : (memPut a b m).wf := by
  have h' : Ascending natLt m := h.imp (by simp [natLt])
  have := alter_ascending (lt := natLt) a (fun _ => b) m h' natLt_trans natLt_total
  exact this.imp (by simp [natLt])

theorem memPutAll_wf (a : Nat) (bs : Bytes) (m : Memory) (h : m.wf) : (memPutAll a bs m).wf := by
  induction bs generalizing a m with
  | nil => exact h
  | cons b bs ih => exact ih _ _ (memPut_wf a b m h)

/-- Reading a byte after a run of bytes was written from `a` upward: the written byte inside the run,
the old one outside it. -/
theorem memGet_putAll (a c : Nat) (bs : Bytes) (m : Memory) :
    memGet (memPutAll a bs m) c =
      if a ≤ c ∧ c < a + bs.length then bs[c - a]? else memGet m c := by
  induction bs generalizing a m with
  | nil => simp [memPutAll]
  | cons b bs ih =>
    rw [memPutAll, ih]
    by_cases h1 : a + 1 ≤ c ∧ c < a + 1 + bs.length
    · have h2 : a ≤ c ∧ c < a + (b :: bs).length := by simp only [List.length_cons]; omega
      rw [if_pos h1, if_pos h2, show c - a = (c - (a + 1)) + 1 by omega, List.getElem?_cons_succ]
    · rw [if_neg h1]
      by_cases h3 : c = a
      · subst h3; simp [memGet_put_self]
      · rw [memGet_put_other _ _ _ _ h3, if_neg]
        simp only [List.length_cons]; omega

theorem mem_putAll_bound (a n : Nat) (bs : Bytes) (m : Memory) (h : ∀ c ∈ m, c.1 < n)
    (hb : a + bs.length ≤ n) : ∀ c ∈ memPutAll a bs m, c.1 < n := by
  induction bs generalizing a m with
  | nil => exact h
  | cons b bs ih =>
    simp only [List.length_cons] at hb
    refine ih (a + 1) _ ?_ (by omega)
    intro c hc
    rcases mem_alter_key a _ m c hc with h' | h'
    · omega
    · exact h c h'

/-- Writing a run and then the run after it is writing both. -/
theorem memPutAll_append (a : Nat) (bs cs : Bytes) (m : Memory) :
    memPutAll a (bs ++ cs) m = memPutAll (a + bs.length) cs (memPutAll a bs m) := by
  induction bs generalizing a m with
  | nil => rfl
  | cons b bs ih =>
    simp only [List.cons_append, memPutAll, List.length_cons, ih]
    congr 1
    omega

end Sys2Proof.Machine
end

