-- ==== Sys2Proof/Laws/Operands.lean ====
section
/-! SUPPORT. Small laws of the operands, the big-endian integers, the bit order and the window. -/

namespace Sys2Proof.Machine

@[simp] theorem readIn_length (s : State) (a n : Nat) : (readIn s a n).length = n := by
  induction n generalizing a with
  | zero => rfl
  | succ n ih => simp [readIn, ih]

@[simp] theorem input_length (s : State) : s.input.length = s.regs.inLen.toNat := by
  simp [State.input]

theorem readIn_getElem? (s : State) (a n k : Nat) (h : k < n) :
    (readIn s a n)[k]? = some (s.inByte (a + k)) := by
  induction n generalizing a k with
  | zero => omega
  | succ n ih =>
    cases k with
    | zero => simp [readIn]
    | succ k =>
      simp only [readIn, List.getElem?_cons_succ]
      rw [ih (a + 1) k (by omega)]
      congr 2
      omega

/-- The input depends on the bytes below IN_LEN only (R92). -/
theorem readIn_congr (s t : State) (a n : Nat)
    (h : ∀ k, a ≤ k → k < a + n → s.inByte k = t.inByte k) : readIn s a n = readIn t a n := by
  induction n generalizing a with
  | zero => rfl
  | succ n ih =>
    simp only [readIn]
    rw [h a (by omega) (by omega), ih (a + 1) (fun k h1 h2 => h k (by omega) (by omega))]

theorem input_congr (s t : State) (hl : s.regs.inLen = t.regs.inLen)
    (h : ∀ k, k < s.regs.inLen.toNat → s.inByte k = t.inByte k) : s.input = t.input := by
  unfold State.input
  rw [← hl]
  exact readIn_congr s t 0 _ (fun k _ h2 => h k (by omega))

@[simp] theorem beBytes_length (k v : Nat) : (beBytes k v).length = k := by
  induction k with
  | zero => rfl
  | succ k ih => simp [beBytes, ih]

theorem beValue_append (bs cs : Bytes) :
    beValue (bs ++ cs) = beValue bs * 256 ^ cs.length + beValue cs := by
  induction cs using List.reverseRecOn with
  | nil => simp [beValue]
  | append_singleton cs c ih =>
    simp only [beValue, List.foldl_append, List.foldl_cons, List.foldl_nil, List.length_append,
      List.length_singleton] at ih ⊢
    rw [ih, pow_succ]
    ring

theorem beBytes_value_mod (k v : Nat) : beValue (beBytes k v) = v % 256 ^ k := by
  induction k with
  | zero => simp [beBytes, beValue, Nat.mod_one]
  | succ k ih =>
    have h : beBytes (k + 1) v = [BitVec.ofNat 8 (v / 256 ^ k)] ++ beBytes k v := rfl
    have hb : beValue [BitVec.ofNat 8 (v / 256 ^ k)] = (v / 256 ^ k) % 256 := by
      simp [beValue, BitVec.toNat_ofNat]
    rw [h, beValue_append, hb, ih, beBytes_length, pow_succ, Nat.mod_mul]
    ring

/-- `be(enc(v)) = v` for a value that fits (R16). -/
theorem beValue_beBytes (k v : Nat) (h : v < 256 ^ k) : beValue (beBytes k v) = v := by
  rw [beBytes_value_mod, Nat.mod_eq_of_lt h]

theorem beValue_lt (bs : Bytes) : beValue bs < 256 ^ bs.length := by
  induction bs using List.reverseRecOn with
  | nil => simp [beValue]
  | append_singleton bs b ih =>
    rw [beValue_append]
    have hb : beValue [b] = b.toNat := by simp [beValue]
    have := b.isLt
    simp only [List.length_append, List.length_singleton, pow_succ, hb, pow_zero, one_mul]
    omega

@[simp] theorem byteBits_length (b : Byte) : (byteBits b).length = 8 := by simp [byteBits]

@[simp] theorem bytesBits_length (bs : Bytes) : (bytesBits bs).length = 8 * bs.length := by
  induction bs with
  | nil => rfl
  | cons b bs ih =>
    simp only [bytesBits, List.flatMap_cons, List.length_append, byteBits_length,
      List.length_cons] at ih ⊢
    omega

@[simp] theorem bytesBits_cons (b : Byte) (bs : Bytes) :
    bytesBits (b :: bs) = byteBits b ++ bytesBits bs := rfl

theorem bytesBits_append (bs cs : Bytes) :
    bytesBits (bs ++ cs) = bytesBits bs ++ bytesBits cs := by simp [bytesBits]

/-- Eight bits packed into a byte read back in the same order (R145, R282). -/
theorem byteBits_bitsByte (a b c d e f g h : Bool) :
    byteBits (bitsByte [a, b, c, d, e, f, g, h]) = [a, b, c, d, e, f, g, h] := by
  revert a b c d e f g h
  decide +kernel

@[simp] theorem zeros_length (n : Nat) : (zeros n).length = n := by simp [zeros]

/-- The window keeps its length (R63, R172). -/
@[simp] theorem slide_length (cw : Bytes) (b : Byte) : (slide cw b).length = cw.length := by
  cases cw <;> simp [slide]

@[simp] theorem windowAfter_length (cw input : Bytes) :
    (windowAfter cw input).length = cw.length := by
  induction input generalizing cw with
  | nil => rfl
  | cons b rest ih => simpa [windowAfter] using ih (slide cw b)

/-! ### What a header field read gives -/

theorem takeField_ok (k : Nat) (bs rest : Bytes) (h : bs.length = k) :
    takeField k (bs ++ rest) = .ok (bs, rest) := by
  subst h; simp [takeField]

theorem takeField_short (k : Nat) (rest : Bytes) (h : rest.length < k) :
    takeField k rest = .error .truncatedHeader := by simp [takeField, h]

theorem takeField_inv (k : Nat) (rest : Bytes) (r : Bytes × Bytes)
    (h : takeField k rest = .ok r) : rest = r.1 ++ r.2 ∧ r.1.length = k := by
  unfold takeField at h
  split at h
  · cases h
  · cases h
    simp only [List.take_append_drop, List.length_take, true_and]
    omega

end Sys2Proof.Machine
end

