-- ==== Sys2Proof/Laws/Container.lean ====
section
/-! SUPPORT. What the header parser's loops do: on entries and records laid out as the writer lays them
out, on what they refuse, and that there is no third case. -/

namespace Sys2Proof.Machine

/-! ### Field values and key sets -/

/-- `enc(be(s)) = s` (R16). -/
theorem beBytes_beValue (bs : Bytes) : beBytes bs.length (beValue bs) = bs := by
  have key : ∀ (bs : Bytes) (v : Nat),
      beBytes bs.length (v * 256 ^ bs.length + beValue bs) = bs := by
    intro bs
    induction bs with
    | nil => intro v; rfl
    | cons b bs ih =>
      intro v
      have hb : beValue (b :: bs) = b.toNat * 256 ^ bs.length + beValue bs := by
        have := beValue_append [b] bs
        simpa [beValue] using this
      have hlt := beValue_lt bs
      have hpos : 0 < 256 ^ bs.length := by positivity
      have hv : v * 256 ^ (bs.length + 1) + (b.toNat * 256 ^ bs.length + beValue bs)
          = (v * 256 + b.toNat) * 256 ^ bs.length + beValue bs := by ring
      rw [List.length_cons, hb, hv]
      unfold beBytes
      congr 1
      · rw [Nat.add_comm, Nat.add_mul_div_right _ _ hpos, Nat.div_eq_of_lt hlt]
        apply BitVec.eq_of_toNat_eq
        have := b.isLt
        simp only [BitVec.toNat_ofNat]
        omega
      · exact ih _
  simpa using key bs 0

theorem lookupKey_none {α β : Type} [DecidableEq α] (k : α) (m : List (α × β)) :
    lookupKey k m = none ↔ k ∉ m.map Prod.fst := by
  induction m with
  | nil => simp [lookupKey]
  | cons e m ih =>
    obtain ⟨k', v⟩ := e
    by_cases h : k = k' <;> simp [lookupKey, h, ih]

theorem lookupKey_isSome {α β : Type} [DecidableEq α] (k : α) (m : List (α × β)) :
    (lookupKey k m).isSome = decide (k ∈ m.map Prod.fst) := by
  have := lookupKey_none k m
  cases h : lookupKey k m <;> simp_all

theorem mem_insertKey_fst {α β : Type} [DecidableEq α] (lt : α → α → Bool) (k j : α) (v : β)
    (m : List (α × β)) :
    j ∈ (insertKey lt k v m).map Prod.fst ↔ j = k ∨ j ∈ m.map Prod.fst := by
  have hn := lookupKey_none j (insertKey lt k v m)
  have hm := lookupKey_none j m
  by_cases h : j = k
  · subst h
    rw [lookup_insert_self] at hn
    simp at hn ⊢
    exact hn
  · have ho : lookupKey j (insertKey lt k v m) = lookupKey j m := lookup_alter_other k j _ m h
    rw [ho] at hn
    simp only [h, false_or]
    tauto

/-- A key that was not there adds its weight to the total. -/
theorem tableTotal_insertKey (b : Byte) (w : Nat) (T : WeightTable) (h : lookupKey b T = none) :
    tableTotal (insertKey byteLt b w T) = tableTotal T + w := by
  unfold insertKey
  induction T with
  | nil => simp [alterKey, tableTotal]
  | cons e T ih =>
    obtain ⟨c, x⟩ := e
    have hbc : b ≠ c := by rintro rfl; simp [lookupKey] at h
    simp only [lookupKey, hbc, ↓reduceIte] at h
    by_cases hl : byteLt b c = true
    · simp [alterKey, hbc, hl, tableTotal]; omega
    · have := ih h
      simp only [tableTotal] at this
      simp [alterKey, hbc, hl, tableTotal, this]; omega

/-! ### Symbol entries -/

/-- The table after a list of entries was read into it. -/
def insertAll {α β : Type} [DecidableEq α] (lt : α → α → Bool) (E : List (α × β))
    (T : List (α × β)) : List (α × β) := E.foldl (fun T e => insertKey lt e.1 e.2 T) T

@[simp] theorem insertAll_nil {α β : Type} [DecidableEq α] (lt : α → α → Bool)
    (T : List (α × β)) : insertAll lt [] T = T := rfl

@[simp] theorem insertAll_cons {α β : Type} [DecidableEq α] (lt : α → α → Bool) (e : α × β)
    (E T : List (α × β)) : insertAll lt (e :: E) T = insertAll lt E (insertKey lt e.1 e.2 T) := rfl

theorem mem_insertAll_fst {α β : Type} [DecidableEq α] (lt : α → α → Bool) (j : α)
    (E T : List (α × β)) :
    j ∈ (insertAll lt E T).map Prod.fst ↔ j ∈ E.map Prod.fst ∨ j ∈ T.map Prod.fst := by
  induction E generalizing T with
  | nil => simp
  | cons e E ih =>
    rw [insertAll_cons, ih, mem_insertKey_fst]
    simp only [List.map_cons, List.mem_cons]
    tauto

/-- Reading distinct entries keeps their total. -/
theorem tableTotal_insertAll (E T : WeightTable) (hd : (E.map Prod.fst).Nodup)
    (hT : ∀ e ∈ E, e.1 ∉ T.map Prod.fst) :
    tableTotal (insertAll byteLt E T) = tableTotal T + tableTotal E := by
  induction E generalizing T with
  | nil => simp [tableTotal]
  | cons e E ih =>
    simp only [List.map_cons, List.nodup_cons] at hd
    rw [insertAll_cons, ih _ hd.2, tableTotal_insertKey _ _ _ ((lookupKey_none _ _).mpr (hT e (by simp)))]
    · simp [tableTotal]; omega
    · intro x hx
      rw [mem_insertKey_fst]
      rintro (h | h)
      · exact hd.1 (h ▸ List.mem_map_of_mem hx)
      · exact hT x (by simp [hx]) h

theorem getD_append_single (key : Bytes) (b : Byte) : (key ++ [b]).getD key.length 0#8 = b := by
  simp [List.getD]

/-- One entry that passes its checks (R255, R262). -/
theorem parseEntries_entry (key : Bytes) (m : Nat) (T : WeightTable) (e : Byte × Nat)
    (rest : Bytes) (hw : e.2 < 2 ^ 64) (hT : e.1 ∉ T.map Prod.fst) :
    parseEntries key.length key (m + 1) T (writeEntry key e ++ rest)
      = parseEntries key.length key m (insertKey byteLt e.1 e.2 T) rest := by
  have h1 : takeField (key.length + 1) (writeEntry key e ++ rest)
      = .ok (key ++ [e.1], beBytes 8 e.2 ++ rest) := by
    rw [show writeEntry key e ++ rest = (key ++ [e.1]) ++ (beBytes 8 e.2 ++ rest) by
      simp [writeEntry]]
    exact takeField_ok _ _ _ (by simp)
  have h2 : takeField 8 (beBytes 8 e.2 ++ rest) = .ok (beBytes 8 e.2, rest) :=
    takeField_ok _ _ _ (by simp)
  have h3 : beValue (beBytes 8 e.2) = e.2 := beValue_beBytes 8 e.2 (by norm_num; omega)
  simp only [parseEntries, h1, h2, bind, Except.bind, List.take_left, ne_eq, not_true_eq_false,
    ↓reduceIte, getD_append_single, lookupKey_isSome, hT, decide_false, Bool.false_eq_true, h3]

/-- A run of entries that pass their checks. -/
theorem parseEntries_append (key : Bytes) (m : Nat) (E T : WeightTable) (rest : Bytes)
    (hd : (E.map Prod.fst).Nodup) (hw : ∀ e ∈ E, e.2 < 2 ^ 64)
    (hT : ∀ e ∈ E, e.1 ∉ T.map Prod.fst) :
    parseEntries key.length key (E.length + m) T (E.flatMap (writeEntry key) ++ rest)
      = parseEntries key.length key m (insertAll byteLt E T) rest := by
  induction E generalizing T with
  | nil => simp
  | cons e E ih =>
    simp only [List.map_cons, List.nodup_cons] at hd
    rw [List.flatMap_cons, List.append_assoc, List.length_cons, Nat.add_right_comm,
      parseEntries_entry _ _ _ _ _ (hw e (by simp)) (hT e (by simp)), insertAll_cons]
    refine ih _ hd.2 (fun x hx => hw x (by simp [hx])) ?_
    intro x hx
    rw [mem_insertKey_fst]
    rintro (h | h)
    · exact hd.1 (h ▸ List.mem_map_of_mem hx)
    · exact hT x (by simp [hx]) h

theorem EntryRefused.congr {key : Bytes} {S S' : List Byte} {rest : Bytes} {e : ErrKind}
    (h : EntryRefused key S rest e) (hs : ∀ b, b ∈ S ↔ b ∈ S') : EntryRefused key S' rest e := by
  cases h with
  | shortSymbol _ h => exact .shortSymbol _ h
  | otherContext sym rest h1 h2 => exact .otherContext sym rest h1 h2
  | repeatedByte b rest h => exact .repeatedByte b rest ((hs b).mp h)
  | shortWeight b rest h1 h2 => exact .shortWeight b rest (fun h => h1 ((hs b).mpr h)) h2

/-- An entry that is refused stops the loop with its error. -/
theorem parseEntries_refused (key : Bytes) (m : Nat) (T : WeightTable) (rest : Bytes)
    (e : ErrKind) (h : EntryRefused key (T.map Prod.fst) rest e) :
    parseEntries key.length key (m + 1) T rest = .error e := by
  have hsym : ∀ (b : Byte) (tail : Bytes), takeField (key.length + 1) (key ++ [b] ++ tail)
      = .ok (key ++ [b], tail) := fun b tail => takeField_ok _ _ _ (by simp)
  cases h with
  | shortSymbol _ h => simp [parseEntries, takeField_short _ _ h, bind, Except.bind]
  | otherContext sym tail h1 h2 =>
    have hne : sym.take key.length ≠ key := fun he =>
      h2 ⟨sym.drop key.length, by simpa [he] using List.take_append_drop key.length sym⟩
    simp only [parseEntries, takeField_ok _ _ _ h1, bind, Except.bind, ne_eq, hne,
      not_false_eq_true, ↓reduceIte]
  | repeatedByte b tail h =>
    simp only [parseEntries, hsym, bind, Except.bind, List.take_left, ne_eq, not_true_eq_false,
      ↓reduceIte, getD_append_single, lookupKey_isSome, h, decide_true]
  | shortWeight b tail h1 h2 =>
    simp only [parseEntries, hsym, bind, Except.bind, List.take_left, ne_eq, not_true_eq_false,
      ↓reduceIte, getD_append_single, lookupKey_isSome, h1, decide_false, Bool.false_eq_true,
      takeField_short _ _ h2]

/-- What is left to read either begins with an entry that passes its checks or is refused. -/
theorem entry_or_refused (key : Bytes) (S : List Byte) (rest : Bytes) :
    (∃ (e : Byte × Nat) (tail : Bytes), rest = writeEntry key e ++ tail ∧ e.2 < 2 ^ 64 ∧ e.1 ∉ S) ∨
      ∃ e, EntryRefused key S rest e := by
  by_cases h1 : rest.length < key.length + 1
  · exact .inr ⟨_, .shortSymbol rest h1⟩
  obtain ⟨sym, more, rfl, hl⟩ : ∃ sym more, rest = sym ++ more ∧ sym.length = key.length + 1 :=
    ⟨rest.take (key.length + 1), rest.drop (key.length + 1), by simp, by simp; omega⟩
  by_cases h2 : key <+: sym
  swap
  · exact .inr ⟨_, .otherContext sym more hl h2⟩
  obtain ⟨last, rfl⟩ := h2
  obtain ⟨b, rfl⟩ : ∃ b, last = [b] := by
    rw [List.length_append] at hl
    exact List.length_eq_one_iff.mp (by omega)
  by_cases h3 : b ∈ S
  · exact .inr ⟨_, .repeatedByte b more h3⟩
  by_cases h4 : more.length < 8
  · exact .inr ⟨_, .shortWeight b more h3 h4⟩
  refine .inl ⟨(b, beValue (more.take 8)), more.drop 8, ?_, ?_, h3⟩
  · have h8 : (more.take 8).length = 8 := by simp; omega
    have := beBytes_beValue (more.take 8)
    rw [h8] at this
    simp [writeEntry, this]
  · have := beValue_lt (more.take 8)
    have h8 : (more.take 8).length = 8 := by simp; omega
    rw [h8] at this
    norm_num at this ⊢
    exact this

/-- The loop over a record's entries: all `m` of them pass, or the first that fails is refused. -/
theorem parseEntries_cases (key : Bytes) (m : Nat) (T : WeightTable) (rest : Bytes) :
    ∃ (E : WeightTable) (tail : Bytes), rest = E.flatMap (writeEntry key) ++ tail ∧
      (E.map Prod.fst).Nodup ∧ (∀ e ∈ E, e.2 < 2 ^ 64) ∧ (∀ e ∈ E, e.1 ∉ T.map Prod.fst) ∧
      ((E.length = m ∧
          parseEntries key.length key m T rest = .ok (insertAll byteLt E T, tail)) ∨
        ∃ e, E.length < m ∧ EntryRefused key ((insertAll byteLt E T).map Prod.fst) tail e ∧
          parseEntries key.length key m T rest = .error e) := by
  induction m generalizing T rest with
  | zero => exact ⟨[], rest, by simp, by simp, by simp, by simp, .inl ⟨rfl, rfl⟩⟩
  | succ m ih =>
    rcases entry_or_refused key (T.map Prod.fst) rest with ⟨e, tail, rfl, hw, hT⟩ | ⟨e, he⟩
    · obtain ⟨E, tail', rfl, hd, hw', hT', hcase⟩ := ih (insertKey byteLt e.1 e.2 T) tail
      have hne : ∀ x ∈ E, x.1 ≠ e.1 ∧ x.1 ∉ T.map Prod.fst := by
        intro x hx
        have := hT' x hx
        rw [mem_insertKey_fst] at this
        tauto
      refine ⟨e :: E, tail', by simp, ?_, ?_, ?_, ?_⟩
      · simp only [List.map_cons, List.nodup_cons, hd, and_true]
        intro hm
        obtain ⟨x, hx, hxe⟩ := List.mem_map.mp hm
        exact (hne x hx).1 hxe
      · intro x hx
        rcases List.mem_cons.mp hx with rfl | hx
        · exact hw
        · exact hw' x hx
      · intro x hx
        rcases List.mem_cons.mp hx with rfl | hx
        · exact hT
        · exact (hne x hx).2
      · rw [parseEntries_entry _ _ _ _ _ hw hT]
        rcases hcase with ⟨hl, hp⟩ | ⟨x, hl, hx, hp⟩
        · exact .inl ⟨by simp [hl], hp⟩
        · exact .inr ⟨x, by simp [hl], hx, hp⟩
    · exact ⟨[], rest, by simp, by simp, by simp, by simp,
        .inr ⟨e, by simp, he, parseEntries_refused key m T rest e he⟩⟩

/-! ### Context records -/

/-- A record as HDRP stores it: its entries in canonical order (R255). -/
def storedRecord (r : Bytes × WeightTable) : Bytes × WeightTable := (r.1, insertAll byteLt r.2 [])

@[simp] theorem map_storedRecord_fst (R : FreqModel) :
    (R.map storedRecord).map Prod.fst = R.map Prod.fst := by
  rw [List.map_map]; rfl

/-- The fields of a record up to its entries, where the key is new and the count is good. -/
theorem parseRecords_entries (o k m : Nat) (WT : FreqModel) (key rest : Bytes)
    (hl : key.length = o) (hk : key ∉ WT.map Prod.fst) (h1 : 1 ≤ m) (h256 : m ≤ 256) :
    parseRecords o (k + 1) WT (key ++ beBytes 4 m ++ rest) =
      (parseEntries o key m [] rest).bind (fun r =>
        if tableTotal r.1 = 0 then .error .corruptHeader
        else parseRecords o k (insertKey bytesLt key r.1 WT) r.2) := by
  have hkey : takeField o (key ++ beBytes 4 m ++ rest) = .ok (key, beBytes 4 m ++ rest) := by
    rw [List.append_assoc]; exact takeField_ok _ _ _ hl
  have hcount : takeField 4 (beBytes 4 m ++ rest) = .ok (beBytes 4 m, rest) :=
    takeField_ok _ _ _ (by simp)
  have hval : beValue (beBytes 4 m) = m := beValue_beBytes _ _ (by omega)
  have hgood : ¬ (m = 0 ∨ Config.maxSyms < m) := by simp only [Config.maxSyms]; omega
  simp only [parseRecords, hkey, hcount, hval, bind, Except.bind, lookupKey_isSome, hk,
    decide_false, Bool.false_eq_true, ↓reduceIte, hgood]

/-- A good record (R260 to R263). -/
theorem parseRecords_record (o k : Nat) (WT : FreqModel) (r : Bytes × WeightTable) (rest : Bytes)
    (hr : goodRecord o r) (hk : r.1 ∉ WT.map Prod.fst) :
    parseRecords o (k + 1) WT (writeRecord r ++ rest)
      = parseRecords o k (insertKey bytesLt r.1 (storedRecord r).2 WT) rest := by
  obtain ⟨key, E⟩ := r
  obtain ⟨rfl, h1, h256, hd, hw, hpos⟩ := hr
  have hentries := parseEntries_append key 0 E [] rest hd hw (by simp)
  rw [Nat.add_zero] at hentries
  have hne : tableTotal (insertAll byteLt E []) ≠ 0 := by
    rw [tableTotal_insertAll E [] hd (by simp)]
    exact Nat.ne_of_gt (Nat.lt_of_lt_of_le hpos (Nat.le_add_left _ _))
  rw [show writeRecord (key, E) ++ rest
      = key ++ beBytes 4 E.length ++ (E.flatMap (writeEntry key) ++ rest) by simp [writeRecord],
    parseRecords_entries _ _ _ _ _ _ rfl hk h1 h256, hentries]
  simp only [parseEntries, Except.bind, hne, ↓reduceIte, storedRecord]

/-- A run of good records with distinct keys. -/
theorem parseRecords_append (o k : Nat) (R WT : FreqModel) (rest : Bytes)
    (hR : ∀ r ∈ R, goodRecord o r) (hd : (R.map Prod.fst).Nodup)
    (hk : ∀ r ∈ R, r.1 ∉ WT.map Prod.fst) :
    parseRecords o (R.length + k) WT (R.flatMap writeRecord ++ rest)
      = parseRecords o k (insertAll bytesLt (R.map storedRecord) WT) rest := by
  induction R generalizing WT with
  | nil => simp
  | cons r R ih =>
    simp only [List.map_cons, List.nodup_cons] at hd
    rw [List.flatMap_cons, List.append_assoc, List.length_cons, Nat.add_right_comm,
      parseRecords_record _ _ _ _ _ (hR r (by simp)) (hk r (by simp)), List.map_cons,
      insertAll_cons]
    refine ih _ (fun x hx => hR x (by simp [hx])) hd.2 ?_
    intro x hx
    rw [mem_insertKey_fst]
    rintro (h | h)
    · exact hd.1 (h ▸ List.mem_map_of_mem hx)
    · exact hk x (by simp [hx]) h

theorem RecordRefused.congr {o : Nat} {S S' : List Bytes} {rest : Bytes} {e : ErrKind}
    (h : RecordRefused o S rest e) (hs : ∀ k, k ∈ S ↔ k ∈ S') : RecordRefused o S' rest e := by
  cases h with
  | shortKey _ h => exact .shortKey _ h
  | repeatedKey key rest h1 h2 => exact .repeatedKey key rest h1 ((hs _).mp h2)
  | shortCount key rest h1 h2 h3 =>
    exact .shortCount key rest h1 (fun h => h2 ((hs _).mpr h)) h3
  | badCount key rest m h1 h2 h3 h4 =>
    exact .badCount key rest m h1 (fun h => h2 ((hs _).mpr h)) h3 h4
  | entry key rest m E e h1 h2 h3 h4 h5 =>
    exact .entry key rest m E e h1 (fun h => h2 ((hs _).mpr h)) h3 h4 h5
  | zeroTotal key rest m E h1 h2 h3 h4 h5 =>
    exact .zeroTotal key rest m E h1 (fun h => h2 ((hs _).mpr h)) h3 h4 h5

/-- A record that is refused stops the loop with its error. -/
theorem parseRecords_refused (o k : Nat) (WT : FreqModel) (rest : Bytes) (e : ErrKind)
    (h : RecordRefused o (WT.map Prod.fst) rest e) :
    parseRecords o (k + 1) WT rest = .error e := by
  cases h with
  | shortKey _ h => simp [parseRecords, takeField_short _ _ h, bind, Except.bind]
  | repeatedKey key tail h1 h2 =>
    simp only [parseRecords, takeField_ok _ _ _ h1, bind, Except.bind, lookupKey_isSome, h2,
      decide_true, ↓reduceIte]
  | shortCount key tail h1 h2 h3 =>
    simp only [parseRecords, takeField_ok _ _ _ h1, bind, Except.bind, lookupKey_isSome, h2,
      decide_false, Bool.false_eq_true, ↓reduceIte, takeField_short _ _ h3]
  | badCount key tail m h1 h2 h3 h4 =>
    have hcount : takeField 4 (beBytes 4 m ++ tail) = .ok (beBytes 4 m, tail) :=
      takeField_ok _ _ _ (by simp)
    have hval : beValue (beBytes 4 m) = m := beValue_beBytes _ _ (by norm_num; omega)
    have hbad : m = 0 ∨ Config.maxSyms < m := h4
    rw [List.append_assoc]
    simp only [parseRecords, takeField_ok _ _ _ h1, bind, Except.bind, lookupKey_isSome, h2,
      decide_false, Bool.false_eq_true, ↓reduceIte, hcount, hval, hbad]
  | entry key tail m E _ h1 h2 h3 h4 h5 =>
    obtain ⟨hm1, hm256, hd, hw⟩ := h3
    subst h1
    rw [List.append_assoc _ _ tail, parseRecords_entries _ _ _ _ _ _ rfl h2 hm1 hm256]
    obtain ⟨n, rfl⟩ : ∃ n, m = E.length + (n + 1) := ⟨m - E.length - 1, by omega⟩
    rw [parseEntries_append key _ E [] tail hd hw (by simp), parseEntries_refused key n _ _ e]
    · rfl
    · exact h5.congr (fun b => by rw [mem_insertAll_fst]; simp)
  | zeroTotal key tail m E h1 h2 h3 h4 h5 =>
    obtain ⟨hm1, hm256, hd, hw⟩ := h3
    subst h1 h4
    rw [List.append_assoc _ _ tail, parseRecords_entries _ _ _ _ _ _ rfl h2 hm1 hm256]
    have hentries := parseEntries_append key 0 E [] tail hd hw (by simp)
    rw [Nat.add_zero] at hentries
    have htotal := tableTotal_insertAll E [] hd (by simp)
    rw [hentries]
    simp only [parseEntries, Except.bind]
    rw [if_pos (by rw [htotal, h5]; rfl)]

/-- What is left to read either begins with a good record whose key is new or is refused. -/
theorem record_or_refused (o : Nat) (S : List Bytes) (rest : Bytes) :
    (∃ (r : Bytes × WeightTable) (tail : Bytes), rest = writeRecord r ++ tail ∧ goodRecord o r ∧
      r.1 ∉ S) ∨ ∃ e, RecordRefused o S rest e := by
  by_cases h1 : rest.length < o
  · exact .inr ⟨_, .shortKey rest h1⟩
  obtain ⟨key, more, rfl, hl⟩ : ∃ key more, rest = key ++ more ∧ key.length = o :=
    ⟨rest.take o, rest.drop o, by simp, by simp; omega⟩
  by_cases h2 : key ∈ S
  · exact .inr ⟨_, .repeatedKey key more hl h2⟩
  by_cases h3 : more.length < 4
  · exact .inr ⟨_, .shortCount key more hl h2 h3⟩
  obtain ⟨m, more, rfl, hm⟩ : ∃ m tail, more = beBytes 4 m ++ tail ∧ m < 2 ^ 32 := by
    have h4 : (more.take 4).length = 4 := by simp; omega
    have hb := beBytes_beValue (more.take 4)
    have hlt := beValue_lt (more.take 4)
    rw [h4] at hb hlt
    exact ⟨beValue (more.take 4), more.drop 4, by simp [hb], by norm_num at hlt ⊢; exact hlt⟩
  by_cases h5 : m = 0 ∨ 256 < m
  · exact .inr ⟨_, by simpa using RecordRefused.badCount key more m hl h2 hm h5⟩
  have hm1 : 1 ≤ m ∧ m ≤ 256 := by omega
  obtain ⟨E, tail, rfl, hd, hw, -, hcase⟩ := parseEntries_cases key m [] more
  rcases hcase with ⟨hE, -⟩ | ⟨e, hE, he, -⟩
  · by_cases h6 : tableTotal E = 0
    · exact .inr ⟨_, by
        simpa using RecordRefused.zeroTotal key tail m E hl h2 ⟨hm1.1, hm1.2, hd, hw⟩ hE h6⟩
    · exact .inl ⟨(key, E), tail, by simp [writeRecord, hE],
        ⟨hl, hE ▸ hm1.1, hE ▸ hm1.2, hd, hw, Nat.pos_of_ne_zero h6⟩, h2⟩
  · have he' : EntryRefused key (E.map Prod.fst) tail e :=
      he.congr (fun b => by rw [mem_insertAll_fst]; simp)
    exact .inr ⟨e, by
      simpa using RecordRefused.entry key tail m E e hl h2 ⟨hm1.1, hm1.2, hd, hw⟩ hE he'⟩

/-- The loop over the records: all `k` of them are good, or the first that is not is refused. -/
theorem parseRecords_cases (o k : Nat) (WT : FreqModel) (rest : Bytes) :
    ∃ (R : FreqModel) (tail : Bytes), rest = R.flatMap writeRecord ++ tail ∧
      (∀ r ∈ R, goodRecord o r) ∧ (R.map Prod.fst).Nodup ∧ (∀ r ∈ R, r.1 ∉ WT.map Prod.fst) ∧
      ((R.length = k ∧ parseRecords o k WT rest
          = .ok (insertAll bytesLt (R.map storedRecord) WT, tail)) ∨
        ∃ e, R.length < k ∧
          RecordRefused o ((insertAll bytesLt (R.map storedRecord) WT).map Prod.fst) tail e ∧
          parseRecords o k WT rest = .error e) := by
  induction k generalizing WT rest with
  | zero => exact ⟨[], rest, by simp, by simp, by simp, by simp, .inl ⟨rfl, rfl⟩⟩
  | succ k ih =>
    rcases record_or_refused o (WT.map Prod.fst) rest with ⟨r, tail, rfl, hr, hk⟩ | ⟨e, he⟩
    · obtain ⟨R, tail', rfl, hR, hd, hk', hcase⟩ := ih (insertKey bytesLt r.1 (storedRecord r).2 WT) tail
      have hne : ∀ x ∈ R, x.1 ≠ r.1 ∧ x.1 ∉ WT.map Prod.fst := by
        intro x hx
        have := hk' x hx
        rw [mem_insertKey_fst] at this
        tauto
      refine ⟨r :: R, tail', by simp, ?_, ?_, ?_, ?_⟩
      · intro x hx
        rcases List.mem_cons.mp hx with rfl | hx
        · exact hr
        · exact hR x hx
      · simp only [List.map_cons, List.nodup_cons, hd, and_true]
        intro hm
        obtain ⟨x, hx, hxe⟩ := List.mem_map.mp hm
        exact (hne x hx).1 hxe
      · intro x hx
        rcases List.mem_cons.mp hx with rfl | hx
        · exact hk
        · exact (hne x hx).2
      · rw [parseRecords_record _ _ _ _ _ hr hk]
        rcases hcase with ⟨hl, hp⟩ | ⟨x, hl, hx, hp⟩
        · exact .inl ⟨by simp [hl], hp⟩
        · exact .inr ⟨x, by simp [hl], hx, hp⟩
    · exact ⟨[], rest, by simp, by simp, by simp, by simp,
        .inr ⟨e, by simp, he, parseRecords_refused o k WT rest e he⟩⟩

/-! ### The fields before the records -/

/-- Enough bytes for a field of `k` bytes are a value of that width and the rest. -/
theorem split_field (k : Nat) (rest : Bytes) (h : ¬ rest.length < k) :
    ∃ n tail, rest = beBytes k n ++ tail ∧ n < 256 ^ k := by
  have hk : (rest.take k).length = k := by simp; omega
  have hb := beBytes_beValue (rest.take k)
  have hlt := beValue_lt (rest.take k)
  rw [hk] at hb hlt
  exact ⟨_, rest.drop k, by rw [hb]; simp, hlt⟩

/-- What HDRP does after the three fields, where the first two pass their checks (R257 to R259). -/
theorem parseHeader_start (p : Params) (o n K : Nat) (rest : Bytes) (hp : p.legal)
    (ho : o ≤ p.maxOrder) (hn : n ≤ p.outCap) (hK : K < 2 ^ 32) :
    parseHeader p (headerStart o n K ++ rest) =
      if p.maxCtx < K then .error .capacityExceeded
      else (parseRecords o K [] rest).bind (fun r =>
        .ok { origLen := n, order := o, count := K, wt := r.1,
              hlen := 13 + rest.length - r.2.length }) := by
  obtain ⟨-, -, -, hout, hord, -, -⟩ := hp
  have f1 : takeField 8 (headerStart o n K ++ rest)
      = .ok (beBytes 8 n, [BitVec.ofNat 8 (o + 1)] ++ (beBytes 4 K ++ rest)) := by
    rw [show headerStart o n K ++ rest
      = beBytes 8 n ++ ([BitVec.ofNat 8 (o + 1)] ++ (beBytes 4 K ++ rest)) by simp [headerStart]]
    exact takeField_ok _ _ _ (by simp)
  have f2 : takeField 1 ([BitVec.ofNat 8 (o + 1)] ++ (beBytes 4 K ++ rest))
      = .ok ([BitVec.ofNat 8 (o + 1)], beBytes 4 K ++ rest) := takeField_ok _ _ _ rfl
  have f3 : takeField 4 (beBytes 4 K ++ rest) = .ok (beBytes 4 K, rest) :=
    takeField_ok _ _ _ (by simp)
  have v1 : beValue (beBytes 8 n) = n := beValue_beBytes _ _ (by norm_num; omega)
  have v2 : beValue [BitVec.ofNat 8 (o + 1)] = o + 1 := by simp [beValue]; omega
  have v3 : beValue (beBytes 4 K) = K := beValue_beBytes _ _ (by norm_num; omega)
  have c1 : ¬ p.outCap < n := by omega
  have c2 : ¬ p.maxOrder < o := by omega
  simp only [parseHeader, f1, f2, f3, v1, v2, v3, bind, Except.bind, c1, c2, if_false,
    Nat.add_sub_cancel, Nat.add_one_ne_zero]
  split
  · rfl
  · cases parseRecords o K [] rest <;> simp [headerStart]
    omega

/-! ### Ranks -/

theorem keyLt_iff (x y : Nat × Nat × Nat) :
    keyLt x y = true ↔
      x.1 < y.1 ∨ (x.1 = y.1 ∧ (x.2.1 < y.2.1 ∨ (x.2.1 = y.2.1 ∧ x.2.2 < y.2.2))) := by
  simp [keyLt]

/-- Ranking below in the words of R199 is having the smaller key. -/
theorem ranksBelow_iff_keyLt (x y : Tree) :
    ranksBelow x y ↔ keyLt (treeKey x) (treeKey y) = true := by
  rw [keyLt_iff]
  cases x <;> cases y <;> simp [ranksBelow, treeKey, treeWeight]

end Sys2Proof.Machine
end

