-- ==== Sys2Proof/Laws/HostNotation.lean ====
section
/-! SUPPORT. What a host operation can do to the block, and what the assembler gives. -/

namespace Sys2Proof.Machine

@[simp] theorem hostAccess_hcc (h : HostAgent) (a : Access) :
    (hostAccess h a).hcc = (h.hcc.advance h.hcc.host.pending).performAccess a := rfl

@[simp] theorem hostLoad_hcc (h : HostAgent) (a : Access) (dst : Nat) (mask : Word) :
    (hostLoad h a dst mask).hcc = (h.hcc.advance h.hcc.host.pending).performAccess a := rfl

/-- A host operation leaves the block alone or performs one access on its port (R150). -/
theorem hostOp_hcc (h : HostAgent) :
    (hostOp h).hcc = h.hcc ∨
      ∃ a, (hostOp h).hcc = (h.hcc.advance h.hcc.host.pending).performAccess a := by
  unfold hostOp
  split
  · exact .inl rfl
  · split <;> first | exact .inl rfl | exact .inr ⟨_, hostAccess_hcc _ _⟩ |
      exact .inr ⟨_, hostLoad_hcc _ _ _ _⟩

/-- The loop of COPYOUT goes on exactly while its counter is below the bound's present value. -/
theorem hostOp_loopTest (h : HostAgent) (bound target : Nat) (hr : h.halted = false)
    (ho : h.prog[h.at_]? = some (.loopTest bound target)) :
    hostOp h = { h with
      at_ := if h.count.toNat < (hostVar h.vars bound).toNat then h.at_ + 1 else target } := by
  simp [hostOp, hr, ho]

/-- The assembler gives the word of a well-formed command (R152). -/
theorem assemble_encode (m : Mnemonic) (w : Word) (h : assemble m = some w) :
    ∃ i : Instr, i.wellFormed = true ∧ w = encode i := by
  cases m with
  | nop => exact ⟨.nop, rfl, by simpa [assemble] using h.symm⟩
  | decompress => exact ⟨.decompress, rfl, by simpa [assemble] using h.symm⟩
  | compress o =>
    by_cases ho : o ≤ 254
    · refine ⟨.compress (BitVec.ofNat 8 o), ?_, by simpa [assemble, ho] using h.symm⟩
      have hne : BitVec.ofNat 8 o ≠ 255#8 := by
        intro he
        have := congrArg BitVec.toNat he
        simp at this
        omega
      simpa [Instr.wellFormed] using hne
    · simp [assemble, ho] at h

end Sys2Proof.Machine
end

