-- ==== Sys2Proof/Laws/Phases.lean ====
section
/-! SUPPORT. What the phases of a command can change, said once: only SEQ.PHASE, the working registers,
the stores and OUT_MEM. -/

namespace Sys2Proof.Machine

/-- `t` differs from `s` at most in SEQ.PHASE, the working registers, the stores and OUT_MEM. -/
abbrev phaseFrame (s t : State) : Prop :=
  t = { s with phase := t.phase, work := t.work, stores := t.stores, outMem := t.outMem }

theorem phaseFrame_refl (s : State) : phaseFrame s s := rfl

theorem phaseFrame_trans {s t u : State} (h : phaseFrame s t) (g : phaseFrame t u) :
    phaseFrame s u := by
  unfold phaseFrame at *
  rw [h] at g
  exact g

/-- What a state given by a phase keeps, field by field. -/
theorem phaseFrame_fields {s t : State} (h : phaseFrame s t) :
    t.params = s.params ∧ t.regs = s.regs ∧ t.cmd = s.cmd ∧ t.inMem = s.inMem ∧ t.host = s.host ∧
      t.draws = s.draws ∧ t.epoch = s.epoch := by
  rw [h]; exact ⟨rfl, rfl, rfl, rfl, rfl, rfl, rfl⟩

/-- A phase that keeps the frame however it ends. -/
def framed {α : Type} (s : State) (get : α → State) : Except Stop α → Prop
  | .ok a => phaseFrame s (get a)
  | .error (.raised _ t) => phaseFrame s t
  | .error (.fault _) => True

theorem framed_bind {α β : Type} {s : State} {f : α → State} {g : β → State}
    {x : Except Stop α} {k : α → Except Stop β} (hx : framed s f x)
    (hk : ∀ a, framed (f a) g (k a)) : framed s g (x >>= k) := by
  match x, hx with
  | .ok a, ha =>
    have := hk a
    change framed s g (k a)
    cases hka : k a with
    | ok b => rw [hka] at this; exact phaseFrame_trans ha this
    | error e =>
      rw [hka] at this
      cases e with
      | raised e t => exact phaseFrame_trans ha this
      | fault f => trivial
  | .error (.raised _ _), ha => exact ha
  | .error (.fault _), _ => trivial

theorem checkCompress_framed (o : Byte) (s : State) : framed s id (checkCompress o s) := by
  unfold checkCompress raiseError phaseCheck
  dsimp only
  repeat' split
  all_goals rfl

theorem phaseFreq_framed (s : State) : framed s id (phaseFreq s) := by
  unfold phaseFreq raiseError
  dsimp only
  split <;> rfl

theorem buildPhase_framed (p : Phase) (F : FreqModel) (s : State) :
    framed s id (buildPhase p F s) := by
  unfold buildPhase
  split
  · rfl
  · trivial

theorem phaseCodegen_frame (p : Phase) (s : State) : phaseFrame s (phaseCodegen p s) := rfl

theorem checkSize_framed (s : State) : framed s id (checkSize s) := by
  unfold checkSize raiseError
  dsimp only
  split <;> rfl

theorem phaseHdrw_frame (s : State) : phaseFrame s (phaseHdrw s) := rfl

theorem phasePack_framed (s : State) : framed s id (phasePack s) := by
  unfold phasePack
  dsimp only
  split
  · trivial
  · rfl

theorem checkDecompress_framed (s : State) : framed s id (checkDecompress s) := by
  unfold checkDecompress raiseError phaseCheck
  dsimp only
  split <;> rfl

theorem phaseHdrp_framed (s : State) : framed s Prod.fst (phaseHdrp s) := by
  unfold phaseHdrp raiseError
  dsimp only
  split <;> rfl

theorem phaseUnpack_framed (s : State) : framed s id (phaseUnpack s) := by
  unfold phaseUnpack raiseError
  dsimp only
  split <;> rfl

theorem framed_of_frame {α : Type} {s t : State} {g : α → State} {x : Except Stop α}
    (h : phaseFrame s t) (hx : framed t g x) : framed s g x := by
  cases x with
  | ok a => exact phaseFrame_trans h hx
  | error e =>
    cases e with
    | raised e u => exact phaseFrame_trans h hx
    | fault f => trivial

theorem compressPhases_framed (o : Byte) (s : State) :
    framed s (fun r => r.1) (compressPhases o s) := by
  unfold compressPhases
  refine framed_bind (f := id) (checkCompress_framed o s) fun s => ?_
  refine framed_bind (f := id) (phaseFreq_framed s) fun s => ?_
  refine framed_bind (f := id) (buildPhase_framed _ _ s) fun s => ?_
  refine framed_bind (f := id)
    (framed_of_frame (phaseCodegen_frame _ s) (checkSize_framed _)) fun s => ?_
  refine framed_bind (f := id)
    (framed_of_frame (phaseHdrw_frame s) (phasePack_framed _)) fun s => ?_
  exact phaseFrame_refl s

theorem decompressPhases_framed (s : State) :
    framed s (fun r => r.1) (decompressPhases s) := by
  unfold decompressPhases
  refine framed_bind (f := id) (checkDecompress_framed s) fun s => ?_
  refine framed_bind (f := Prod.fst) (phaseHdrp_framed s) fun r => ?_
  refine framed_bind (f := id) (buildPhase_framed _ _ r.1) fun s => ?_
  refine framed_bind (f := id)
    (framed_of_frame (phaseCodegen_frame _ s) (phaseUnpack_framed _)) fun s => ?_
  exact phaseFrame_refl s

/-- How a command that goes on ends: a successful completion or an error completion of a state that the
phases left, which differs from `s` only as `phaseFrame` says. -/
theorem finish_cases {s t : State} {x : Except Stop (State × Nat × Nat × Nat)}
    (hx : framed s (fun r => r.1) x) (h : finish x = .next t) :
    (∃ u n hl k, x = .ok (u, n, hl, k) ∧ phaseFrame s u ∧ t = u.completeOk n hl k) ∨
    (∃ u e, x = .error (.raised e u) ∧ phaseFrame s u ∧ t = u.completeErr e) := by
  match x, hx, h with
  | .ok (u, n, hl, k), hx, h => cases h; exact .inl ⟨u, n, hl, k, rfl, hx, rfl⟩
  | .error (.raised e u), hx, h => cases h; exact .inr ⟨u, e, rfl, hx, rfl⟩
  | .error (.fault _), _, h => cases h

end Sys2Proof.Machine
end

