-- ==== Sys2Proof/Laws/Port.lean ====
section
/-! SUPPORT. The address map by cases, and what an access can change, said once. -/

namespace Sys2Proof.Machine

theorem regionOf_registers (a : Word) (h : a.toNat < 0x1000) :
    regionOf a = .registers a.toNat := by simp [regionOf, h]

theorem regionOf_inWindow (a : Word) (h : 0x40000000 ≤ a.toNat) (g : a.toNat < 0x80000000) :
    regionOf a = .inWindow (a.toNat - 0x40000000) := by
  unfold regionOf
  simp only
  rw [if_neg (by omega), if_neg (by omega), if_pos g]

theorem regionOf_outWindow (a : Word) (h : 0x80000000 ≤ a.toNat) (g : a.toNat < 0xC0000000) :
    regionOf a = .outWindow (a.toNat - 0x80000000) := by
  unfold regionOf
  simp only
  rw [if_neg (by omega), if_neg (by omega), if_neg (by omega), if_pos g]

theorem regionOf_unmapped (a : Word)
    (h : (0x1000 ≤ a.toNat ∧ a.toNat < 0x40000000) ∨ 0xC0000000 ≤ a.toNat) :
    regionOf a = .unmapped := by
  unfold regionOf
  simp only
  rcases h with h | h
  · rw [if_neg (by omega), if_pos h.2]
  · rw [if_neg (by omega), if_neg (by omega), if_neg (by omega), if_neg (by omega)]

/-- What a register write can do: nothing, a command word presented, or one register written. -/
theorem writeReg_cases (off : Nat) (v : Word) (s t : State) (h : writeReg off v s = some t) :
    t = s ∨ t = s.present v ∨ t = s.writeStatus v ∨ t = s.writeIntEn v ∨
      (s.busy = false ∧ t = s.writeInLen v) := by
  unfold writeReg at h
  split at h
  · cases h; simp
  · cases h; simp
  · cases h; simp
  · split at h
    · cases h
    · cases h; simp_all
  · cases h; simp

/-- What presenting a command word can do (R310, Table 13). -/
theorem present_cases (w : Word) (s : State) :
    (w = 0#32 ∧ s.present w = s) ∨ (w ≠ 0#32 ∧ s.busy = true ∧ s.present w = s.reject) ∨
      (w ≠ 0#32 ∧ s.busy = false ∧ s.present w = s.accept w) := by
  unfold State.present
  by_cases hw : w = 0#32
  · simp [hw]
  · cases hb : s.busy <;> simp [hw]

/-- What a write on the port can do when it gets OKAY. -/
theorem writePort_cases (addr : Word) (size : Size) (data : Word) (s t : State)
    (h : writePort addr size data s = some t) :
    (addr.toNat < 0x1000 ∧ writeReg addr.toNat data s = some t) ∨
      (∃ off, regionOf addr = .inWindow off ∧ off < s.params.inCap ∧ s.busy = false ∧
        t = s.writeIn off (data.extractLsb' 0 8)) := by
  unfold writePort at h
  split at h
  · rename_i off hr
    have ha : addr.toNat < 0x1000 ∧ off = addr.toNat := by
      unfold regionOf at hr
      simp only at hr
      split at hr
      · cases hr; exact ⟨by assumption, rfl⟩
      · repeat' split at hr
        all_goals cases hr
    split at h
    · exact .inl ⟨ha.1, ha.2 ▸ h⟩
    · cases h
  · rename_i off hr
    split at h
    · rename_i hc
      cases h
      exact .inr ⟨off, hr, hc.2.1, hc.2.2, rfl⟩
    · cases h
  · cases h
  · cases h

/-- An access answers, and before the answer it left the state alone or performed one write. -/
theorem performAccess_cases (a : Access) (s : State) :
    (∃ r, s.performAccess a = s.respond r) ∨
      (∃ v t, a.dir = .write v ∧ writePort a.addr a.size v s = some t ∧
        s.performAccess a = t.respond (.okay 0#32)) := by
  unfold State.performAccess
  split
  · split <;> exact .inl ⟨_, rfl⟩
  · rename_i v hd
    split
    · rename_i t ht; exact .inr ⟨v, t, hd, ht, rfl⟩
    · exact .inl ⟨_, rfl⟩

end Sys2Proof.Machine
end

