-- ==== Sys2Proof/Laws/PerInstr.lean ====
section
/-! SUPPORT. Laws of the commands as syntax, one lemma per constructor. -/

namespace Sys2Proof.Laws.ZeroIsNop

/-- Only NOP is encoded by the word 0, the word that is never accepted (R121, R310). -/
def Statement (i : Sys2Proof.Instr) : Prop :=
  i.wellFormed = true → (Sys2Proof.encode i = 0#32 ↔ i = .nop)

theorem nop : Statement .nop := by intro _; simp [Sys2Proof.encode]

theorem compress (o : Sys2Proof.Byte) : Statement (.compress o) := by
  intro _
  have h : Sys2Proof.encode (.compress o) ≠ 0#32 := by
    intro h
    have := congrArg (fun w : Sys2Proof.Word => w.getLsbD 0) h
    simp [Sys2Proof.encode] at this
  simp [h]

theorem decompress : Statement .decompress := by intro _; simp [Sys2Proof.encode]

theorem illegal (w : Sys2Proof.Word) : Statement (.illegal w) := by
  intro h
  have hw : w ≠ 0#32 := by
    intro h0
    subst h0
    simp [Sys2Proof.Instr.wellFormed, Sys2Proof.illegalWord] at h
  simp [Sys2Proof.encode, hw]

end Sys2Proof.Laws.ZeroIsNop
end

