-- ==== Sys2Proof/Tests/Slice0.lean ====
section
/-! SUPPORT. The model's own tests. Expected values come from spec/95_test_vectors.md and from the worked
examples of the rules, never from the model. The last part gives, for every statement with hypotheses,
values that meet them. -/

namespace Sys2Proof.Tests

/-! Theorems are elaborated one after another: each thread takes a large stack, and many at once take
more memory than the check allows. -/

set_option Elab.async false

open Sys2Proof Sys2Proof.Machine

/-! ### Helpers -/

/-- Bytes written as numbers. -/
def bytes (l : List Nat) : Bytes := l.map (BitVec.ofNat 8)

/-- A block with parameters `p`, its input loaded, and a command in flight that CMD holds. -/
def inFlight (p : Params) (word : Word) (input : List Nat) : State :=
  { State.resetWith p with
    inMem := memPutAll 0 (bytes input) []
    regs := { resetRegs with inLen := BitVec.ofNat 32 input.length }
    cmd := word
    phase := .check }

/-- The same block idle, with events to come. -/
def idleWith (p : Params) (events : List Event) : State :=
  { State.resetWith p with host := { pending := events, response := none } }

def goesOn (o : Outcome) : Bool := match o with | .next _ => true | _ => false

/-- The next state of an outcome that goes on; reset where it does not. -/
def nextOf (o : Outcome) : State := match o with | .next t => t | _ => State.reset

theorem eq_nextOf (o : Outcome) (h : goesOn o = true) : o = .next (nextOf o) := by
  cases o <;> simp_all [goesOn, nextOf]

/-- What the host reads after a completion: STATUS, OUT_LEN, HDR_LEN, CTX_COUNT. -/
def reading (t : State) : List Nat :=
  [(statusWord t.busy t.regs.status).toNat, t.regs.outLen.toNat, t.regs.hdrLen.toNat,
    t.regs.ctxCount.toNat]

/-- The defined bytes of OUT_MEM. -/
def outBytes (t : State) : List Nat := t.outMem.map (fun c => c.2.toNat)

/-- A parameter set with room for every header test (spec/95_test_vectors.md L2.6). -/
def roomy : Params := { inCap := 2 ^ 20, outCap := 2 ^ 20, maxOrder := 254, maxCtx := 2 ^ 32 - 1 }

/-- AAAAABBBCC. -/
def abc : List Nat := [0x41, 0x41, 0x41, 0x41, 0x41, 0x42, 0x42, 0x42, 0x43, 0x43]

/-- The 46-byte container of L1.7, as the spec prints it. -/
def c46 : List Nat :=
  [0, 0, 0, 0, 0, 0, 0, 0x0A, 1, 0, 0, 0, 1, 0, 0, 0, 3]
    ++ [0x41, 0, 0, 0, 0, 0, 0, 0, 5] ++ [0x42, 0, 0, 0, 0, 0, 0, 0, 3]
    ++ [0x43, 0, 0, 0, 0, 0, 0, 0, 2] ++ [0x07, 0xF4]

/-- A 32-bit write. -/
def w32 (addr value : Word) : Event := .access { addr := addr, size := .four, dir := .write value }

/-! ### WellFormed refuses each ill-formed term -/

theorem test_order_255_refused : (Instr.compress 255#8).wellFormed = false := by decide
theorem test_order_254_accepted : (Instr.compress 254#8).wellFormed = true := by decide
theorem test_illegal_zero_refused : (Instr.illegal 0#32).wellFormed = false := by decide
theorem test_illegal_of_compress_refused : (Instr.illegal 0x0000FE01#32).wellFormed = false := by
  decide
theorem test_illegal_of_decompress_refused : (Instr.illegal 2#32).wellFormed = false := by decide
theorem test_illegal_op0_accepted : (Instr.illegal 0x00000100#32).wellFormed = true := by decide
theorem test_illegal_op3_accepted : (Instr.illegal 3#32).wellFormed = true := by decide
theorem test_illegal_rsv0_accepted : (Instr.illegal 0x00000010#32).wellFormed = true := by decide
theorem test_illegal_rsv1_accepted : (Instr.illegal 0x00010001#32).wellFormed = true := by decide
theorem test_illegal_order_of_decompress_accepted :
    (Instr.illegal 0x00000102#32).wellFormed = true := by decide
theorem test_illegal_order_255_accepted : (Instr.illegal 0x0000FF01#32).wellFormed = true := by
  decide

/-! ### Decode and encode (R120, R126, L2.1); words written out from Table 7 -/

theorem test_decode_nop : decode 0b00000000000000000000000000000000#32 = .nop := by decide
theorem test_decode_compress :
    decode 0b00000000000000000000001000000001#32 = .compress 2#8 := by decide
theorem test_decode_decompress :
    decode 0b00000000000000000000000000000010#32 = .decompress := by decide
theorem test_decode_illegal :
    decode 0b11111111111111111111111111111111#32 = .illegal 0xFFFFFFFF#32 := by decide
theorem test_encode_compress_2 : encode (.compress 2#8) = 0x00000201#32 := by decide
theorem test_decodeTableWord_compress : decodeTableWord 32 0x0000FE01 = some (.compress 254#8) := by
  decide
theorem test_decodeTableWord_too_long : decodeTableWord 40 1 = none := by decide

/-! ### NOP and ILLEGAL (CW-1, CW-6, CW-19) -/

theorem test_nop_starts_nothing :
    reading (nextOf (step (idleWith Params.standard [w32 0x020#32 0#32]))) = [0, 0, 0, 0] := by
  decide
theorem test_illegal_reads_0704 :
    reading (nextOf (exec (decode 0x0000FF01#32) (inFlight Params.standard 0x0000FF01#32 abc)))
      = [0x0704, 0, 0, 0] := by decide

/-! ### COMPRESS (CM-1, CM-4) -/

theorem test_compress_abc :
    let t := nextOf (exec (.compress 0#8) (inFlight Params.standard 1#32 abc))
    reading t = [2, 46, 44, 1] ∧ outBytes t = c46 := by decide +kernel
/-- HW-4 followed by F0. -/
theorem test_compress_abab_order_1 :
    let t := nextOf (exec (.compress 1#8)
      (inFlight Params.standard 0x101#32 [0x41, 0x42, 0x41, 0x42]))
    reading t = [2, 59, 58, 3] ∧ outBytes t =
      [0, 0, 0, 0, 0, 0, 0, 4, 2, 0, 0, 0, 3]
        ++ [0, 0, 0, 0, 1, 0, 0x41, 0, 0, 0, 0, 0, 0, 0, 1]
        ++ [0x41, 0, 0, 0, 1, 0x41, 0x42, 0, 0, 0, 0, 0, 0, 0, 2]
        ++ [0x42, 0, 0, 0, 1, 0x42, 0x41, 0, 0, 0, 0, 0, 0, 0, 1] ++ [0xF0] := by
  decide +kernel

/-! ### DECOMPRESS (DM-1, UP-5) -/

theorem test_decompress_c46 :
    let t := nextOf (exec .decompress (inFlight Params.standard 2#32 c46))
    reading t = [2, 10, 44, 1] ∧ outBytes t = abc := by decide +kernel
theorem test_decompress_truncated :
    reading (nextOf (exec .decompress (inFlight Params.standard 2#32 c46.dropLast)))
      = [0x0504, 0, 0, 0] := by decide +kernel

/-! ### Units -/

/-- HP-14: a final byte that repeats within its record. -/
theorem test_header_duplicate_byte :
    (parseHeader roomy (bytes ([0, 0, 0, 0, 0, 0, 0, 1, 1, 0, 0, 0, 1, 0, 0, 0, 2]
      ++ [0x41, 0, 0, 0, 0, 0, 0, 0, 1] ++ [0x41, 0, 0, 0, 0, 0, 0, 0, 1] ++ [0x80])))
      = .error .corruptHeader := by decide +kernel
/-- HP-21: L is checked before block_size. -/
theorem test_header_order_of_checks :
    (parseHeader { roomy with outCap := 16 } (bytes [0, 0, 0, 0, 0, 0, 0, 17, 0]))
      = .error .capacityExceeded := by decide +kernel
/-- FQ-4. -/
theorem test_freq_abac :
    freqModel 1 (bytes [0x41, 0x42, 0x41, 0x43]) =
      [([0x00#8], [(0x41#8, 1)]), ([0x41#8], [(0x42#8, 1), (0x43#8, 1)]),
        ([0x42#8], [(0x41#8, 1)])] := by decide +kernel
/-- TB-3 pins decision D21. -/
theorem test_tree_creation_order :
    codesOf [(0x41#8, 1), (0x42#8, 1), (0x43#8, 1), (0x44#8, 1)] =
      [(0x41#8, [false, false]), (0x42#8, [false, true]), (0x43#8, [true, false]),
        (0x44#8, [true, true])] := by decide +kernel
/-- TB-9 pins decisions D24 and D25. -/
theorem test_tree_scaling_floor :
    codesOf [(0x41#8, 3), (0x42#8, 0), (0x43#8, 2 ^ 64 - 1)] =
      [(0x41#8, [false, false]), (0x42#8, [false, true]), (0x43#8, [true])] := by decide +kernel
/-- TB-5 pins decision D20, TB-2 pins D23. -/
theorem test_tree_unsigned_and_placeholder :
    codesOf [(0x7F#8, 1), (0x80#8, 1)] = [(0x7F#8, [false]), (0x80#8, [true])] ∧
      codesOf [(0x78#8, 1)] = [(0x78#8, [true])] := by decide +kernel
/-- PK-1. -/
theorem test_pack_bytes :
    packBytes ((packBits (codeStoreOf (freqModel 0 (bytes abc))) [] (bytes abc)).getD [])
      = bytes [0x07, 0xF4] := by decide +kernel
/-- UP-8 and UP-9: the fetch comes before the table check (decision D29). -/
theorem test_unpack_fetch_before_table :
    unpack [] 0 1 [] = .error .bitstreamExhausted ∧
      unpack [] 0 1 [false] = .error .unknownContext := by decide +kernel
/-- Table 12's machine on UP-12's body: 00 seven times, then 41. -/
theorem test_unpacker_machine :
    let u : UInput := { codes := codeStoreOf [([0x00#8], [(0x00#8, 1), (0x41#8, 1)])],
                        origLen := 8, input := [0x01#8], hlen := 0 }
    let m := uSteps u (2 * bodyBits u + 8 + 2) (uStart 1)
    m.ustate = .done ∧ m.out = bytes [0, 0, 0, 0, 0, 0, 0, 0x41] := by decide +kernel

/-! ### Port, interrupt, reset (BUS-5, BUS-12, BUS-22, BUS-24, IRQ-3, RS-3) -/

theorem test_bus_misaligned :
    readPort State.reset 0x002#32 .four = none := by decide
theorem test_bus_in_mem_above_capacity :
    (writePort 0x40001000#32 .one 0#32 State.reset).isNone = true := by decide
theorem test_status_w1c :
    statusWrite 2#32 { done := true, err := false, rej := true, errcode := 0#4 }
      = { done := false, err := false, rej := true, errcode := 0#4 } := by decide
theorem test_int_en_reserved : intEnWord (intEnWrite 0xFFFFFFFF#32) = 7#32 := by decide
theorem test_irq_error :
    irq { resetRegs with status := { done := false, err := true, rej := false, errcode := 5#4 },
                         intEn := intEnWrite 2#32 } = true := by decide
theorem test_reset_while_busy :
    let s := { inFlight Params.standard 1#32 abc with
      host := { pending := [.reset], response := none } }
    reading (nextOf (step s)) = [0, 0, 0, 0] ∧ (nextOf (step s)).inMem = [] := by decide +kernel
/-- IN_MEM access takes bits 7:0 only (BUS-10). -/
theorem test_in_mem_write :
    (nextOf (step (idleWith Params.standard
      [.access { addr := 0x40000005#32, size := .one, dir := .write 0x000001AB#32 }]))).inMem
      = [(5, 0xAB#8)] := by decide
/-- A host about to run a program, on a block. -/
def hostWith (lines : List HostLine) (s : State) : HostAgent :=
  { prog := (expandProgram 0 lines).getD [], at_ := 0, vars := [], count := 0#32, halted := false,
    hcc := s }

/-- P5: NOP, then an illegal word; the host program of R150 runs to its end state. -/
theorem test_host_program_p5 :
    (match hostRun [.host, .host, .host, .core, .host, .host, .host]
      (hostWith [.cmd .nop, .op (.r32 (hostConst statusAddr) 0),
        .op (.w32 (hostConst ctrlAddr) (hostConst 0x0000FF01#32)), .wait, .op .halt] State.reset) with
      | .next h => h.halted && hostVar h.vars 0 == 0x0704#32
      | _ => false) = true := by decide +kernel
/-- COPYOUT copies as many bytes as OUT_LEN reads, here 2: P2 in small. -/
theorem test_copyout :
    (match hostRun (List.replicate 14 .host)
      (hostWith [.op (.add 4 4 1#32), .copyOut, .op .halt]
        { State.reset with
          outMem := [(0, 0xAB#8), (1, 0xF4#8), (2, 0x55#8)]
          regs := { resetRegs with outLen := 2#32 } }) with
      | .next h => h.halted && h.hcc.inMem == [(0, 0xAB#8), (1, 0xF4#8)] && h.hcc.regs.inLen == 2#32
          && hostVar h.vars 1 == 2#32 && hostVar h.vars 2 == 0xF4#32 && hostVar h.vars 4 == 1#32
      | _ => false) = true := by decide +kernel
/-- The assembler refuses an order outside 0 .. 254 (R152). -/
theorem test_assembler_orders :
    cmdOps (.compress 255) = none ∧ cmdOps (.compress 256) = none ∧
      assemble (.compress 254) = some 0x0000FE01#32 ∧ assemble (.compress 2) = some 0x00000201#32 := by
  decide

/-- The reset state's buffers are canonical and list nothing (R69). -/
theorem test_reset_memory :
    State.reset.inMem.wf ∧ State.reset.outMem.wf ∧ State.reset.inMem = [] ∧ State.reset.outMem = [] := by
  decide

/-! ### The fetch word runs as the first instruction after reset -/

theorem test_fetch_compress :
    reading (nextOf (step (State.reset.withFetchWord 32 1))) = [0x0104, 0, 0, 0] := by decide
theorem test_fetch_decompress :
    reading (nextOf (step (State.reset.withFetchWord 32 2))) = [0x0204, 0, 0, 0] := by decide
theorem test_fetch_nop :
    (nextOf (step (State.reset.withFetchWord 32 0))).host.response = some (.okay 0#32) := by decide

/-! ### Witnesses: for every statement with hypotheses, values that meet all of them together. The name
after `witness_` is the statement's. -/

/-- A block busy with COMPRESS 0 on AAAAABBBCC. -/
def busyState : State := inFlight Params.standard 1#32 abc

/-- The same with events to come. -/
def busyWith (events : List Event) : State :=
  { busyState with host := { pending := events, response := none } }

/-- The state after COMPRESS 0 on AAAAABBBCC. -/
def compressed : State := nextOf (exec (.compress 0#8) busyState)

theorem exec_busyState : exec (.compress 0#8) busyState = .next compressed :=
  eq_nextOf _ (by decide +kernel)

/-- A small block: 16 bytes of input and output, orders 0 and 1, one context. -/
def small : Params := { inCap := 16, outCap := 16, maxOrder := 1, maxCtx := 1 }

/-- An access event's access. -/
def write4 (addr value : Word) : Access := { addr := addr, size := .four, dir := .write value }
def read4 (addr : Word) : Access := { addr := addr, size := .four, dir := .read }
def write1 (addr value : Word) : Access := { addr := addr, size := .one, dir := .write value }
def read1 (addr : Word) : Access := { addr := addr, size := .one, dir := .read }

theorem witness_DecodeOfEncode :
    (Instr.compress 0#8).wellFormed = true ∧ (Instr.compress 254#8).wellFormed = true ∧
      (Instr.illegal 0xFFFFFFFF#32).wellFormed = true := by decide
theorem witness_IllegalWordsAsListed :
    let s := inFlight Params.standard 0x0000FF01#32 abc
    illegalWord 0x0000FF01#32 = true ∧ s.busy = true ∧ s.cmd = 0x0000FF01#32 ∧
      s.host.pending = [] := by decide
theorem witness_StepRunsDecodedCommand :
    (busyWith [.complete, .reset]).busy = true ∧
      (busyWith [.complete, .reset]).host.pending = .complete :: [.reset] ∧
      (busyWith []).busy = true ∧ (busyWith []).host.pending = [] ∧
      (busyWith [w32 0x020#32 0#32]).host.pending
        = .access ⟨0x020#32, .four, .write 0#32⟩ :: [] ∧ (1#32 : Word) ≠ 0#32 := by decide
theorem witness_IdleCoreDoesNothing :
    (idleWith small []).busy = false ∧ (idleWith small []).host.pending = [] ∧
      (idleWith small [.complete]).busy = false ∧
      (idleWith small [.complete]).host.pending = .complete :: [] := by decide
theorem witness_AccessEventUsesThePort :
    (idleWith small [w32 0x028#32 7#32]).host.pending = .access (write4 0x028#32 7#32) :: [] := by
  decide
theorem witness_RegistersAfterReset :
    small.legal ∧ Params.standard.legal ∧ roomy.legal ∧
      ∀ n ∈ [0x018, 0x01C, 0x03C, 0xFFC], (BitVec.ofNat 32 n : Word).toNat % 4 = 0 ∧
        ((BitVec.ofNat 32 n : Word).toNat = 0x018 ∨ (BitVec.ofNat 32 n : Word).toNat = 0x01C ∨
          (0x03C ≤ (BitVec.ofNat 32 n : Word).toNat ∧
            (BitVec.ofNat 32 n : Word).toNat ≤ 0xFFC)) := by decide
theorem witness_ResetEvent :
    (busyWith [.reset, .complete]).host.pending = .reset :: [.complete] := by decide
theorem witness_ResetMeetsInvariant :
    Params.legal { inCap := 1, outCap := 2 ^ 30, maxOrder := 254, maxCtx := 2 ^ 32 - 1 } := by
  decide
theorem witness_StepKeepsInvariant :
    Inv (busyWith []) ∧ step (busyWith []) = .next (nextOf (step (busyWith []))) := by
  refine ⟨⟨by decide, by decide, by decide, by decide, by decide, by decide, by decide, by decide,
    by decide, by decide, by decide, by decide, ?_⟩, eq_nextOf _ (by decide +kernel)⟩
  intro k h
  exact absurd h (by simp [busyWith, busyState, inFlight, resetRegs])
/-- Each case of R370 at a boundary, in a block with IN_CAP = OUT_CAP = 16; idle, then busy. -/
theorem witness_BusErrorsAsListed :
    ∀ a ∈ [read4 0x1000#32, read4 0x3FFFFFFF#32, read1 0xC0000000#32, read1 0xFFFFFFFF#32,
        read1 0x000#32, read4 0x002#32, read1 0x40000010#32, read4 0x40000000#32,
        read1 0x80000010#32, read4 0x80000000#32, write1 0x80000000#32 0#32],
      badAccess (idleWith small []) a := by decide
theorem witness_BusErrorsAsListed_okay :
    ∀ a ∈ [read4 0xFFC#32, read1 0x40000000#32, read1 0x4000000F#32, read1 0x8000000F#32,
        write4 0x02C#32 0xFFFFFFFF#32],
      ¬ badAccess (idleWith small []) a := by decide
theorem witness_BusErrorsAsListed_busy :
    ∀ a ∈ [write1 0x4000000F#32 0#32, write4 0x02C#32 0#32, read1 0x80000000#32],
      badAccess (inFlight small 1#32 [0x41]) a := by decide
theorem witness_BusErrorsAsListed_busy_okay :
    ∀ a ∈ [read1 0x4000000F#32, write4 0x020#32 1#32],
      ¬ badAccess (inFlight small 1#32 [0x41]) a := by decide
theorem witness_ReadsHaveNoSideEffect :
    (read1 0x80000000#32).dir = .read ∧
      ({ compressed with host := { pending :=
          [.access (read1 0x80000000#32), .access (read1 0x80000000#32)], response := none } }
        : State).host.pending
        = .access (read1 0x80000000#32) :: .access (read1 0x80000000#32) :: [] ∧
      regionOf (read1 0x80000000#32).addr = .outWindow 0 ∧
      (memGet compressed.outMem 0).isSome = true := by decide +kernel
theorem witness_ReadsHaveNoSideEffect_error :
    (idleWith small [.access (read4 0x002#32), .access (read4 0x002#32)]).host.pending
        = .access (read4 0x002#32) :: .access (read4 0x002#32) :: [] ∧
      badAccess (idleWith small [.access (read4 0x002#32), .access (read4 0x002#32)])
        (read4 0x002#32) := by decide
theorem witness_ConstantRegisters : (busyWith []).params.legal ∧ compressed.params.legal := by
  decide +kernel
theorem witness_IntEnAndInLenWrites :
    (idleWith small []).busy = false ∧ (busyWith []).busy = true := by decide
theorem witness_IgnoredWrites :
    ∀ n ∈ [0x000, 0x014, 0x018, 0x01C, 0x030, 0x038, 0x03C, 0xFFC],
      (BitVec.ofNat 32 n : Word).toNat < 0x1000 ∧ (BitVec.ofNat 32 n : Word).toNat % 4 = 0 ∧
        ignoresWrites (BitVec.ofNat 32 n : Word).toNat ∧
        (n = 0x018 ∨ n = 0x01C ∨ 0x03C ≤ n →
          (BitVec.ofNat 32 n : Word).toNat = 0x018 ∨ (BitVec.ofNat 32 n : Word).toNat = 0x01C ∨
            0x03C ≤ (BitVec.ofNat 32 n : Word).toNat) := by
  unfold ignoresWrites; decide
theorem witness_InMemWindow :
    (16 < 2 ^ 30 ∧ (Size.one ≠ .one ∨ small.inCap ≤ 16)) ∧
      (15 < 2 ^ 30 ∧ (Size.two ≠ .one ∨ small.inCap ≤ 15)) ∧
      (2 ^ 30 - 1 < 2 ^ 30 ∧ (Size.one ≠ .one ∨ small.inCap ≤ 2 ^ 30 - 1)) ∧
      (15 < (idleWith small []).params.inCap ∧ (idleWith small []).busy = false) ∧
      (0 < busyState.params.inCap ∧ busyState.busy = true) := by decide
theorem witness_OutMemWindow :
    (16 < 2 ^ 30 ∧ (Size.one ≠ .one ∨ small.outCap ≤ 16 ∨ (idleWith small []).busy = true)) ∧
      (15 < 2 ^ 30 ∧ (Size.four ≠ .one ∨ small.outCap ≤ 15 ∨ (idleWith small []).busy = true)) ∧
      (15 < 2 ^ 30 ∧ (Size.one ≠ .one ∨ small.outCap ≤ 15 ∨ busyState.busy = true)) ∧
      (45 < compressed.params.outCap ∧ compressed.busy = false ∧
        memGet compressed.outMem 45 = some 0xF4#8) := by decide +kernel
theorem witness_OperandsFrozenWhileBusy : busyState.busy = true := by decide
theorem witness_AccessFrame :
    (read4 0x020#32).dir = .read ∧ 0x1000 ≤ (write4 0x1000#32 1#32).addr.toNat ∧
      (write4 0x3FFFFFFF#32 1#32).addr.toNat < 0x40000000 ∧
      0x80000000 ≤ (write4 0x80000000#32 1#32).addr.toNat := by decide
theorem witness_NopDoesNothing :
    (0x00000100#32 : Word).extractLsb' 0 4 = 0#4 ∧ (0x00000100#32 : Word) ≠ 0#32 ∧
      (busyWith [w32 0x020#32 0#32]).host.pending
        = .access ⟨0x020#32, .four, .write 0#32⟩ :: [] := by decide
theorem witness_NonzeroWordAccepted :
    let s := idleWith small [w32 0x020#32 0xFFFFFFFF#32]
    s.busy = false ∧ (0xFFFFFFFF#32 : Word) ≠ 0#32 ∧
      s.host.pending = .access ⟨0x020#32, .four, .write 0xFFFFFFFF#32⟩ :: [] := by decide
theorem witness_WordWhileBusyDropped :
    let s := busyWith [w32 0x020#32 2#32]
    s.busy = true ∧ (2#32 : Word) ≠ 0#32 ∧
      s.host.pending = .access ⟨0x020#32, .four, .write 2#32⟩ :: [] := by decide
theorem witness_CompletionIsThePseudocode :
    executeResult (.compress 0#8) busyState.params busyState.regs.inLen.toNat busyState.input
      = some (.ok (bytes c46) 44 1) := by decide +kernel
theorem witness_CompressWritesContainer :
    busyState.params.legal ∧ (0#8 : Byte).toNat ≤ busyState.params.maxOrder ∧
      busyState.regs.inLen.toNat ≤ busyState.params.inCap ∧ 0 < busyState.regs.inLen.toNat ∧
      (freqModel (0#8 : Byte).toNat busyState.input).length ≤ busyState.params.maxCtx ∧
      (container (0#8 : Byte).toNat busyState.input).length ≤ busyState.params.outCap := by
  decide +kernel
/-- The five clauses of R318: order 2 over MAX_ORDER 1; 17 bytes over IN_CAP 16; no input; two contexts
over MAX_CTX 1; a 27-byte container over OUT_CAP 16. -/
theorem witness_CompressChecksInOrder :
    small.maxOrder < (2#8 : Byte).toNat ∧
      ((1#8 : Byte).toNat ≤ small.maxOrder ∧
        small.inCap < (inFlight small 0x101#32 (List.replicate 17 0x41)).regs.inLen.toNat) ∧
      (inFlight small 1#32 []).regs.inLen.toNat = 0 ∧
      (let s := inFlight small 0x101#32 [0x41, 0x42]
       s.regs.inLen.toNat ≤ s.params.inCap ∧ s.regs.inLen.toNat ≠ 0 ∧
         s.params.maxCtx < (freqModel (1#8 : Byte).toNat s.input).length) ∧
      (let s := inFlight small 1#32 [0x41]
       s.regs.inLen.toNat ≤ s.params.inCap ∧ s.regs.inLen.toNat ≠ 0 ∧
         (freqModel (0#8 : Byte).toNat s.input).length ≤ s.params.maxCtx ∧
         s.params.outCap < (container (0#8 : Byte).toNat s.input).length) := by decide +kernel

/-- The block busy with DECOMPRESS on the 46-byte container. -/
def unpacking : State := inFlight Params.standard 2#32 c46

/-- What its header parses to. -/
def header46 : Header :=
  { origLen := 10, order := 0, count := 1, hlen := 44,
    wt := [([], [(0x41#8, 5), (0x42#8, 3), (0x43#8, 2)])] }

theorem witness_DecompressWritesOutput :
    unpacking.params.legal ∧ unpacking.regs.inLen.toNat ≤ unpacking.params.inCap ∧
      parseHeader unpacking.params unpacking.input = .ok header46 ∧
      unpack (codeStoreOf header46.wt) header46.order header46.origLen
        (bytesBits (unpacking.input.drop header46.hlen)) = .ok (bytes abc) := by decide +kernel
theorem witness_DecompressChecksInOrder :
    (let s := inFlight small 2#32 (List.replicate 17 0)
     s.params.inCap < s.regs.inLen.toNat) ∧
      (let s := inFlight small 2#32 [0, 0, 0]
       s.regs.inLen.toNat ≤ s.params.inCap ∧
         parseHeader s.params s.input = .error .truncatedHeader) ∧
      (let s := inFlight Params.standard 2#32 c46.dropLast
       s.regs.inLen.toNat ≤ s.params.inCap ∧ parseHeader s.params s.input = .ok header46 ∧
         unpack (codeStoreOf header46.wt) header46.order header46.origLen
           (bytesBits (s.input.drop header46.hlen)) = .error .bitstreamExhausted) := by
  decide +kernel
/-- Every case of HDRP's refusals before the records, at its boundary, with OUT_CAP = 16, MAX_ORDER = 1
and MAX_CTX = 1. -/
theorem witness_HeaderRefused :
    HeaderRefused small (zeros 7) .truncatedHeader ∧
      HeaderRefused small (beBytes 8 17 ++ []) .capacityExceeded ∧
      HeaderRefused small (beBytes 8 16) .truncatedHeader ∧
      HeaderRefused small (beBytes 8 16 ++ [0#8] ++ []) .corruptHeader ∧
      HeaderRefused small (beBytes 8 16 ++ [3#8] ++ []) .capacityExceeded ∧
      HeaderRefused small (beBytes 8 16 ++ [2#8] ++ zeros 3) .truncatedHeader ∧
      HeaderRefused small (headerStart 1 16 2 ++ []) .capacityExceeded :=
  ⟨.shortLength _ (by decide), .longOutput 17 [] (by decide) (by decide), .noBlockSize 16 (by decide),
    .zeroBlockSize 16 [] (by decide), .largeOrder 16 2 [] (by decide) (by decide) (by decide),
    .shortCount 16 1 _ (by decide) (by decide) (by decide),
    .manyContexts 16 1 2 [] (by decide) (by decide) (by decide) (by decide)⟩
/-- Every case at a record, at order 1 after a record with the key 00. -/
theorem witness_RecordRefused :
    RecordRefused 1 [[0#8]] [] .truncatedHeader ∧
      RecordRefused 1 [[0#8]] ([0#8] ++ []) .corruptHeader ∧
      RecordRefused 1 [[0#8]] ([1#8] ++ zeros 3) .truncatedHeader ∧
      RecordRefused 1 [[0#8]] ([1#8] ++ beBytes 4 0 ++ []) .corruptHeader ∧
      RecordRefused 1 [[0#8]] ([1#8] ++ beBytes 4 257 ++ []) .corruptHeader ∧
      RecordRefused 1 [[0#8]]
        ([1#8] ++ beBytes 4 1 ++ [(0x41#8, 0)].flatMap (writeEntry [1#8]) ++ []) .corruptHeader :=
  ⟨.shortKey _ (by decide), .repeatedKey [0#8] [] (by decide) (by decide),
    .shortCount [1#8] _ (by decide) (by decide) (by decide),
    .badCount [1#8] [] 0 (by decide) (by decide) (by decide) (by decide),
    .badCount [1#8] [] 257 (by decide) (by decide) (by decide) (by decide),
    .zeroTotal [1#8] [] 1 [(0x41#8, 0)] (by decide) (by decide) (by unfold goodEntries; decide)
      (by decide) (by decide)⟩
/-- Every case at a symbol entry, after an entry with the final byte 41. -/
theorem witness_EntryRefused :
    EntryRefused [1#8] [0x41#8] [1#8] .truncatedHeader ∧
      EntryRefused [1#8] [0x41#8] ([2#8, 0x42#8] ++ []) .corruptHeader ∧
      EntryRefused [1#8] [0x41#8] ([1#8] ++ [0x41#8] ++ []) .corruptHeader ∧
      EntryRefused [1#8] [0x41#8] ([1#8] ++ [0x42#8] ++ zeros 7) .truncatedHeader :=
  ⟨.shortSymbol _ (by decide), .otherContext [2#8, 0x42#8] [] (by decide) (by decide),
    .repeatedByte 0x41#8 [] (by decide), .shortWeight 0x42#8 _ (by decide) (by decide)⟩
/-- An entry's refusal is its record's and its header's. -/
theorem witness_HeaderRefused_entry :
    small.legal ∧ HeaderRefused small (headerStart 1 16 1 ++ [].flatMap writeRecord
      ++ ([1#8] ++ beBytes 4 2 ++ [(0x41#8, 5)].flatMap (writeEntry [1#8])
        ++ ([1#8] ++ [0x41#8] ++ []))) .corruptHeader :=
  ⟨by decide, .record 16 1 1 [] _ _ (by decide)
    ⟨by decide, by decide, by decide, by simp, by simp⟩ (by decide)
    (.entry [1#8] _ 2 [(0x41#8, 5)] _ (by decide) (by decide) (by unfold goodEntries; decide)
      (by decide) (.repeatedByte 0x41#8 [] (by decide)))⟩
theorem witness_ErrorCompletionChanges :
    let s := { State.resetWith Params.standard with cmd := 1#32, phase := Phase.check }
    Inv s ∧ s.busy = true ∧
      executeResult (.compress 0#8) s.params s.regs.inLen.toNat s.input
        = some (.err .emptyInput) := by
  refine ⟨⟨by decide, by decide, by decide, by decide, by decide, by decide, by decide, by decide,
    by decide, by decide, by decide, by decide, ?_⟩, by decide, by decide⟩
  intro k h
  exact absurd h (by simp [State.resetWith, resetRegs])
/-- A block in flight whose input fits meets the invariant. -/
theorem inFlight_inv (p : Params) (w : Word) (input : List Nat) (hp : p.legal) (hw : w ≠ 0#32)
    (hl : input.length ≤ p.inCap) : Inv (inFlight p w input) where
  legal := hp
  doneErr := by simp [inFlight, resetRegs]
  busyFlags := fun _ => ⟨rfl, rfl, rfl⟩
  errCode := by simp [inFlight, resetRegs]
  errRange := by simp [inFlight, resetRegs]
  busyResults := fun _ => ⟨rfl, rfl, rfl⟩
  busyCmd := fun _ => hw
  settled := .inr rfl
  inWf := memPutAll_wf 0 _ [] (by simp)
  inBound := mem_putAll_bound 0 p.inCap _ [] (by simp) (by simpa [bytes] using hl)
  outWf := by simp [inFlight, State.resetWith]
  outBound := by simp [inFlight, State.resetWith]
  outDefined := by simp [inFlight, resetRegs]
/-- A state that meets the statement's hypotheses for each of the other six errors of Table 14: too short
a header, a zero block_size, a body with no record, a body cut short, an order above MAX_ORDER, and an
illegal word. -/
theorem witness_ErrorCompletionChanges_codes :
    ∀ x ∈ [(Instr.decompress, 2#32, [0], ErrKind.truncatedHeader),
        (.decompress, 2#32, [0, 0, 0, 0, 0, 0, 0, 1, 0], .corruptHeader),
        (.decompress, 2#32, [0, 0, 0, 0, 0, 0, 0, 1, 1, 0, 0, 0, 0, 0x80], .unknownContext),
        (.decompress, 2#32, c46.dropLast, .bitstreamExhausted),
        (.compress 3#8, 0x301#32, [0x41], .capacityExceeded),
        (.illegal 3#32, 3#32, [], .illegalCommand)],
      let s := inFlight Params.standard x.2.1 x.2.2.1
      Inv s ∧ s.busy = true ∧
        executeResult x.1 s.params s.regs.inLen.toNat s.input = some (.err x.2.2.2) := by
  intro x hx
  refine ⟨inFlight_inv _ _ _ (by decide) ?_ ?_, rfl, ?_⟩ <;> revert x <;> decide +kernel
theorem witness_CommandFrame :
    exec (.compress 0#8) busyState = .next compressed ∧ Instr.compress 0#8 ≠ .nop :=
  ⟨exec_busyState, by decide⟩
theorem witness_HiddenStateUnobserved :
    sameVisible busyState { busyState with
      work := { zeroWork with dead := true, bitpos := 7 }
      stores := { emptyStores with freq := [([], [(0x41#8, 1)])] } } := by
  unfold sameVisible; rfl
/-- Two blocks with the same input that differ in an interrupt enable, a byte beyond IN_LEN and a hidden
register. -/
theorem witness_CompressDeterministic :
    let t := { busyState with
      inMem := memPut 10 0xEE#8 busyState.inMem
      regs := { busyState.regs with intEn := intEnWrite 7#32 }
      work := { zeroWork with dead := true } }
    busyState.params = t.params ∧ busyState.regs.inLen = t.regs.inLen ∧
      (∀ k, k < busyState.regs.inLen.toNat → busyState.inByte k = t.inByte k) ∧
      busyState.regs.status.done = false ∧ t.regs.status.done = false ∧
      goesOn (exec (.compress 0#8) busyState) = true ∧ goesOn (exec (.compress 0#8) t) = true ∧
      (nextOf (exec (.compress 0#8) busyState)).regs.status.done = true := by decide +kernel

/-! Tables and trees. -/

/-- TB-9's table: its total is 2^64 + 2, so it is scaled; it has a zero weight. -/
def tb9 : WeightTable := [(0x41#8, 3), (0x42#8, 0), (0x43#8, 2 ^ 64 - 1)]

theorem goodTable_tb9 : goodTable tb9 := by unfold goodTable; decide
theorem goodTable_single : goodTable [(0x78#8, 1)] := by unfold goodTable; decide
theorem goodTable_abc : goodTable [(0x41#8, 5), (0x42#8, 3), (0x43#8, 2)] := by
  unfold goodTable; decide

theorem witness_CountsSumToPositions :
    ([0x41#8], [(0x42#8, 2)]) ∈ freqModel 1 (bytes [0x41, 0x42, 0x41, 0x42]) := by decide +kernel
theorem witness_TablesAreTheContexts :
    [0x00#8] ∈ windows (zeros 1) (bytes [0x41, 0x42, 0x41, 0x42]) ∧
      ([0x00#8], [(0x41#8, 1)]) ∈ freqModel 1 (bytes [0x41, 0x42, 0x41, 0x42]) := by decide +kernel
theorem witness_ScalingEnds :
    tb9.length ≤ 256 ∧ (∀ e ∈ tb9, e.2 < 2 ^ 64) ∧ 2 ^ 64 - 1 < tableTotal tb9 ∧
      tableTotal [(0x41#8, 2 ^ 64 - 1)] ≤ 2 ^ 64 - 1 := by decide
theorem witness_CompressNeverScales :
    (bytes abc).length ≤ 2 ^ 30 ∧
      ([], [(0x41#8, 5), (0x42#8, 3), (0x43#8, 2)]) ∈ freqModel 0 (bytes abc) ∧
      scale tb9 ≠ tb9 := by decide +kernel
theorem witness_TreeIsFull :
    (goodTable tb9 ∧ 2 ≤ tb9.length) ∧
      (goodTable [(0x78#8, 1)] ∧ [(0x78#8, 1)].length = 1) :=
  ⟨⟨goodTable_tb9, by decide⟩, goodTable_single, by decide⟩
/-- R210's tree, whose ties pin D21: two internal nodes of one weight, the earlier one on the left. -/
theorem witness_TreeIsFull_ranks :
    ∃ t, buildTree [(0x41#8, 1), (0x42#8, 1), (0x43#8, 1), (0x44#8, 1)] = some t ∧
      treeAt t [] = some (.internal 2 4 (.internal 0 2 (.leaf 0x41#8 1) (.leaf 0x42#8 1))
        (.internal 1 2 (.leaf 0x43#8 1) (.leaf 0x44#8 1))) ∧
      treeAt t [false] = some (.internal 0 2 (.leaf 0x41#8 1) (.leaf 0x42#8 1)) ∧
      treeAt t [true] = some (.internal 1 2 (.leaf 0x43#8 1) (.leaf 0x44#8 1)) :=
  ⟨.internal 2 4 (.internal 0 2 (.leaf 0x41#8 1) (.leaf 0x42#8 1))
    (.internal 1 2 (.leaf 0x43#8 1) (.leaf 0x44#8 1)), by decide +kernel, by decide, by decide,
    by decide⟩
/-- The tree of the worked example R209. -/
def treeAbc : Tree :=
  .internal 1 10 (.leaf 0x41#8 5) (.internal 0 5 (.leaf 0x43#8 2) (.leaf 0x42#8 3))
theorem witness_NodeWeightsFit :
    goodTable [(0x41#8, 5), (0x42#8, 3), (0x43#8, 2)] ∧
      buildTree [(0x41#8, 5), (0x42#8, 3), (0x43#8, 2)] = some treeAbc ∧
      treeAt treeAbc [true] = some (.internal 0 5 (.leaf 0x43#8 2) (.leaf 0x42#8 3)) :=
  ⟨goodTable_abc, by decide +kernel, by decide⟩
theorem witness_SingleEntryTree : 1 ≤ 2 ^ 64 - 1 ∧ 2 ^ 64 - 1 < 2 ^ 64 := by decide
theorem witness_TwoEntryCodes :
    ((0x00#8 : Byte).toNat < (0xFF#8 : Byte).toNat ∧ 2 ^ 64 - 1 < 2 ^ 64 ∧
      0 < (2 ^ 64 - 1) + (2 ^ 64 - 1) ∧ 2 ^ 64 - 1 = 2 ^ 64 - 1) ∧
      ((0x7F#8 : Byte).toNat < (0x80#8 : Byte).toNat ∧ 0 < 2 ^ 64 ∧ 1 < 2 ^ 64 ∧ 0 < 0 + 1) := by
  decide
theorem witness_HeavierIsNotDeeper :
    goodTable [(0x41#8, 5), (0x42#8, 3), (0x43#8, 2)] ∧
      lookupKey 0x41#8 (scale [(0x41#8, 5), (0x42#8, 3), (0x43#8, 2)]) = some 5 ∧
      lookupKey 0x43#8 (scale [(0x41#8, 5), (0x42#8, 3), (0x43#8, 2)]) = some 2 ∧ 2 < 5 :=
  ⟨goodTable_abc, by decide +kernel, by decide +kernel, by decide⟩
theorem witness_CodesCoverTheTable : goodTable tb9 := goodTable_tb9
theorem witness_CodesPrefixFree :
    goodTable [(0x41#8, 5), (0x42#8, 3), (0x43#8, 2)] ∧
      (0x41#8, [false]) ∈ codesOf [(0x41#8, 5), (0x42#8, 3), (0x43#8, 2)] ∧
      (0x42#8, [true, true]) ∈ codesOf [(0x41#8, 5), (0x42#8, 3), (0x43#8, 2)] ∧
      (0x41#8 : Byte) ≠ 0x42#8 :=
  ⟨goodTable_abc, by decide +kernel, by decide +kernel, by decide⟩
theorem witness_CodesComplete :
    (goodTable tb9 ∧ 2 ≤ tb9.length) ∧
      (goodTable [(0x78#8, 1)] ∧ [(0x78#8, 1)].length = 1) :=
  ⟨⟨goodTable_tb9, by decide⟩, goodTable_single, by decide⟩
/-- A leaf, an internal node, the placeholder, and a string that leads nowhere. -/
theorem witness_TreeWalkIsTheLookup :
    (goodTable [(0x41#8, 5), (0x42#8, 3), (0x43#8, 2)] ∧
      buildTree [(0x41#8, 5), (0x42#8, 3), (0x43#8, 2)] = some treeAbc ∧
      treeAt treeAbc [true, true] = some (.leaf 0x42#8 3) ∧
      treeAt treeAbc [] = some treeAbc ∧ treeAt treeAbc [false, false] = none) ∧
      (goodTable [(0x78#8, 1)] ∧
        buildTree [(0x78#8, 1)] = some (.internal 0 1 .placeholder (.leaf 0x78#8 1)) ∧
        treeAt (.internal 0 1 .placeholder (.leaf 0x78#8 1)) [false] = some .placeholder) :=
  ⟨⟨goodTable_abc, by decide +kernel, by decide, by decide, by decide⟩, goodTable_single,
    by decide +kernel, by decide⟩
theorem witness_HeaderLengthFormula :
    ∀ r ∈ freqModel 1 (bytes [0x41, 0x42, 0x41, 0x42]), r.1.length = 1 := by decide +kernel
/-- Two records with keys and entries in descending order. -/
theorem witness_ParserInvertsWriter :
    let R : FreqModel := [([0x42#8], [(0x43#8, 2 ^ 64 - 1), (0x41#8, 0)]), ([0x00#8], [(0x42#8, 1)])]
    roomy.legal ∧ acceptable roomy 1 (2 ^ 20) R := by
  unfold acceptable goodRecord; decide +kernel
theorem witness_ParserInvertsWriter_converse :
    Params.standard.legal ∧ parseHeader Params.standard (bytes c46) = .ok header46 := by
  decide +kernel
theorem witness_ParserReturnsTheModel :
    Params.standard.legal ∧ 1 ≤ Params.standard.maxOrder ∧
      (bytes abc).length ≤ Params.standard.outCap ∧ (bytes abc).length ≤ 2 ^ 30 ∧
      (freqModel 1 (bytes abc)).length ≤ Params.standard.maxCtx := by decide +kernel

/-- AAAAABBBCC as code bits: A 0, B 11, C 10 (R286). -/
def abcBits : Bits :=
  [false, false, false, false, false, true, true, true, true, true, true, true, false, true, false]

theorem witness_UnpackInvertsPack :
    packBits (codeStoreOf (freqModel 0 (bytes abc))) (zeros 0) (bytes abc) = some abcBits := by
  decide +kernel
theorem witness_AccumulatorBound :
    ∀ r ∈ ([([], tb9), ([0x41#8], [(0x78#8, 1)])] : FreqModel), goodTable r.2 := by
  intro r h
  simp only [List.mem_cons, List.not_mem_nil, or_false] at h
  rcases h with rfl | rfl
  · exact goodTable_tb9
  · exact goodTable_single
/-- The sixteenth bit, the padding, is not read. -/
theorem witness_TrailingBitsIgnored :
    unpackRun (codeStoreOf (freqModel 0 (bytes abc))) 0 10 (abcBits ++ [false]) =
      ({ cw := [], acc := [], dead := false, bitpos := 15, out := bytes abc }, none) := by
  decide +kernel
theorem witness_RoundTrip :
    busyState.params.legal ∧ busyState.regs.status.done = false ∧
      exec (.compress 0#8) busyState = .next compressed ∧ compressed.regs.status.done = true ∧
      unpacking.params = busyState.params ∧ unpacking.regs.inLen = compressed.regs.outLen ∧
      (∀ k, k < compressed.regs.outLen.toNat → unpacking.inByte k = compressed.outByte k) ∧
      compressed.regs.outLen.toNat ≤ busyState.params.inCap ∧
      busyState.regs.inLen.toNat ≤ busyState.params.outCap :=
  ⟨by decide, by decide, exec_busyState, by decide +kernel, by decide, by decide +kernel,
    by decide +kernel, by decide +kernel, by decide⟩
theorem witness_TruncatedContainerFails :
    let u := inFlight Params.standard 2#32 c46.dropLast
    busyState.params.legal ∧ busyState.regs.status.done = false ∧
      exec (.compress 0#8) busyState = .next compressed ∧ compressed.regs.status.done = true ∧
      u.params = busyState.params ∧ u.regs.inLen.toNat + 1 = compressed.regs.outLen.toNat ∧
      (∀ k, k < u.regs.inLen.toNat → u.inByte k = compressed.outByte k) ∧
      u.regs.inLen.toNat ≤ busyState.params.inCap ∧
      busyState.regs.inLen.toNat ≤ busyState.params.outCap :=
  ⟨by decide, by decide, exec_busyState, by decide +kernel, by decide, by decide +kernel,
    by decide +kernel, by decide +kernel, by decide⟩

end Sys2Proof.Tests
end

namespace Sys2Proof.Machine

/-! ### The schedule: what one step can do -/

/-- An access event performs the access; that a CTRL write of the word 0 runs NOP changes nothing more
(R310, R313). -/
theorem hostStep_eq (a : Access) (s : State) : hostStep a s = .next (s.performAccess a) := by
  unfold hostStep
  split
  · split <;> rfl
  · rfl

theorem step_access {s : State} {a : Access} {rest : List Event}
    (h : s.host.pending = .access a :: rest) :
    step s = .next ((s.advance rest).performAccess a) := by
  simp only [step, h, hostStep_eq]

theorem coreStep_busy {s : State} (h : s.busy = true) : coreStep s = exec (decode s.cmd) s := if_pos h

theorem coreStep_idle {s : State} (h : s.busy = false) : coreStep s = .next s := by
  simp [coreStep, h]

/-- What a step that goes on can do: an access; a completion, by its event or at the end of the schedule;
a completion event while idle; a reset; nothing, at the end of the schedule while idle. -/
theorem step_cases {s t : State} (h : step s = .next t) :
    (∃ a rest, s.host.pending = .access a :: rest ∧ t = (s.advance rest).performAccess a) ∨
    (∃ rest, (s.host.pending = .complete :: rest ∨ s.host.pending = [] ∧ rest = []) ∧
      s.busy = true ∧ exec (decode s.cmd) (s.advance rest) = .next t) ∨
    (∃ rest, s.host.pending = .complete :: rest ∧ s.busy = false ∧ t = s.advance rest) ∨
    (∃ rest, s.host.pending = .reset :: rest ∧ t = (s.advance rest).resetEvent) ∨
    (s.host.pending = [] ∧ s.busy = false ∧ t = s) := by
  have completion (rest : List Event) (hb : s.busy = true) :
      coreStep (s.advance rest) = exec (decode s.cmd) (s.advance rest) := coreStep_busy hb
  have noCompletion (rest : List Event) (hb : s.busy = false) :
      coreStep (s.advance rest) = .next (s.advance rest) := coreStep_idle hb
  unfold step at h
  split at h
  case h_1 a rest hp =>
    rw [hostStep_eq] at h
    cases h
    exact .inl ⟨a, rest, hp, rfl⟩
  case h_2 rest hp =>
    cases hb : s.busy with
    | true => exact .inr (.inl ⟨rest, .inl hp, rfl, completion rest hb ▸ h⟩)
    | false =>
      rw [noCompletion rest hb] at h
      cases h
      exact .inr (.inr (.inl ⟨rest, hp, rfl, rfl⟩))
  case h_3 rest hp =>
    cases h
    exact .inr (.inr (.inr (.inl ⟨rest, hp, rfl⟩)))
  case h_4 hp =>
    cases hb : s.busy with
    | true =>
      rw [if_pos hb] at h
      exact .inr (.inl ⟨[], .inr ⟨hp, rfl⟩, rfl, completion [] hb ▸ h⟩)
    | false =>
      rw [if_neg (by simp [hb])] at h
      cases h
      exact .inr (.inr (.inr (.inr ⟨hp, rfl, rfl⟩)))

/-! ### The length of a packed body (R281 to R285) -/

/-- An update that adds `c` to the measure of the key's entry, or enters it with measure `c`, adds `c` to
the sum of the measures. -/
theorem sum_map_alterKey {α β : Type} [DecidableEq α] (lt : α → α → Bool) (k : α)
    (f : Option β → β) (μ : α × β → Nat) (c : Nat) (hnew : μ (k, f none) = c)
    (hold : ∀ v, μ (k, f (some v)) = μ (k, v) + c) (m : List (α × β)) :
    ((alterKey lt k f m).map μ).sum = (m.map μ).sum + c := by
  induction m with
  | nil => simp [alterKey, hnew]
  | cons e m ih =>
    obtain ⟨k', v⟩ := e
    by_cases hk : k = k'
    · subst hk
      simp [alterKey, hold]
      omega
    · by_cases hl : lt k k' = true
      · simp [alterKey, hk, hl, hnew]
        omega
      · simp [alterKey, hk, hl, ih]
        omega

/-- Counting one more `b` after `cw` adds the length of the code that PACK emits for it. -/
theorem codeBits_countSymbol (C : CodeStore) (cw : Bytes) (b : Byte) (F : FreqModel) :
    codeBits (countSymbol cw b F) C
      = codeBits F C + ((encodeLookup C cw b).getD []).length := by
  have table : ∀ T : WeightTable,
      ((alterKey byteLt b (fun c => c.getD 0 + 1) T).map
          (fun e => e.2 * ((encodeLookup C cw e.1).getD []).length)).sum
        = (T.map (fun e => e.2 * ((encodeLookup C cw e.1).getD []).length)).sum
          + ((encodeLookup C cw b).getD []).length :=
    sum_map_alterKey _ _ _ _ _ (by simp) (by intro v; simp [Nat.succ_mul])
  exact sum_map_alterKey _ _ _ _ _ (by simpa using table []) (by simpa using table) F

/-- What PACK emits from any point of the input has the length that the counts and code lengths of the
rest of FREQ's run add up to. -/
theorem codeBits_freqFrom (C : CodeStore) (cw : Bytes) (F : FreqModel) (input : Bytes) (bits : Bits)
    (h : packBits C cw input = some bits) :
    codeBits (freqFrom cw F input) C = codeBits F C + bits.length := by
  induction input generalizing cw F bits with
  | nil =>
    cases h
    rfl
  | cons b rest ih =>
    obtain ⟨code, hcode, more, hmore, rfl⟩ :
        ∃ code, encodeLookup C cw b = some code ∧
          ∃ more, packBits C (slide cw b) rest = some more ∧ code ++ more = bits := by
      simpa [packBits, Option.bind_eq_some_iff] using h
    rw [freqFrom, ih _ _ _ hmore, codeBits_countSymbol, hcode, List.length_append,
      Option.getD_some, Nat.add_assoc]

theorem packBits_length (C : CodeStore) (o : Nat) (input : Bytes) (bits : Bits)
    (h : packBits C (zeros o) input = some bits) :
    bits.length = codeBits (freqModel o input) C := by
  have := codeBits_freqFrom C (zeros o) [] input bits h
  simpa [freqModel, codeBits] using this.symm

theorem packBytes_length (s : Bits) : (packBytes s).length = (s.length + 7) / 8 := by
  simp only [packBytes, padBits, List.length_map, List.length_range, List.length_append,
    List.length_replicate]
  omega

/-! ### The length of an unpacked output (R292, R301) -/

theorem unpackFrom_out_length_le (C : CodeStore) (L : Nat) (body : Bits) (u : Unpacked)
    (h : u.out.length ≤ L) : (unpackFrom C L body u).1.out.length ≤ L := by
  induction body generalizing u with
  | nil =>
    unfold unpackFrom
    split <;> exact h
  | cons b rest ih =>
    unfold unpackFrom
    dsimp only
    split
    case isFalse => exact h
    case isTrue hlt =>
      split
      · exact h
      · split
        · exact ih _ (by simpa using hlt)
        · split
          · exact ih _ h
          · exact h

/-! ### Phases of COMPRESS that go on -/

/-- The input operand depends on IN_MEM, its unwritten bytes' reset and IN_LEN only (R123). -/
theorem input_eq {s t : State} (hmem : t.inMem = s.inMem) (hepoch : t.epoch = s.epoch)
    (hlen : t.regs.inLen = s.regs.inLen) : t.input = s.input :=
  input_congr t s hlen fun _ _ => by simp [State.inByte, hmem, hepoch]

theorem bind_ok {ε α β : Type} {x : Except ε α} {f : α → Except ε β} {b : β}
    (h : x >>= f = .ok b) : ∃ a, x = .ok a ∧ f a = .ok b := by
  cases x with
  | error e => cases h
  | ok a => exact ⟨a, rfl, h⟩

theorem checkCompress_ok {o : Byte} {s t : State} (h : checkCompress o s = .ok t) :
    t.outMem = s.outMem ∧ t.params = s.params := by
  unfold checkCompress raiseError at h
  dsimp only at h
  split at h
  · cases h
  split at h
  · cases h
  split at h <;> cases h
  exact ⟨rfl, rfl⟩

/-- After FREQ the store holds the model of the input for the order in ORD (R173). -/
theorem phaseFreq_ok {s t : State} (h : phaseFreq s = .ok t) :
    t.stores.freq = freqModel t.work.ord.toNat t.input ∧ t.outMem = s.outMem ∧
      t.params = s.params := by
  unfold phaseFreq raiseError at h
  dsimp only at h
  split at h <;> cases h
  exact ⟨congrArg (freqModel _) (Eq.symm <| input_eq (s := s) rfl rfl rfl), rfl, rfl⟩

/-- What TREE and CODEGEN leave as it was: all that the later phases use but the codes (R200, R221). -/
theorem buildPhase_phaseCodegen_ok {p q : Phase} {F : FreqModel} {s t : State}
    (h : buildPhase p F s = .ok t) :
    (phaseCodegen q t).stores.freq = s.stores.freq ∧ (phaseCodegen q t).work = s.work ∧
      (phaseCodegen q t).input = s.input ∧ (phaseCodegen q t).outMem = s.outMem ∧
      (phaseCodegen q t).params = s.params := by
  unfold buildPhase at h
  split at h <;> cases h
  exact ⟨rfl, rfl, input_eq rfl rfl rfl, rfl, rfl⟩

/-- Check 5 of R318 passed: the header and the code bits that the counts add up to fit OUT_MEM. -/
theorem checkSize_ok {s t : State} (h : checkSize s = .ok t) :
    t = s ∧ (writeHeader s.work.ord.toNat s.regs.inLen.toNat s.stores.freq).length
        + (codeBits s.stores.freq s.stores.code + 7) / 8 ≤ s.params.outCap := by
  unfold checkSize raiseError at h
  dsimp only at h
  split at h <;> cases h
  exact ⟨rfl, by omega⟩

/-- PACK after HDRW: one run of bytes, the header and then the packed code bits (R241, R282). -/
theorem phasePack_phaseHdrw_ok {s t : State} (h : phasePack (phaseHdrw s) = .ok t) :
    ∃ bits, packBits s.stores.code (zeros s.work.ord.toNat) s.input = some bits ∧
      let out := writeHeader s.work.ord.toNat s.regs.inLen.toNat s.stores.freq ++ packBytes bits
      t.outMem = memPutAll 0 out s.outMem ∧ t.work.outpos = out.length := by
  have hinput : (phaseHdrw s).input = s.input := input_eq rfl rfl rfl
  unfold phasePack at h
  rw [hinput] at h
  dsimp only at h
  split at h <;> cases h
  next bits hbits =>
    refine ⟨bits, hbits, ?_, by simp [phaseHdrw]⟩
    simp [memPutAll_append, phaseHdrw]

/-- COMPRESS that completes wrote one run of bytes from OUT_MEM[0] upward, which is OUT_LEN bytes long
and fits: the size it checked is the size it wrote (R315, R317). -/
theorem compressPhases_ok {o : Byte} {s u : State} {n hl k : Nat}
    (h : compressPhases o s = .ok (u, n, hl, k)) :
    ∃ out, u.outMem = memPutAll 0 out s.outMem ∧ n = out.length ∧
      out.length ≤ s.params.outCap := by
  unfold compressPhases at h
  obtain ⟨s₁, h₁, h⟩ := bind_ok h
  obtain ⟨s₂, h₂, h⟩ := bind_ok h
  obtain ⟨s₃, h₃, h⟩ := bind_ok h
  obtain ⟨s₄, h₄, h⟩ := bind_ok h
  obtain ⟨s₅, h₅, h⟩ := bind_ok h
  cases h
  obtain ⟨hmem₁, hparams₁⟩ := checkCompress_ok h₁
  obtain ⟨hfreq, hmem₂, hparams₂⟩ := phaseFreq_ok h₂
  obtain ⟨hfreq₃, hwork₃, hinput₃, hmem₃, hparams₃⟩ := buildPhase_phaseCodegen_ok (q := .codegen) h₃
  obtain ⟨rfl, hsize⟩ := checkSize_ok h₄
  obtain ⟨bits, hbits, hmem, hpos⟩ := phasePack_phaseHdrw_ok h₅
  have hlen := packBits_length _ _ _ _ hbits
  refine ⟨_, hmem.trans ?_, hpos, ?_⟩
  · rw [hmem₃, hmem₂, hmem₁]
  · rw [hwork₃, hinput₃, ← hfreq, ← hfreq₃] at hlen
    rw [hparams₃, hparams₂, hparams₁] at hsize
    rwa [List.length_append, packBytes_length, hlen]

/-! ### Phases of DECOMPRESS that go on -/

theorem checkDecompress_ok {s t : State} (h : checkDecompress s = .ok t) :
    t.outMem = s.outMem ∧ t.params = s.params := by
  unfold checkDecompress raiseError at h
  dsimp only at h
  split at h <;> cases h
  exact ⟨rfl, rfl⟩

/-- A header that parses names a length that fits OUT_MEM (R257). -/
theorem parseHeader_origLen_le {p : Params} {input : Bytes} {hd : Header}
    (h : parseHeader p input = .ok hd) : hd.origLen ≤ p.outCap := by
  unfold parseHeader at h
  obtain ⟨⟨origLen, rest⟩, -, h⟩ := bind_ok h
  dsimp only at h
  split at h
  case isTrue => cases h
  case isFalse hfits =>
    obtain ⟨⟨blockSize, rest⟩, -, h⟩ := bind_ok h
    dsimp only at h
    split at h
    · cases h
    split at h
    · cases h
    obtain ⟨⟨count, rest⟩, -, h⟩ := bind_ok h
    dsimp only at h
    split at h
    · cases h
    obtain ⟨⟨WT, rest⟩, -, h⟩ := bind_ok h
    cases h
    exact Nat.not_lt.mp hfits

theorem phaseHdrp_ok {s : State} {r : State × Nat} (h : phaseHdrp s = .ok r) :
    r.1.work.origLen.toNat ≤ s.params.outCap ∧ r.1.outMem = s.outMem := by
  unfold phaseHdrp raiseError at h
  dsimp only at h
  split at h <;> cases h
  next hd hparse =>
    refine ⟨?_, rfl⟩
    calc (BitVec.ofNat 64 hd.origLen).toNat ≤ hd.origLen := by
          rw [BitVec.toNat_ofNat]; exact Nat.mod_le _ _
      _ ≤ s.params.outCap := parseHeader_origLen_le hparse

theorem phaseUnpack_ok {s t : State} (h : phaseUnpack s = .ok t) :
    ∃ out, t.outMem = memPutAll 0 out s.outMem ∧ t.work.outpos = out.length ∧
      out.length ≤ s.work.origLen.toNat := by
  unfold phaseUnpack raiseError at h
  dsimp only at h
  split at h <;> cases h
  exact ⟨_, rfl, rfl, unpackFrom_out_length_le _ _ _ _ (Nat.zero_le _)⟩

/-- DECOMPRESS that completes wrote one run of bytes from OUT_MEM[0] upward, which is OUT_LEN bytes long
and fits, as original_length does (R257, R301). -/
theorem decompressPhases_ok {s u : State} {n hl k : Nat}
    (h : decompressPhases s = .ok (u, n, hl, k)) :
    ∃ out, u.outMem = memPutAll 0 out s.outMem ∧ n = out.length ∧
      out.length ≤ s.params.outCap := by
  unfold decompressPhases at h
  obtain ⟨s₁, h₁, h⟩ := bind_ok h
  obtain ⟨⟨s₂, k'⟩, h₂, h⟩ := bind_ok h
  obtain ⟨s₃, h₃, h⟩ := bind_ok h
  obtain ⟨s₄, h₄, h⟩ := bind_ok h
  cases h
  obtain ⟨hmem₁, hparams₁⟩ := checkDecompress_ok h₁
  obtain ⟨hfits, hmem₂⟩ := phaseHdrp_ok h₂
  obtain ⟨-, hwork₃, -, hmem₃, -⟩ := buildPhase_phaseCodegen_ok (q := .rebuild) h₃
  obtain ⟨out, hmem, hpos, hlen⟩ := phaseUnpack_ok h₄
  refine ⟨out, ?_, hpos, ?_⟩
  · rw [hmem, hmem₃, hmem₂, hmem₁]
  · rw [hwork₃] at hlen
    rw [hparams₁] at hfits
    exact hlen.trans hfits

/-! ### How a command ends -/

/-- The results whose output fits OUT_MEM (R317, R327). -/
def Result.fits (p : Params) : Result → Prop
  | .ok out _ _ => out.length ≤ p.outCap
  | .err _ => True

/-- Whatever the phases did to the state, the completion leaves the effect of a result on `s`: the phases
change only what the completion writes over, and the run of bytes in OUT_MEM. -/
theorem finish_complete {s t : State} {x : Except Stop (State × Nat × Nat × Nat)}
    (hx : framed s (fun r => r.1) x)
    (hout : ∀ u n hl k, x = .ok (u, n, hl, k) →
      ∃ out, u.outMem = memPutAll 0 out s.outMem ∧ n = out.length ∧ out.length ≤ s.params.outCap)
    (h : finish x = .next t) : ∃ r, Result.fits s.params r ∧ t = s.complete r := by
  rcases finish_cases hx h with ⟨u, n, hl, k, hok, hu, rfl⟩ | ⟨u, e, -, hu, rfl⟩
  · obtain ⟨out, hmem, rfl, hlen⟩ := hout u n hl k hok
    refine ⟨.ok out hl k, hlen, ?_⟩
    rw [hu, hmem]
    rfl
  · exact ⟨.err e, trivial, by rw [hu]; rfl⟩

/-- How a command ends when it goes on: NOP does nothing, and every other command completes with some
result, `Ok` with an output that fits or `Err` (R312, R313). -/
theorem exec_cases {i : Instr} {s t : State} (h : exec i s = .next t) :
    (i = .nop ∧ t = s) ∨ ∃ r, Result.fits s.params r ∧ t = s.complete r := by
  cases i with
  | nop =>
    cases h
    exact .inl ⟨rfl, rfl⟩
  | compress o =>
    exact .inr (finish_complete (compressPhases_framed o s) (fun _ _ _ _ => compressPhases_ok) h)
  | decompress =>
    exact .inr (finish_complete (decompressPhases_framed s) (fun _ _ _ _ => decompressPhases_ok) h)
  | illegal w =>
    cases h
    exact .inr ⟨.err .illegalCommand, trivial, rfl⟩

/-! ### The invariant -/

/-- The invariant does not speak of the model's own fields. -/
theorem Inv.modelFields {s : State} (h : Inv s) (host : HostPort) (draws epoch : Nat) :
    Inv { s with host := host, draws := draws, epoch := epoch } := { h with }

theorem Inv.advance {s : State} (h : Inv s) (rest : List Event) : Inv (s.advance rest) :=
  h.modelFields _ _ _

theorem Inv.respond {s : State} (h : Inv s) (r : Response) : Inv (s.respond r) :=
  h.modelFields _ _ _

theorem inv_resetWith {p : Params} (hp : p.legal) : Inv (State.resetWith p) where
  legal := hp
  doneErr := by simp [State.resetWith, resetRegs]
  busyFlags := by simp [State.resetWith, State.busy]
  errCode := by simp [State.resetWith, resetRegs]
  errRange := by simp [State.resetWith, resetRegs]
  busyResults := by simp [State.resetWith, State.busy]
  busyCmd := by simp [State.resetWith, State.busy]
  settled := .inl rfl
  inWf := .nil
  inBound := by simp [State.resetWith]
  outWf := .nil
  outBound := by simp [State.resetWith]
  outDefined := by simp [State.resetWith, resetRegs]

theorem Inv.resetEvent {s : State} (h : Inv s) : Inv s.resetEvent :=
  (inv_resetWith h.legal).modelFields _ _ _

/-- A STATUS write only clears, and clears ERR and ERRCODE together (R43). -/
theorem Inv.writeStatus {s : State} (h : Inv s) (v : Word) : Inv (s.writeStatus v) :=
  { h with
    doneErr := fun ⟨hdone, herr⟩ =>
      h.doneErr ⟨(Bool.and_eq_true_iff.mp hdone).1, (Bool.and_eq_true_iff.mp herr).1⟩
    busyFlags := fun hb => by
      obtain ⟨hdone, herr, hcode⟩ := h.busyFlags hb
      simp [statusWrite, hdone, herr, hcode]
    errCode := by
      cases hv : v[2]
      · simpa [statusWrite, hv] using h.errCode
      · simp [statusWrite, hv]
    errRange := by
      cases hv : v[2]
      · simpa [statusWrite, hv] using h.errRange
      · simp [statusWrite, hv] }

/-- Acceptance of a non-zero word clears the flags and zeroes the result registers (R311). -/
theorem Inv.accept {s : State} (h : Inv s) {w : Word} (hw : w ≠ 0#32) : Inv (s.accept w) :=
  { h with
    doneErr := by simp [statusAccept]
    busyFlags := fun _ => ⟨rfl, rfl, rfl⟩
    errCode := by simp [statusAccept]
    errRange := by simp [statusAccept]
    busyResults := fun _ => ⟨rfl, rfl, rfl⟩
    busyCmd := fun _ => hw
    settled := .inr rfl
    outDefined := by simp }

theorem Inv.present {s : State} (h : Inv s) (w : Word) : Inv (s.present w) := by
  rcases present_cases w s with ⟨-, heq⟩ | ⟨-, -, heq⟩ | ⟨hw, -, heq⟩ <;> rw [heq]
  · exact h
  · exact { h with }
  · exact h.accept hw

theorem Inv.writeIn {s : State} (h : Inv s) {off : Nat} (hoff : off < s.params.inCap) (b : Byte) :
    Inv (s.writeIn off b) :=
  { h with
    inWf := memPut_wf off b s.inMem h.inWf
    inBound := fun c hc => by
      rcases mem_alter_key off _ s.inMem c hc with hc | hc
      · exact hc ▸ hoff
      · exact h.inBound c hc }

theorem Inv.performAccess {s : State} (h : Inv s) (a : Access) : Inv (s.performAccess a) := by
  rcases performAccess_cases a s with ⟨r, heq⟩ | ⟨v, t, -, ht, heq⟩ <;> rw [heq]
  · exact h.respond r
  · refine Inv.respond ?_ _
    rcases writePort_cases a.addr a.size v s t ht with ⟨-, hreg⟩ | ⟨off, -, hoff, -, rfl⟩
    · rcases writeReg_cases _ v s t hreg with rfl | rfl | rfl | rfl | ⟨-, rfl⟩
      · exact h
      · exact h.present v
      · exact h.writeStatus v
      · exact { h with }
      · exact { h with }
    · exact h.writeIn hoff _

/-- An error completion keeps the zeroed result registers, so that no OUT_MEM byte need be defined
(R312, R364, R365). -/
theorem Inv.completeErr {s : State} (h : Inv s) (hb : s.busy = true) (e : ErrKind) :
    Inv (s.completeErr e) := by
  obtain ⟨hdone, -, -⟩ := h.busyFlags hb
  obtain ⟨hlen, -, -⟩ := h.busyResults hb
  exact { h with
    doneErr := by simp [statusError, hdone]
    busyFlags := by simp [State.busy]
    errCode := by cases e <;> simp [statusError, Machine.errCode]
    errRange := by cases e <;> simp [statusError, Machine.errCode]
    busyResults := by simp [State.busy]
    busyCmd := by simp [State.busy]
    settled := .inl rfl
    outWf := .nil
    outBound := by simp
    outDefined := by simp [hlen] }

/-- A completion without error leaves OUT_MEM[0 .. OUT_LEN) written (R57, R312). -/
theorem Inv.completeOk {s : State} (h : Inv s) (hb : s.busy = true) {out : Bytes} (hl k : Nat)
    (hfits : out.length ≤ s.params.outCap) :
    Inv ((s.writeOut 0 out).completeOk out.length hl k) := by
  obtain ⟨-, herr, hcode⟩ := h.busyFlags hb
  obtain ⟨-, -, -, hcap, -⟩ := h.legal
  have hlen : (BitVec.ofNat 32 out.length).toNat = out.length := by
    rw [BitVec.toNat_ofNat, Nat.mod_eq_of_lt (by omega)]
  exact { h with
    doneErr := by simp [statusDone, herr]
    busyFlags := by simp [State.busy]
    errCode := by simp [statusDone, herr, hcode]
    busyResults := by simp [State.busy]
    busyCmd := by simp [State.busy]
    settled := .inl rfl
    outWf := memPutAll_wf 0 out s.outMem h.outWf
    outBound := mem_putAll_bound 0 _ out s.outMem h.outBound (by simpa using hfits)
    outDefined := fun i hi => by
      have hi : i < out.length := hlen ▸ hi
      simp [memGet_putAll, hi] }

theorem Inv.complete {s : State} (h : Inv s) (hb : s.busy = true) {r : Result}
    (hr : Result.fits s.params r) : Inv (s.complete r) := by
  cases r with
  | ok out hl k => exact h.completeOk hb hl k hr
  | err e => exact h.completeErr hb e

theorem Inv.exec {i : Instr} {s t : State} (h : Inv s) (hb : s.busy = true)
    (he : exec i s = .next t) : Inv t := by
  rcases exec_cases he with ⟨-, rfl⟩ | ⟨r, hr, rfl⟩
  · exact h
  · exact h.complete hb hr

/-- Settles O12: the invariant is kept by each of the events a step can be, and by each way a command
can end. -/
theorem stepKeepsInvariant : Obligations.StepKeepsInvariant := by
  intro s t h hstep
  rcases step_cases hstep with ⟨a, rest, -, rfl⟩ | ⟨rest, -, hb, he⟩ | ⟨rest, -, -, rfl⟩ |
    ⟨rest, -, rfl⟩ | ⟨-, -, rfl⟩
  · exact (h.advance rest).performAccess a
  · exact (h.advance rest).exec hb he
  · exact h.advance rest
  · exact (h.advance rest).resetEvent
  · exact h

/-- Settles O11: after reset the block is idle, every flag is 0 and no buffer byte is listed. -/
theorem resetMeetsInvariant : Obligations.ResetMeetsInvariant := fun _ hp => inv_resetWith hp

/-! ### The frame of a command -/

/-- Settles O34: a command that goes on leaves the state alone or completes with a result, and a
completion keeps all that is listed. -/
theorem commandFrame : Obligations.CommandFrame := by
  intro i s t h
  rcases exec_cases h with ⟨hi, rfl⟩ | ⟨r, -, rfl⟩
  · simp [hi]
  · cases r <;> simp [State.complete, State.inByte, statusDone, statusError]

end Sys2Proof.Machine

namespace Sys2Proof.Machine

/-! ### Register accesses on the port (R35, R83) -/

section Registers
variable {s : State} {a v : Word} (hreg : a.toNat < 0x1000) (halign : a.toNat % 4 = 0)
include hreg halign

theorem readPort_register : readPort s a .four = some (readReg s a.toNat) := by
  simp [readPort, regionOf_registers a hreg, registerAccess, halign]

theorem performAccess_read_register :
    s.performAccess ⟨a, .four, .read⟩ = s.respond (.okay (readReg s a.toNat)) := by
  simp [State.performAccess, readPort_register hreg halign]

theorem writePort_register : writePort a .four v s = writeReg a.toNat v s := by
  simp [writePort, regionOf_registers a hreg, registerAccess, halign]

theorem performAccess_write_register {t : State} (h : writeReg a.toNat v s = some t) :
    s.performAccess ⟨a, .four, .write v⟩ = t.respond (.okay 0#32) := by
  simp [State.performAccess, writePort_register hreg halign, h]

theorem performAccess_write_register_refused (h : writeReg a.toNat v s = none) :
    s.performAccess ⟨a, .four, .write v⟩ = s.respond (.error 0#32) := by
  simp [State.performAccess, writePort_register hreg halign, h]

end Registers

theorem readReg_reserved (s : State) {off : Nat} (h : off = 0x018 ∨ off = 0x01C ∨ 0x03C ≤ off) :
    readReg s off = 0#32 := by
  unfold readReg
  split
  case h_13 => rfl
  all_goals omega

theorem writeReg_ignored (s : State) (v : Word) {off : Nat} (h : ignoresWrites off) :
    writeReg off v s = some s := by
  obtain ⟨hctrl, hstatus, hintEn, hinLen⟩ := h
  unfold writeReg
  split
  case h_5 => rfl
  all_goals contradiction

/-- Settles O15: the parameters fit 32 bits (R9), so that a register read gives them whole. -/
theorem constantRegisters : Obligations.ConstantRegisters := by
  intro s hp
  obtain ⟨-, hin, -, hout, hord, -, hctx⟩ := hp
  refine ⟨rfl, rfl, ⟨_, rfl, ?_⟩, ⟨_, rfl, ?_⟩, ⟨_, rfl, ?_⟩, ⟨_, rfl, ?_⟩, rfl⟩
  all_goals exact Nat.mod_eq_of_lt (by omega)

/-- Where the fields stand in the STATUS word (R43, Table 5). -/
theorem statusWord_fields (busy : Bool) (st : Status) :
    (statusWord busy st).getLsbD 0 = busy ∧ (statusWord busy st).getLsbD 1 = st.done ∧
      (statusWord busy st).getLsbD 2 = st.err ∧ (statusWord busy st).getLsbD 3 = st.rej ∧
      (statusWord busy st).extractLsb' 4 4 = 0#4 ∧
      (statusWord busy st).extractLsb' 8 4 = st.errcode ∧
      (statusWord busy st).extractLsb' 12 20 = 0#20 := by
  obtain ⟨done, err, rej, errcode⟩ := st
  revert busy done err rej errcode
  decide

/-- Settles O16: the read word's fields, the register write, and the word of the reset STATUS. -/
theorem statusReadAndWrite : Obligations.StatusReadAndWrite := by
  intro s v
  refine ⟨⟨_, rfl, statusWord_fields s.busy s.regs.status⟩,
    performAccess_read_register (by decide) (by decide),
    ⟨s.writeStatus v, 0#32, performAccess_write_register (by decide) (by decide) rfl, rfl,
      ?_, ?_, rfl, ?_⟩, fun p => ?_⟩
  · cases hv : v[1] <;> simp [statusWrite, hv]
  · cases hv : v[2] <;> simp [statusWrite, hv]
  · cases hv : v[3] <;> simp [statusWrite, hv]
  · rw [readPort_register (by decide) (by decide)]
    exact congrArg some (by decide : statusWord false resetRegs.status = 0#32)

/-- Where the enables stand in the INT_EN word; bits 31:3 are 0 (R49). -/
theorem intEnWord_bits (e : IntEn) :
    ∀ i < 32, (intEnWord e).getLsbD i = [e.doneIe, e.errIe, e.rejIe].getD i false := by
  obtain ⟨doneIe, errIe, rejIe⟩ := e
  revert doneIe errIe rejIe
  decide

theorem intEnWord_intEnWrite (v : Word) : intEnWord (intEnWrite v) = v &&& 7#32 := by
  have mask : ∀ i < 32, (7#32).getLsbD i = decide (i < 3) := by decide
  apply BitVec.eq_of_getLsbD_eq
  intro i hi
  rw [intEnWord_bits _ i hi, BitVec.getLsbD_and, mask i hi]
  match i with
  | 0 | 1 | 2 => simp [intEnWrite]
  | i + 3 => simp

/-- Settles O17: INT_EN keeps what the mask 7 keeps, and IN_LEN's write asks whether the block is busy. -/
theorem intEnAndInLenWrites : Obligations.IntEnAndInLenWrites := by
  intro s v
  refine ⟨⟨s.writeIntEn v, 0#32, performAccess_write_register (by decide) (by decide) rfl, rfl, ?_⟩,
    fun hb => ⟨s.writeInLen v, 0#32,
      performAccess_write_register (by decide) (by decide) ?_, rfl, rfl⟩,
    fun hb => ⟨0#32, performAccess_write_register_refused (by decide) (by decide) ?_⟩⟩
  · exact congrArg some (intEnWord_intEnWrite v)
  · simp [writeReg, hb]
  · simp [writeReg, hb]

/-- Settles O18: every offset but the four listed falls through the register write, and every reserved
one through the register read. -/
theorem ignoredWrites : Obligations.IgnoredWrites := by
  intro s a v hreg halign
  constructor
  · intro h
    exact ⟨0#32, performAccess_write_register hreg halign (writeReg_ignored s v h)⟩
  · intro h
    rw [readPort_register hreg halign, readReg_reserved s h]

/-- Settles O26: the CTRL write rejects the word. -/
theorem wordWhileBusyDropped : Obligations.WordWhileBusyDropped := by
  intro s w rest hb hw hp
  have hpresent : (s.advance rest).present w = (s.advance rest).reject := by
    rcases present_cases w (s.advance rest) with ⟨h0, -⟩ | ⟨-, -, heq⟩ | ⟨-, hidle, -⟩
    · exact absurd h0 hw
    · exact heq
    · exact absurd (hb.symm.trans hidle) (by decide)
  refine ⟨((s.advance rest).present w).respond (.okay 0#32), ?_, ⟨_, rfl⟩, ?_⟩
  · rw [step_access hp, performAccess_write_register (by decide) (by decide) rfl]
  · rw [hpresent]
    exact ⟨rfl, rfl, rfl, rfl, rfl, rfl, rfl, rfl⟩

end Sys2Proof.Machine

namespace Sys2Proof.Machine

/-! ### What the working registers and the stores can influence (R67) -/

/-- `s` with other working registers and stores. -/
def State.withHidden (w : Work) (st : Stores) (s : State) : State :=
  { s with work := w, stores := st }

theorem sameVisible_withHidden (w : Work) (st : Stores) (s : State) :
    sameVisible s (s.withHidden w st) := rfl

theorem eq_withHidden_of_sameVisible {s t : State} (h : sameVisible s t) :
    t = s.withHidden t.work t.stores := h.symm

theorem sameVisible_fields {s t : State} (h : sameVisible s t) :
    t.busy = s.busy ∧ t.cmd = s.cmd ∧ t.host = s.host := by
  rw [eq_withHidden_of_sameVisible h]
  exact ⟨rfl, rfl, rfl⟩

/-! #### On the port -/

section Port
variable (w : Work) (st : Stores) (s : State)

@[simp] theorem withHidden_params : (s.withHidden w st).params = s.params := rfl
@[simp] theorem withHidden_busy : (s.withHidden w st).busy = s.busy := rfl

theorem readPort_withHidden (addr : Word) (size : Size) :
    readPort (s.withHidden w st) addr size = readPort s addr size := rfl

theorem present_withHidden (v : Word) :
    (s.withHidden w st).present v = (s.present v).withHidden w st := by
  unfold State.present
  rw [withHidden_busy]
  split
  · rfl
  · split <;> rfl

theorem writeReg_withHidden (off : Nat) (v : Word) :
    writeReg off v (s.withHidden w st) = (writeReg off v s).map (State.withHidden w st) := by
  unfold writeReg
  split
  · exact congrArg some (present_withHidden w st s v)
  · rfl
  · rfl
  · rw [withHidden_busy]
    split <;> rfl
  · rfl

theorem writePort_withHidden (addr : Word) (size : Size) (data : Word) :
    writePort addr size data (s.withHidden w st)
      = (writePort addr size data s).map (State.withHidden w st) := by
  unfold writePort
  split
  · split
    · exact writeReg_withHidden w st s _ _
    · rfl
  · rw [withHidden_params, withHidden_busy]
    split <;> rfl
  · rfl
  · rfl

/-- An access does to a state with other hidden fields what it does to the state. -/
theorem performAccess_withHidden (a : Access) :
    (s.withHidden w st).performAccess a = (s.performAccess a).withHidden w st := by
  obtain ⟨addr, size, dir⟩ := a
  cases dir with
  | read =>
    simp only [State.performAccess, readPort_withHidden]
    split <;> rfl
  | write data =>
    simp only [State.performAccess, writePort_withHidden]
    cases writePort addr size data s <;> rfl

end Port

theorem performAccess_sameVisible (a : Access) {s t : State} (h : sameVisible s t) :
    sameVisible (s.performAccess a) (t.performAccess a) := by
  rw [eq_withHidden_of_sameVisible h, performAccess_withHidden]
  exact sameVisible_withHidden _ _ _

/-! #### In a command -/

/-- Two phases that end alike: both go on with results that `R` relates, both raise the same error in
states that differ only in hidden fields, or both end in the same fault. -/
inductive EndAlike {α : Type} (R : α → α → Prop) : Except Stop α → Except Stop α → Prop
  | ok {a b : α} : R a b → EndAlike R (.ok a) (.ok b)
  | raised {e : ErrKind} {s t : State} : sameVisible s t →
      EndAlike R (raiseError e s) (raiseError e t)
  | fault (f : Fault) : EndAlike R (.error (.fault f)) (.error (.fault f))

theorem EndAlike.bind {α β : Type} {R : α → α → Prop} {Q : β → β → Prop} {x y : Except Stop α}
    {k k' : α → Except Stop β} (hx : EndAlike R x y)
    (hk : ∀ a b, R a b → EndAlike Q (k a) (k' b)) : EndAlike Q (x >>= k) (y >>= k') := by
  cases hx with
  | ok h => exact hk _ _ h
  | raised h => exact .raised h
  | fault f => exact .fault f

theorem EndAlike.ite {α : Type} {R : α → α → Prop} {c : Prop} [Decidable c]
    {x y x' y' : Except Stop α} (h : EndAlike R x y) (h' : EndAlike R x' y') :
    EndAlike R (if c then x else x') (if c then y else y') := by
  split
  · exact h
  · exact h'

/-- Between two phases: the states agree on everything but the working registers, and of those on what
`key` gives, which is what the phases still to come read. -/
def agreeOn {κ : Type} (key : Work → κ) (s t : State) : Prop :=
  key t.work = key s.work ∧ { s with work := t.work } = t

theorem agreeOn.exists_work {κ : Type} {key : Work → κ} {s t : State} (h : agreeOn key s t) :
    ∃ w, key w = key s.work ∧ t = { s with work := w } := ⟨t.work, h.1, h.2.symm⟩

theorem input_withWork (s : State) (w : Work) : State.input { s with work := w } = s.input :=
  input_eq rfl rfl rfl

section Phases
variable {s t : State} {κ : Type} {key : Work → κ}

theorem checkCompress_alike (o : Byte) (h : sameVisible s t) :
    EndAlike (agreeOn Work.ord) (checkCompress o s) (checkCompress o t) := by
  rw [eq_withHidden_of_sameVisible h]
  exact .ite (.raised rfl) (.ite (.raised rfl) (.ite (.raised rfl) (.ok ⟨rfl, rfl⟩)))

theorem phaseFreq_alike (h : agreeOn Work.ord s t) :
    EndAlike (agreeOn Work.ord) (phaseFreq s) (phaseFreq t) := by
  obtain ⟨w, hw, rfl⟩ := h.exists_work
  simp only [phaseFreq, hw, input_withWork]
  exact .ite (.raised rfl) (.ok ⟨rfl, rfl⟩)

theorem buildPhase_alike (p : Phase) (F : FreqModel) (h : agreeOn key s t) :
    EndAlike (agreeOn key) (buildPhase p F s) (buildPhase p F t) := by
  obtain ⟨w, hw, rfl⟩ := h.exists_work
  unfold buildPhase
  split
  · exact .ok ⟨hw, rfl⟩
  · exact .fault _

theorem phaseCodegen_alike (p : Phase) (h : agreeOn key s t) :
    agreeOn key (phaseCodegen p s) (phaseCodegen p t) := by
  obtain ⟨w, hw, rfl⟩ := h.exists_work
  exact ⟨hw, rfl⟩

theorem checkSize_alike (h : agreeOn Work.ord s t) :
    EndAlike (agreeOn Work.ord) (checkSize s) (checkSize t) := by
  obtain ⟨w, hw, rfl⟩ := h.exists_work
  simp only [checkSize, hw]
  exact .ite (.raised rfl) (.ok ⟨hw, rfl⟩)

theorem phaseHdrw_alike (h : agreeOn Work.ord s t) :
    agreeOn (fun w => (w.ord, w.outpos, w.hlen)) (phaseHdrw s) (phaseHdrw t) := by
  obtain ⟨w, hw, rfl⟩ := h.exists_work
  constructor
  · simp [phaseHdrw, hw]
  · simp only [phaseHdrw, hw]
    rfl

theorem phasePack_alike (h : agreeOn (fun w => (w.ord, w.outpos, w.hlen)) s t) :
    EndAlike (agreeOn fun w => (w.outpos, w.hlen)) (phasePack s) (phasePack t) := by
  obtain ⟨w, hw, rfl⟩ := h.exists_work
  simp only [Prod.mk.injEq] at hw
  obtain ⟨hord, hpos, hlen⟩ := hw
  simp only [phasePack, hord, hpos, input_withWork]
  split
  · exact .fault _
  · exact .ok ⟨by simp [hpos, hlen], rfl⟩

theorem checkDecompress_alike (h : sameVisible s t) :
    EndAlike (agreeOn fun _ => ()) (checkDecompress s) (checkDecompress t) := by
  rw [eq_withHidden_of_sameVisible h]
  exact .ite (.raised rfl) (.ok ⟨rfl, rfl⟩)

theorem phaseHdrp_alike (h : agreeOn (fun _ => ()) s t) :
    EndAlike (fun r r' => agreeOn (fun w => (w.ord, w.origLen, w.hlen)) r.1 r'.1 ∧ r.2 = r'.2)
      (phaseHdrp s) (phaseHdrp t) := by
  obtain ⟨w, -, rfl⟩ := h.exists_work
  have hinput := input_withWork { s with phase := .hdrp } w
  simp only [phaseHdrp, hinput]
  split
  · exact .raised rfl
  · exact .ok ⟨⟨rfl, rfl⟩, rfl⟩

theorem phaseUnpack_alike (h : agreeOn (fun w => (w.ord, w.origLen, w.hlen)) s t) :
    EndAlike (agreeOn fun w => (w.outpos, w.hlen)) (phaseUnpack s) (phaseUnpack t) := by
  obtain ⟨w, hw, rfl⟩ := h.exists_work
  simp only [Prod.mk.injEq] at hw
  obtain ⟨hord, horig, hlen⟩ := hw
  simp only [phaseUnpack, hord, horig, hlen, input_withWork]
  split
  · exact .ok ⟨by simp [hlen], rfl⟩
  · exact .raised rfl

/-- Two ends of all phases with the same visible state and the same three result values. -/
def resultAlike (r r' : State × Nat × Nat × Nat) : Prop := sameVisible r.1 r'.1 ∧ r.2 = r'.2

theorem endAlike_result (h : agreeOn (fun w => (w.outpos, w.hlen)) s t) {k k' : Nat} (hk : k = k') :
    EndAlike resultAlike (.ok (s, s.work.outpos, s.work.hlen, k))
      (.ok (t, t.work.outpos, t.work.hlen, k')) := by
  obtain ⟨w, hw, rfl⟩ := h.exists_work
  simp only [Prod.mk.injEq] at hw
  obtain ⟨hpos, hlen⟩ := hw
  exact .ok ⟨rfl, by simp [hpos, hlen, hk]⟩

theorem agreeOn.stores_eq (h : agreeOn key s t) : t.stores = s.stores := by
  obtain ⟨w, -, rfl⟩ := h.exists_work
  rfl

end Phases

theorem compressPhases_alike {s t : State} (o : Byte) (h : sameVisible s t) :
    EndAlike resultAlike (compressPhases o s) (compressPhases o t) := by
  unfold compressPhases
  refine (checkCompress_alike o h).bind fun s t h => ?_
  refine (phaseFreq_alike h).bind fun s t h => ?_
  rw [h.stores_eq]
  refine (buildPhase_alike _ _ h).bind fun s t h => ?_
  refine (checkSize_alike (phaseCodegen_alike _ h)).bind fun s t h => ?_
  refine (phasePack_alike (phaseHdrw_alike h)).bind fun s t h => ?_
  exact endAlike_result h (by rw [h.stores_eq])

theorem decompressPhases_alike {s t : State} (h : sameVisible s t) :
    EndAlike resultAlike (decompressPhases s) (decompressPhases t) := by
  unfold decompressPhases
  refine (checkDecompress_alike h).bind fun s t h => ?_
  refine (phaseHdrp_alike h).bind fun r r' h => ?_
  obtain ⟨h, hk⟩ := h
  dsimp only
  rw [h.stores_eq]
  refine (buildPhase_alike _ _ h).bind fun s t h => ?_
  refine (phaseUnpack_alike (phaseCodegen_alike _ h)).bind fun s t h => ?_
  exact endAlike_result h hk

/-- A completion overwrites every hidden field, so that phases that end alike complete in one state. -/
theorem EndAlike.finish_eq {x y : Except Stop (State × Nat × Nat × Nat)}
    (h : EndAlike resultAlike x y) : finish x = finish y := by
  cases h with
  | @ok r r' h =>
    obtain ⟨s, vals⟩ := r
    obtain ⟨t, vals'⟩ := r'
    obtain ⟨hst : sameVisible s t, rfl : vals = vals'⟩ := h
    rw [eq_withHidden_of_sameVisible hst]
    rfl
  | @raised e s t h =>
    rw [eq_withHidden_of_sameVisible h]
    rfl
  | fault f => rfl

theorem sameVisibleOutcome_refl (o : Outcome) : sameVisibleOutcome o o := by
  cases o <;> rfl

theorem exec_sameVisible (i : Instr) {s t : State} (h : sameVisible s t) :
    sameVisibleOutcome (exec i s) (exec i t) := by
  have same {o o' : Outcome} (ho : o = o') : sameVisibleOutcome o o' :=
    ho ▸ sameVisibleOutcome_refl o
  cases i with
  | nop => exact h
  | compress o => exact same (compressPhases_alike o h).finish_eq
  | decompress => exact same (decompressPhases_alike h).finish_eq
  | illegal w => exact same (EndAlike.raised (by rw [eq_withHidden_of_sameVisible h]; rfl)).finish_eq

/-- The core's step, the end of the schedule included. -/
theorem coreStep_sameVisible {s t : State} (h : sameVisible s t) :
    sameVisibleOutcome (coreStep s) (coreStep t) := by
  obtain ⟨hbusy, hcmd, -⟩ := sameVisible_fields h
  unfold coreStep
  rw [hbusy, hcmd]
  split
  · exact exec_sameVisible _ h
  · exact h

/-- Settles O35: an access commutes with a change of the hidden fields, a command sets or overwrites what
it uses of them, and a reset sets them all. -/
theorem hiddenStateUnobserved : Obligations.HiddenStateUnobserved := by
  intro s t h
  obtain ⟨hbusy, -, hhost⟩ := sameVisible_fields h
  have advance (rest : List Event) : sameVisible (s.advance rest) (t.advance rest) :=
    congrArg (State.advance rest) h
  unfold step
  rw [hhost, hbusy]
  split
  case h_1 a rest _ =>
    rw [hostStep_eq, hostStep_eq]
    exact performAccess_sameVisible a (advance rest)
  case h_2 rest _ => exact coreStep_sameVisible (advance rest)
  case h_3 rest _ => exact congrArg State.resetEvent (advance rest)
  case h_4 =>
    split
    · exact coreStep_sameVisible (advance [])
    · exact h

end Sys2Proof.Machine

namespace Sys2Proof.Machine

/-! ### Answers of the port (R80) -/

/-- The answer to a read that the port gives as `readPort` does: with ERROR the data is 0 (R80). -/
def readAnswer : Option Word → Response
  | some v => .okay v
  | none => .error 0#32

section Answers
variable {s : State} {addr v : Word} {size : Size}

theorem performAccess_read :
    s.performAccess ⟨addr, size, .read⟩ = s.respond (readAnswer (readPort s addr size)) := by
  unfold State.performAccess readAnswer
  cases readPort s addr size <;> rfl

theorem performAccess_write {t : State} (h : writePort addr size v s = some t) :
    s.performAccess ⟨addr, size, .write v⟩ = t.respond (.okay 0#32) := by
  simp [State.performAccess, h]

theorem performAccess_write_refused (h : writePort addr size v s = none) :
    s.performAccess ⟨addr, size, .write v⟩ = s.respond (.error 0#32) := by
  simp [State.performAccess, h]

theorem step_read {rest : List Event} (h : s.host.pending = .access ⟨addr, size, .read⟩ :: rest) :
    step s = .next
      ((s.advance rest).respond (readAnswer (readPort (s.advance rest) addr size))) := by
  rw [step_access h, performAccess_read]

end Answers

/-- Settles O7: it is the rule of an access event. -/
theorem accessEventUsesThePort : Obligations.AccessEventUsesThePort := fun _ _ _ h => step_access h

/-! ### The two windows (R84, R85) -/

section Windows
variable {s : State} {addr : Word} {size : Size} {off : Nat}

theorem readPort_inWindow (h : regionOf addr = .inWindow off) :
    readPort s addr size =
      if size = .one ∧ off < s.params.inCap then some ((s.inByte off).zeroExtend 32) else none := by
  simp only [readPort, h]

theorem writePort_inWindow (h : regionOf addr = .inWindow off) (v : Word) :
    writePort addr size v s =
      if size = .one ∧ off < s.params.inCap ∧ s.busy = false then
        some (s.writeIn off (v.extractLsb' 0 8))
      else none := by
  simp only [writePort, h]

theorem readPort_outWindow (h : regionOf addr = .outWindow off) :
    readPort s addr size =
      if size = .one ∧ off < s.params.outCap ∧ s.busy = false then
        some ((s.outByte off).zeroExtend 32)
      else none := by
  simp only [readPort, h]

theorem writePort_outWindow (h : regionOf addr = .outWindow off) (v : Word) :
    writePort addr size v s = none := by
  simp only [writePort, h]

end Windows

theorem regionOf_inWindow_ofNat {off : Nat} (h : off < 2 ^ 30) :
    regionOf (BitVec.ofNat 32 (0x40000000 + off)) = .inWindow off := by
  have haddr : (BitVec.ofNat 32 (0x40000000 + off)).toNat = 0x40000000 + off :=
    Nat.mod_eq_of_lt (by omega)
  rw [regionOf_inWindow _ (by omega) (by omega), haddr, Nat.add_sub_cancel_left]

theorem regionOf_outWindow_ofNat {off : Nat} (h : off < 2 ^ 30) :
    regionOf (BitVec.ofNat 32 (0x80000000 + off)) = .outWindow off := by
  have haddr : (BitVec.ofNat 32 (0x80000000 + off)).toNat = 0x80000000 + off :=
    Nat.mod_eq_of_lt (by omega)
  rw [regionOf_outWindow _ (by omega) (by omega), haddr, Nat.add_sub_cancel_left]

theorem inByte_writeIn_self (s : State) (off : Nat) (b : Byte) : (s.writeIn off b).inByte off = b := by
  simp [State.inByte, memGet_put_self]

theorem inByte_writeIn_other (s : State) {off k : Nat} (b : Byte) (h : k ≠ off) :
    (s.writeIn off b).inByte k = s.inByte k := by
  simp [State.inByte, memGet_put_other off k b s.inMem h]

/-- Settles O19: both directions ask for size 1 and an offset below IN_CAP, and a write asks besides for
an idle block. -/
theorem inMemWindow : Obligations.InMemWindow := by
  intro s off hoff
  have hregion := regionOf_inWindow_ofNat hoff
  refine ⟨fun size dir hbad => ⟨0#32, ?_⟩, fun hcap => ⟨?_, fun v hb => ⟨0#32, ?_⟩,
    fun v hb => ⟨s.writeIn off (v.extractLsb' 0 8), 0#32, ?_, rfl, inByte_writeIn_self s off _,
      fun k hk => inByte_writeIn_other s _ hk⟩⟩⟩
  · have hnot : ¬ (size = .one ∧ off < s.params.inCap) := fun ⟨hsize, hlt⟩ =>
      hbad.elim (· hsize) (Nat.not_le_of_lt hlt)
    cases dir with
    | read => rw [performAccess_read, readPort_inWindow hregion, if_neg hnot]; rfl
    | write v =>
      refine performAccess_write_refused ?_
      rw [writePort_inWindow hregion, if_neg fun ⟨hsize, hlt, _⟩ => hnot ⟨hsize, hlt⟩]
  · rw [performAccess_read, readPort_inWindow hregion, if_pos ⟨rfl, hcap⟩]; rfl
  · exact performAccess_write_refused (by simp [writePort_inWindow hregion, hb])
  · exact performAccess_write (by simp [writePort_inWindow hregion, hcap, hb])

/-- Settles O20: no write is good in the window, and a read asks for size 1, an offset below OUT_CAP and
an idle block. -/
theorem outMemWindow : Obligations.OutMemWindow := by
  intro s off hoff
  have hregion := regionOf_outWindow_ofNat hoff
  refine ⟨fun size v => ⟨0#32, performAccess_write_refused (writePort_outWindow hregion v)⟩,
    fun size hbad => ⟨0#32, ?_⟩, fun hcap hb => ⟨?_, fun b hget => by simp [State.outByte, hget]⟩⟩
  · have hnot : ¬ (size = .one ∧ off < s.params.outCap ∧ s.busy = false) := by
      rintro ⟨hsize, hlt, hidle⟩
      rcases hbad with h | h | h
      · exact h hsize
      · omega
      · simp [hidle] at h
    rw [performAccess_read, readPort_outWindow hregion, if_neg hnot]; rfl
  · rw [performAccess_read, readPort_outWindow hregion, if_pos ⟨rfl, hcap, hb⟩]; rfl

/-! ### Reads (R80, R89) -/

/-- Only an unspecified OUT_MEM byte depends on the free value numbered by the read (R57, R89). -/
theorem readPort_redraw {s : State} {addr : Word} (size : Size) (host : HostPort) (draws : Nat)
    (hdef : ∀ off, regionOf addr = .outWindow off → (memGet s.outMem off).isSome = true) :
    readPort { s with host := host, draws := draws } addr size = readPort s addr size := by
  cases hr : regionOf addr with
  | registers off => simp only [readPort, hr]; rfl
  | inWindow off => simp only [readPort_inWindow hr]; rfl
  | outWindow off =>
    obtain ⟨b, hb⟩ := Option.isSome_iff_exists.mp (hdef off hr)
    simp only [readPort_outWindow hr, State.outByte, hb]; rfl
  | unmapped => simp only [readPort, hr]

/-- A read listed by R370 and R88 gets ERROR. -/
theorem readPort_of_badAccess {s : State} {addr : Word} {size : Size}
    (h : badAccess s ⟨addr, size, .read⟩) : readPort s addr size = none := by
  rcases h with hlow | hhigh | ⟨hreg, hbad⟩ | ⟨hlo, hhi, hbad⟩ | ⟨hlo, hhi, hbad⟩ | ⟨hb, hbad⟩
  · simp [readPort, regionOf_unmapped addr (.inl hlow)]
  · simp [readPort, regionOf_unmapped addr (.inr hhigh)]
  · simpa [readPort, regionOf_registers addr hreg, registerAccess, or_iff_not_imp_left] using hbad
  · rw [readPort_inWindow (regionOf_inWindow addr hlo hhi), if_neg]
    exact fun ⟨hsize, hlt⟩ => hbad.elim (· hsize) (Nat.not_le_of_lt hlt)
  · rw [readPort_outWindow (regionOf_outWindow addr hlo hhi), if_neg]
    rintro ⟨hsize, hlt, -⟩
    rcases hbad with hbad | hbad | hbad
    · exact hbad hsize
    · exact hbad rfl
    · exact Nat.not_le_of_lt hlt hbad
  · rcases hbad with ⟨-, -, hdir⟩ | ⟨-, hdir⟩ | ⟨hlo, hhi⟩
    · exact absurd rfl hdir
    · exact absurd rfl hdir
    · simp [readPort_outWindow (regionOf_outWindow addr hlo hhi), hb]

/-- Settles O14: a read answers with what `readPort` gives, and the second read differs from the first
only in the number of the free value it may draw. -/
theorem readsHaveNoSideEffect : Obligations.ReadsHaveNoSideEffect := by
  rintro s ⟨addr, size, dir⟩ rest rfl hp
  refine ⟨_, _, step_read hp, step_read rfl, rfl, rfl, fun hdef => ?_, fun hbad => ?_⟩
  · exact congrArg (some ∘ readAnswer)
      ((readPort_redraw size _ _ hdef).trans (readPort_redraw size _ _ hdef).symm)
  · exact congrArg (some ∘ readAnswer) (readPort_of_badAccess (s := s.advance _) hbad)

/-! ### What a write on the port can change (R83 to R85, R88) -/

theorem regionOf_eq_inWindow {addr : Word} {off : Nat} (h : regionOf addr = .inWindow off) :
    0x40000000 ≤ addr.toNat ∧ addr.toNat < 0x80000000 := by
  have hmap : addr.toNat < 0x1000 ∨
      ((0x1000 ≤ addr.toNat ∧ addr.toNat < 0x40000000) ∨ 0xC0000000 ≤ addr.toNat) ∨
      (0x80000000 ≤ addr.toNat ∧ addr.toNat < 0xC0000000) ∨
      (0x40000000 ≤ addr.toNat ∧ addr.toNat < 0x80000000) := by omega
  rcases hmap with hreg | hun | ⟨hlo, hhi⟩ | hin
  · simp [regionOf_registers addr hreg] at h
  · simp [regionOf_unmapped addr hun] at h
  · simp [regionOf_outWindow addr hlo hhi] at h
  · exact hin

/-- A register write touches the registers, CMD and SEQ.PHASE only. -/
theorem writeReg_frame {off : Nat} {v : Word} {s t : State} (h : writeReg off v s = some t) :
    ∃ regs cmd phase, t = { s with regs := regs, cmd := cmd, phase := phase } := by
  rcases writeReg_cases off v s t h with rfl | rfl | rfl | rfl | ⟨-, rfl⟩
  case inr.inl =>
    rcases present_cases v s with ⟨-, heq⟩ | ⟨-, -, heq⟩ | ⟨-, -, heq⟩ <;> rw [heq] <;>
      exact ⟨_, _, _, rfl⟩
  all_goals exact ⟨_, _, _, rfl⟩

/-- Settles O22: an access answers and, if it is a good write, changes what a register write changes or
one IN_MEM byte. -/
theorem accessFrame : Obligations.AccessFrame := by
  intro s a
  rcases performAccess_cases a s with ⟨r, heq⟩ | ⟨v, t, hdir, hwrite, heq⟩
  · simp only [heq]
    exact ⟨rfl, rfl, rfl, rfl, rfl, rfl, rfl, fun _ => rfl, fun _ => ⟨rfl, rfl, rfl⟩,
      fun _ => ⟨rfl, fun _ => rfl⟩⟩
  · simp only [heq, hdir]
    rcases writePort_cases a.addr a.size v s t hwrite with ⟨hreg, hw⟩ | ⟨off, hr, -, -, rfl⟩
    · obtain ⟨regs, cmd, phase, rfl⟩ := writeReg_frame hw
      refine ⟨rfl, rfl, rfl, rfl, rfl, rfl, rfl, fun _ => rfl, fun hout => ?_,
        fun _ => ⟨rfl, fun _ => rfl⟩⟩
      exact absurd hreg (Nat.not_lt_of_le (hout.resolve_left nofun))
    · obtain ⟨hlo, hhi⟩ := regionOf_eq_inWindow hr
      refine ⟨rfl, rfl, rfl, rfl, rfl, rfl, rfl, fun _ => rfl, fun _ => ⟨rfl, rfl, rfl⟩,
        fun hout => ?_⟩
      rcases hout.resolve_left nofun with h | h <;> omega

/-! ### Accesses while a command is in flight (R88, R97, R310) -/

/-- `s` with other flags, enables and host fields: all that an access to a busy block can change. -/
def State.withFlags (st : Status) (ie : IntEn) (host : HostPort) (s : State) : State :=
  { s with regs := { s.regs with status := st, intEn := ie }, host := host }

theorem writeReg_busy {off : Nat} {v : Word} {s t : State} (hb : s.busy = true)
    (h : writeReg off v s = some t) : ∃ st ie, t = s.withFlags st ie s.host := by
  rcases writeReg_cases off v s t h with rfl | rfl | rfl | rfl | ⟨hidle, -⟩
  · exact ⟨_, _, rfl⟩
  · rcases present_cases v s with ⟨-, heq⟩ | ⟨-, -, heq⟩ | ⟨-, hidle, -⟩
    · exact ⟨_, _, heq⟩
    · exact ⟨_, _, heq⟩
    · simp [hb] at hidle
  · exact ⟨_, _, rfl⟩
  · exact ⟨_, _, rfl⟩
  · simp [hb] at hidle

theorem performAccess_busy (a : Access) {s : State} (hb : s.busy = true) :
    ∃ st ie host, s.performAccess a = s.withFlags st ie host := by
  rcases performAccess_cases a s with ⟨r, heq⟩ | ⟨v, t, -, hwrite, heq⟩ <;> rw [heq]
  · exact ⟨_, _, _, rfl⟩
  · rcases writePort_cases a.addr a.size v s t hwrite with ⟨-, hw⟩ | ⟨-, -, -, hidle, -⟩
    · obtain ⟨st, ie, rfl⟩ := writeReg_busy hb hw
      exact ⟨_, _, _, rfl⟩
    · simp [hb] at hidle

theorem performAll_busy (as : List Access) {s : State} (hb : s.busy = true) :
    ∃ st ie host, performAll as s = s.withFlags st ie host := by
  induction as generalizing s with
  | nil => exact ⟨_, _, _, rfl⟩
  | cons a as ih =>
    obtain ⟨st, ie, host, ha⟩ := performAccess_busy a hb
    obtain ⟨st', ie', host', has⟩ := ih (s := s.performAccess a) (ha ▸ hb)
    refine ⟨st', ie', host', ?_⟩
    calc performAll (a :: as) s = (s.performAccess a).withFlags st' ie' host' := has
      _ = s.withFlags st' ie' host' := by rw [ha]; rfl

/-- Settles O21: accesses to a busy block change flags, enables and the host's fields only. -/
theorem operandsFrozenWhileBusy : Obligations.OperandsFrozenWhileBusy := by
  intro s as hb
  obtain ⟨st, ie, host, heq⟩ := performAll_busy as hb
  simp only [heq]
  exact ⟨hb, rfl, rfl, rfl, rfl, input_eq rfl rfl rfl, rfl, rfl, rfl, rfl⟩

end Sys2Proof.Machine

namespace Sys2Proof

/-! ### The fields of a command word (R120) -/

section Fields
variable (w : Word)

theorem wordOp_toNat : (wordOp w).toNat = w.toNat % 16 := by simp [wordOp]

theorem wordRsv0_toNat : (wordRsv0 w).toNat = w.toNat / 16 % 16 := by
  simp [wordRsv0, Nat.shiftRight_eq_div_pow]

theorem wordOrder_toNat : (wordOrder w).toNat = w.toNat / 256 % 256 := by
  simp [wordOrder, Nat.shiftRight_eq_div_pow]

theorem wordRsv1_toNat : (wordRsv1 w).toNat = w.toNat / 65536 := by
  have := w.isLt
  simp only [wordRsv1, BitVec.extractLsb'_toNat, Nat.shiftRight_eq_div_pow]
  omega

end Fields

/-- The four fields of Table 7 are the whole word. -/
theorem word_ext {v w : Word} (hop : wordOp v = wordOp w) (hrsv0 : wordRsv0 v = wordRsv0 w)
    (horder : wordOrder v = wordOrder w) (hrsv1 : wordRsv1 v = wordRsv1 w) : v = w := by
  have h0 := congrArg BitVec.toNat hop
  have h1 := congrArg BitVec.toNat hrsv0
  have h2 := congrArg BitVec.toNat horder
  have h3 := congrArg BitVec.toNat hrsv1
  simp only [wordOp_toNat, wordRsv0_toNat, wordOrder_toNat, wordRsv1_toNat] at h0 h1 h2 h3
  exact BitVec.eq_of_toNat_eq (by omega)

/-! #### Of COMPRESS (R122, R152) -/

section Compress
variable (o : Byte)

theorem encode_compress_toNat : (encode (.compress o)).toNat = o.toNat * 256 + 1 := by
  have ho := o.isLt
  have hshift : (o.zeroExtend 32 <<< 8).toNat = o.toNat <<< 8 := by
    simp only [BitVec.toNat_shiftLeft, BitVec.toNat_setWidth, Nat.shiftLeft_eq]
    omega
  calc (encode (.compress o)).toNat = o.toNat <<< 8 ||| 1 := by
        rw [encode, BitVec.toNat_or, hshift]; rfl
    _ = o.toNat <<< 8 + 1 := (Nat.shiftLeft_add_eq_or_of_lt (by norm_num) _).symm
    _ = o.toNat * 256 + 1 := by rw [Nat.shiftLeft_eq]

@[simp] theorem wordOp_encode_compress : wordOp (encode (.compress o)) = 1#4 :=
  BitVec.eq_of_toNat_eq (by rw [wordOp_toNat, encode_compress_toNat]; simp; omega)

@[simp] theorem wordRsv0_encode_compress : wordRsv0 (encode (.compress o)) = 0#4 :=
  BitVec.eq_of_toNat_eq (by rw [wordRsv0_toNat, encode_compress_toNat]; simp; omega)

@[simp] theorem wordOrder_encode_compress : wordOrder (encode (.compress o)) = o :=
  BitVec.eq_of_toNat_eq (by rw [wordOrder_toNat, encode_compress_toNat]; omega)

@[simp] theorem wordRsv1_encode_compress : wordRsv1 (encode (.compress o)) = 0#16 :=
  BitVec.eq_of_toNat_eq (by rw [wordRsv1_toNat, encode_compress_toNat]; simp; omega)

theorem encode_compress_ne_zero : encode (.compress o) ≠ 0#32 := fun h => by
  have hop := wordOp_encode_compress o
  rw [h] at hop
  exact absurd hop (by decide)

theorem decode_encode_compress (ho : o ≠ 255#8) : decode (encode (.compress o)) = .compress o := by
  simp [decode, encode_compress_ne_zero, ho]

end Compress

/-! ### The list of illegal words and the decoder (R124, R126) -/

theorem illegalWord_iff (w : Word) :
    illegalWord w = true ↔ w ≠ 0#32 ∧
      (wordOp w = 0#4 ∨ 3 ≤ (wordOp w).toNat ∨ wordRsv0 w ≠ 0#4 ∨ wordRsv1 w ≠ 0#16 ∨
        (wordOp w = 2#4 ∧ wordOrder w ≠ 0#8) ∨ (wordOp w = 1#4 ∧ wordOrder w = 255#8)) := by
  simp [illegalWord, wordOp, wordRsv0, wordOrder, wordRsv1, or_assoc]

theorem op_cases (op : BitVec 4) : op = 0#4 ∨ op = 1#4 ∨ op = 2#4 ∨ 3 ≤ op.toNat := by
  revert op; decide

theorem decode_illegal {w : Word} (h : illegalWord w = true) : decode w = .illegal w := by
  obtain ⟨hw, hop | hop | hrsv0 | hrsv1 | ⟨hop, hord⟩ | ⟨hop, hord⟩⟩ := (illegalWord_iff w).mp h
  · simp [decode, hw, hop]
  · have h1 : wordOp w ≠ 1#4 := fun h => by simp [h] at hop
    have h2 : wordOp w ≠ 2#4 := fun h => by simp [h] at hop
    simp [decode, hw, h1, h2]
  · simp [decode, hw, hrsv0]
  · simp [decode, hw, hrsv1]
  · simp [decode, hw, hop, hord]
  · simp [decode, hw, hop, hord]

/-- Settles O1: by the fields of a COMPRESS word, and by the list for an illegal word. -/
theorem decodeOfEncode : Obligations.DecodeOfEncode := by
  intro i hi
  cases i with
  | nop => decide
  | compress o => exact decode_encode_compress o (by simpa [Instr.wellFormed] using hi)
  | decompress => decide
  | illegal w => exact decode_illegal hi

/-- A word that is not on the list of R124 has the fields of NOP, of COMPRESS or of DECOMPRESS. -/
theorem exists_encode (w : Word) : ∃ i : Instr, i.wellFormed = true ∧ encode i = w := by
  by_cases hlist : illegalWord w = true
  · exact ⟨.illegal w, hlist, rfl⟩
  by_cases hzero : w = 0#32
  · exact ⟨.nop, rfl, hzero.symm⟩
  rw [illegalWord_iff] at hlist
  push Not at hlist
  obtain ⟨hop0, hop3, hrsv0, hrsv1, hord2, hord1⟩ := hlist hzero
  obtain hop | hop | hop | hop := op_cases (wordOp w)
  · exact absurd hop hop0
  · have horder : wordOrder w ≠ 255#8 := hord1 hop
    refine ⟨.compress (wordOrder w), by simpa [Instr.wellFormed] using horder, ?_⟩
    exact word_ext (by simp [hop]) (by simp [hrsv0]) (by simp) (by simp [hrsv1])
  · exact ⟨.decompress, rfl, word_ext hop.symm hrsv0.symm (hord2 hop).symm hrsv1.symm⟩
  · exact absurd hop (Nat.not_le.mpr hop3)

/-- Settles O2: every word is the encoding of a well-formed command, which decoding gives back. -/
theorem encodeOfDecode : Obligations.EncodeOfDecode := by
  intro w
  obtain ⟨i, hi, rfl⟩ := exists_encode w
  rw [decodeOfEncode i hi]
  exact ⟨hi, rfl⟩

theorem decode_eq_illegal_iff (w : Word) : decode w = .illegal w ↔ illegalWord w = true := by
  refine ⟨fun h => ?_, decode_illegal⟩
  obtain ⟨hwf, -⟩ := encodeOfDecode w
  rwa [h] at hwf

end Sys2Proof

namespace Sys2Proof.Machine

/-! ### Illegal words in flight (R330, R358) -/

/-- At the end of the schedule a command in flight completes (R405, R407). -/
theorem step_end_busy {s : State} (hb : s.busy = true) (hp : s.host.pending = []) :
    step s = exec (decode s.cmd) (s.advance []) := by
  simp only [step, hp, if_pos hb]
  exact coreStep_busy hb

theorem exec_illegal (w : Word) (s : State) :
    exec (.illegal w) s = .next ((phaseCheck s).completeErr .illegalCommand) := rfl

/-- Settles O3: the decoder's illegal words are the list's, and such a word's meaning is the error
completion with IllegalCommand. -/
theorem illegalWordsAsListed : Obligations.IllegalWordsAsListed := by
  refine fun w => ⟨decode_eq_illegal_iff w, fun hw s hb hcmd hp => ?_⟩
  subst hcmd
  exact ⟨_, by rw [step_end_busy hb hp, decode_illegal hw, exec_illegal], rfl, rfl, rfl⟩

/-- Settles O4: by evaluation of the decoder. -/
theorem specWordsDecode : Obligations.SpecWordsDecode := by
  unfold Obligations.SpecWordsDecode; decide

end Sys2Proof.Machine

namespace Sys2Proof.Machine

/-! ### Tables read in any order (R266) -/

section InsertAll
variable {α β : Type} [DecidableEq α] {lt : α → α → Bool}

/-- An insertion at a key that was not there loses no entry. -/
theorem insertKey_perm {k : α} {m : List (α × β)} (v : β) (hk : k ∉ m.map Prod.fst) :
    (insertKey lt k v m).Perm ((k, v) :: m) := by
  unfold insertKey
  induction m with
  | nil => exact .refl _
  | cons e m ih =>
    simp only [List.map_cons, List.mem_cons, not_or] at hk
    obtain ⟨hne, hm⟩ := hk
    rw [alterKey, if_neg hne]
    split
    · exact .refl _
    · exact ((ih hm).cons e).trans (.swap _ _ _)

/-- Reading entries with distinct new keys loses none of them. -/
theorem insertAll_perm {E T : List (α × β)} (hd : ((E ++ T).map Prod.fst).Nodup) :
    (insertAll lt E T).Perm (E ++ T) := by
  induction E generalizing T with
  | nil => exact .refl _
  | cons e E ih =>
    have hnew : e.1 ∉ T.map Prod.fst := fun hT => (List.nodup_cons.mp hd).1 (by simp_all)
    have hmove : (E ++ insertKey lt e.1 e.2 T).Perm (e :: (E ++ T)) :=
      ((insertKey_perm e.2 hnew).append_left E).trans List.perm_middle
    exact (ih ((hmove.map Prod.fst).nodup_iff.mpr hd)).trans hmove

theorem insertAll_ascending (E : List (α × β)) {T : List (α × β)} (hT : Ascending lt T)
    (tr : ∀ a b c, lt a b = true → lt b c = true → lt a c = true)
    (tot : ∀ a b, a ≠ b → lt a b = false → lt b a = true) : Ascending lt (insertAll lt E T) := by
  induction E generalizing T with
  | nil => exact hT
  | cons e E ih => exact ih (alter_ascending _ _ _ hT tr tot)

end InsertAll

theorem storedRecord_ascending (r : Bytes × WeightTable) : Ascending byteLt (storedRecord r).2 :=
  insertAll_ascending r.2 .nil byteLt_trans byteLt_total

theorem storedRecord_perm {r : Bytes × WeightTable} (hd : (r.2.map Prod.fst).Nodup) :
    (storedRecord r).2.Perm r.2 := by
  have hread := insertAll_perm (lt := byteLt) (E := r.2) (T := []) (by rwa [List.append_nil])
  rwa [List.append_nil] at hread

/-- The WT store after good records were read: the stored records, in canonical order. -/
theorem storedRecords_perm {R : FreqModel} (hd : (R.map Prod.fst).Nodup) :
    (insertAll bytesLt (R.map storedRecord) []).Perm (R.map storedRecord) := by
  have hread := insertAll_perm (lt := bytesLt) (E := R.map storedRecord) (T := [])
    (by rwa [List.append_nil, map_storedRecord_fst])
  rwa [List.append_nil] at hread

/-! ### The length of a header (R136) -/

@[simp] theorem headerStart_length (o n K : Nat) : (headerStart o n K).length = 13 := by
  simp [headerStart]

@[simp] theorem writeEntry_length (key : Bytes) (e : Byte × Nat) :
    (writeEntry key e).length = key.length + 1 + 8 := by
  simp [writeEntry]

@[simp] theorem writeRecord_length (r : Bytes × WeightTable) :
    (writeRecord r).length = r.1.length + 4 + r.2.length * (r.1.length + 1 + 8) := by
  simp [writeRecord, List.length_flatMap, Nat.add_assoc]

/-- Settles O50: 13 bytes before the records, and each record's key, count and entries. -/
theorem headerLengthFormula : Obligations.HeaderLengthFormula := by
  intro o n F hkeys
  have hrecords : F.map (fun r => (writeRecord r).length)
      = F.map (fun r => o + 4 + r.2.length * (o + 1 + 8)) :=
    List.map_congr_left fun r hr => by rw [writeRecord_length, hkeys r hr]
  rw [writeHeader, List.length_append, headerStart_length, List.length_flatMap, hrecords]

/-! ### The parser on a whole header (R255) -/

/-- An input whose header parses begins with three fields that pass their checks (R257 to R259). -/
theorem parseHeader_ok_start {p : Params} {input : Bytes} {h : Header}
    (hok : parseHeader p input = .ok h) :
    ∃ o n K rest, input = headerStart o n K ++ rest ∧ o ≤ p.maxOrder ∧ n ≤ p.outCap ∧
      K ≤ p.maxCtx ∧ K < 2 ^ 32 := by
  unfold parseHeader at hok
  obtain ⟨⟨lengthField, rest⟩, hlen, hok⟩ := bind_ok hok
  obtain ⟨rfl, hlen8⟩ := takeField_inv _ _ _ hlen
  dsimp only at hok hlen8
  split at hok
  case isTrue => cases hok
  next hn =>
  obtain ⟨⟨sizeField, rest⟩, hsize, hok⟩ := bind_ok hok
  obtain ⟨rfl, hsize1⟩ := takeField_inv _ _ _ hsize
  dsimp only at hok hsize1
  split at hok
  case isTrue => cases hok
  next hzero =>
  split at hok
  case isTrue => cases hok
  next ho =>
  obtain ⟨⟨countField, rest⟩, hcount, hok⟩ := bind_ok hok
  obtain ⟨rfl, hcount4⟩ := takeField_inv _ _ _ hcount
  dsimp only at hok hcount4
  split at hok
  case isTrue => cases hok
  next hK =>
  have flen : beBytes 8 (beValue lengthField) = lengthField := hlen8 ▸ beBytes_beValue _
  have fsize : [BitVec.ofNat 8 (beValue sizeField - 1 + 1)] = sizeField := by
    have := hsize1 ▸ beBytes_beValue sizeField
    rw [Nat.sub_add_cancel (Nat.pos_of_ne_zero hzero)]
    simpa [beBytes] using this
  have fcount : beBytes 4 (beValue countField) = countField := hcount4 ▸ beBytes_beValue _
  refine ⟨beValue sizeField - 1, beValue lengthField, beValue countField, rest, ?_, by omega,
    by omega, by omega, ?_⟩
  · simp [headerStart, flen, fsize, fcount]
  · have := beValue_lt countField
    rw [hcount4] at this
    exact this

/-- A header laid out as the format says parses, whatever follows it (R255, R266). -/
theorem parseHeader_writeHeader {p : Params} {o n : Nat} {R : FreqModel} (body : Bytes)
    (hp : p.legal) (hacc : acceptable p o n R) :
    parseHeader p (writeHeader o n R ++ body) =
      .ok { origLen := n, order := o, count := R.length,
            wt := insertAll bytesLt (R.map storedRecord) [],
            hlen := (writeHeader o n R).length } := by
  obtain ⟨ho, hn, hctx, hR, hd⟩ := hacc
  have hrecords := parseRecords_append o 0 R [] body hR hd (by simp)
  have hK : R.length < 2 ^ 32 := by
    obtain ⟨-, -, -, -, -, -, hmax⟩ := hp
    omega
  rw [writeHeader, List.append_assoc, parseHeader_start p o n _ _ hp ho hn hK,
    if_neg (Nat.not_lt.mpr hctx), ← Nat.add_zero R.length, hrecords]
  simp only [parseRecords, Except.bind, List.length_append, headerStart_length, Nat.add_zero,
    ← Nat.add_assoc, Nat.add_sub_cancel]

/-- Only headers laid out as the format says parse (R255): the input is one, followed by what the
parser left unread. -/
theorem parseHeader_ok {p : Params} {input : Bytes} {h : Header} (hp : p.legal)
    (hok : parseHeader p input = .ok h) :
    ∃ R body, acceptable p h.order h.origLen R ∧ h.count = R.length ∧
      input = writeHeader h.order h.origLen R ++ body ∧
      h.hlen = (writeHeader h.order h.origLen R).length := by
  obtain ⟨o, n, K, rest, rfl, ho, hn, hctx, hK⟩ := parseHeader_ok_start hok
  rw [parseHeader_start p o n K rest hp ho hn hK, if_neg (Nat.not_lt.mpr hctx)] at hok
  obtain ⟨R, body, rfl, hR, hd, -, ⟨rfl, hparse⟩ | ⟨e, -, -, hparse⟩⟩ := parseRecords_cases o K [] rest
  all_goals rw [hparse] at hok; cases hok
  refine ⟨R, body, ⟨ho, hn, hctx, hR, hd⟩, rfl, by simp [writeHeader], ?_⟩
  simp only [writeHeader, List.length_append, headerStart_length, ← Nat.add_assoc,
    Nat.add_sub_cancel]

/-- Settles O51: the parser reads the fields and records that the writer laid out, and what it accepts
is such a header. -/
theorem parserInvertsWriter : Obligations.ParserInvertsWriter := by
  refine ⟨fun p o n R body hp hacc => ?_, fun p input h hp hok => ?_⟩
  · have ⟨_, _, _, hR, hd⟩ := hacc
    have hWT := storedRecords_perm hd
    refine ⟨_, parseHeader_writeHeader body hp hacc,
      insertAll_ascending _ .nil bytesLt_trans bytesLt_total, by simpa using hWT.length_eq, ?_⟩
    intro r hr
    obtain ⟨-, -, -, hentries, -, -⟩ := hR r hr
    exact ⟨_, hWT.mem_iff.mpr (List.mem_map_of_mem hr), storedRecord_ascending r,
      storedRecord_perm hentries⟩
  · obtain ⟨R, body, hacc, hcount, rfl, hlen⟩ := parseHeader_ok hp hok
    exact ⟨R, hacc, hcount, by rw [hlen, List.take_left], hlen⟩

end Sys2Proof.Machine

namespace Sys2Proof.Machine

/-! ### Maps in canonical form, read as functions (R17) -/

theorem ascending_nodup {α β : Type} {lt : α → α → Bool} {m : List (α × β)} (h : Ascending lt m)
    (irr : ∀ a, lt a a = false) : (m.map Prod.fst).Nodup :=
  List.pairwise_map.mpr (h.imp fun {x y} hxy he => by rw [he, irr] at hxy; cases hxy)

section Maps
variable {α β : Type} [DecidableEq α] {lt : α → α → Bool}

theorem mem_alterKey_fst (k j : α) (f : Option β → β) (m : List (α × β)) :
    j ∈ (alterKey lt k f m).map Prod.fst ↔ j = k ∨ j ∈ m.map Prod.fst := by
  induction m with
  | nil => simp [alterKey]
  | cons e m ih =>
    rw [alterKey]
    split
    case isTrue hk => simp [hk]
    case isFalse =>
      split
      · simp
      · rw [List.map_cons, List.map_cons, List.mem_cons, List.mem_cons, ih, or_left_comm]

theorem lookupKey_of_mem {m : List (α × β)} (hd : (m.map Prod.fst).Nodup) {e : α × β} (he : e ∈ m) :
    lookupKey e.1 m = some e.2 := by
  induction m with
  | nil => cases he
  | cons x m ih =>
    obtain ⟨hx, hm⟩ := List.nodup_cons.mp hd
    rcases List.mem_cons.mp he with rfl | he
    · exact if_pos rfl
    · have hne : e.1 ≠ x.1 := fun h => hx (h ▸ List.mem_map_of_mem he)
      exact (if_neg hne).trans (ih hm he)

end Maps

/-- A table in canonical form has at most one entry per byte (R175). -/
theorem ascending_length_le {T : WeightTable} (h : Ascending byteLt T) : T.length ≤ 256 := by
  have hd := ascending_nodup h byteLt_irrefl
  have hcard : Fintype.card Byte = 256 :=
    (Fintype.card_congr BitVec.equivFin.toEquiv).trans (Fintype.card_fin _)
  simpa only [List.length_map, hcard] using hd.length_le_card

/-! ### One table: a byte counted (R173) -/

/-- `T[b] <- T[b] + 1` on one table, with the entry made where it is missing. -/
def countByte (b : Byte) (T : WeightTable) : WeightTable :=
  alterKey byteLt b (fun c => c.getD 0 + 1) T

theorem countByte_ascending (b : Byte) {T : WeightTable} (h : Ascending byteLt T) :
    Ascending byteLt (countByte b T) :=
  alter_ascending b _ T h byteLt_trans byteLt_total

@[simp] theorem tableTotal_countByte (b : Byte) (T : WeightTable) :
    tableTotal (countByte b T) = tableTotal T + 1 :=
  sum_map_alterKey byteLt b _ Prod.snd 1 rfl (fun _ => rfl) T

/-- What a table holds at a byte that was counted `c` times: no entry rather than a count of 0 (R174). -/
def entryOf (c : Nat) : Option Nat := if c = 0 then none else some c

theorem lookupKey_countByte {b c : Byte} {T : WeightTable} {n : Nat} (h : Ascending byteLt T)
    (hc : lookupKey c T = entryOf n) :
    lookupKey c (countByte b T) = entryOf (n + if b = c then 1 else 0) := by
  by_cases hbc : b = c
  · subst hbc
    rw [countByte, lookup_alter_self b _ T h byteLt_irrefl byteLt_trans, hc, if_pos rfl]
    by_cases hn : n = 0 <;> simp [entryOf, hn]
  · rw [countByte, lookup_alter_other b c _ T (Ne.symm hbc), hc, if_neg hbc, Nat.add_zero]

/-! ### The model: a symbol counted (R171, R173) -/

/-- The table of a key; empty where there is none. -/
def tableAt (k : Bytes) (F : FreqModel) : WeightTable := (lookupKey k F).getD []

section CountSymbol
variable {F : FreqModel} (cw : Bytes) (b : Byte)

theorem countSymbol_ascending (h : Ascending bytesLt F) : Ascending bytesLt (countSymbol cw b F) :=
  alter_ascending cw _ F h bytesLt_trans bytesLt_total

theorem tableAt_countSymbol_self (h : Ascending bytesLt F) :
    tableAt cw (countSymbol cw b F) = countByte b (tableAt cw F) := by
  rw [tableAt, countSymbol, lookup_alter_self cw _ F h bytesLt_irrefl bytesLt_trans]
  rfl

theorem tableAt_countSymbol_other {k : Bytes} (h : k ≠ cw) :
    tableAt k (countSymbol cw b F) = tableAt k F := by
  rw [tableAt, countSymbol, lookup_alter_other cw k _ F h, tableAt]

/-- A counted symbol adds 1 to the sum of all tables. -/
theorem sum_tableTotal_countSymbol :
    ((countSymbol cw b F).map (fun r => tableTotal r.2)).sum
      = (F.map (fun r => tableTotal r.2)).sum + 1 :=
  sum_map_alterKey bytesLt cw _ _ 1 (tableTotal_countByte b []) (tableTotal_countByte b) F

end CountSymbol

/-! ### What FREQ's loop keeps (R173 to R175) -/

/-- The table `T` of key `k` counts the symbols `P`, each a window and the byte after it. -/
structure TableCounts (P : List (Bytes × Byte)) (k : Bytes) (T : WeightTable) : Prop where
  ascending : Ascending byteLt T
  entry : ∀ b, lookupKey b T = entryOf (P.count (k, b))
  total : tableTotal T = (P.map Prod.fst).count k

/-- The model `F` counts the symbols `P`. -/
structure ModelCounts (P : List (Bytes × Byte)) (F : FreqModel) : Prop where
  ascending : Ascending bytesLt F
  keys : ∀ k, k ∈ F.map Prod.fst ↔ k ∈ P.map Prod.fst
  table : ∀ k, TableCounts P k (tableAt k F)
  total : (F.map (fun r => tableTotal r.2)).sum = P.length

section Step
variable {P : List (Bytes × Byte)} {F : FreqModel} {T : WeightTable} {k cw : Bytes} (b : Byte)

theorem TableCounts.counted (h : TableCounts P k T) : TableCounts (P ++ [(k, b)]) k (countByte b T) where
  ascending := countByte_ascending b h.ascending
  entry c := by
    rw [lookupKey_countByte h.ascending (h.entry c), List.count_append, List.count_singleton]
    simp
  total := by simp [h.total]

theorem TableCounts.otherWindow (h : TableCounts P k T) (hk : k ≠ cw) :
    TableCounts (P ++ [(cw, b)]) k T where
  ascending := h.ascending
  entry c := by
    have hne : (cw, b) ≠ (k, c) := fun he => hk (congrArg Prod.fst he).symm
    rw [h.entry, List.count_append, List.count_singleton, if_neg (by simpa using hne), Nat.add_zero]
  total := by
    rw [h.total, List.map_append, List.count_append, List.map_singleton, List.count_singleton,
      if_neg (by simpa using hk.symm), Nat.add_zero]

theorem modelCounts_countSymbol (h : ModelCounts P F) (cw : Bytes) :
    ModelCounts (P ++ [(cw, b)]) (countSymbol cw b F) where
  ascending := countSymbol_ascending cw b h.ascending
  keys k := by
    rw [countSymbol, mem_alterKey_fst, h.keys, List.map_append, List.mem_append,
      List.map_singleton, List.mem_singleton, or_comm]
  table k := by
    by_cases hk : k = cw
    · subst hk
      rw [tableAt_countSymbol_self k b h.ascending]
      exact (h.table k).counted b
    · rw [tableAt_countSymbol_other cw b hk]
      exact (h.table k).otherWindow b hk
  total := by simp [sum_tableTotal_countSymbol, h.total]

end Step

theorem modelCounts_nil : ModelCounts [] [] where
  ascending := .nil
  keys _ := .rfl
  table _ := ⟨.nil, fun _ => rfl, rfl⟩
  total := rfl

/-- FREQ from window `cw` on counts each byte after its window, on top of what was counted before. -/
theorem modelCounts_freqFrom {P : List (Bytes × Byte)} {F : FreqModel} (h : ModelCounts P F)
    (cw : Bytes) (input : Bytes) :
    ModelCounts (P ++ (windows cw input).zip input) (freqFrom cw F input) := by
  induction input generalizing P F cw with
  | nil => rwa [windows, List.zip_nil_left, List.append_nil]
  | cons b rest ih =>
    have hrest := ih (modelCounts_countSymbol b h cw) (slide cw b)
    rwa [List.append_assoc, List.singleton_append] at hrest

theorem freqModel_counts (o : Nat) (input : Bytes) :
    ModelCounts ((windows (zeros o) input).zip input) (freqModel o input) :=
  modelCounts_freqFrom modelCounts_nil (zeros o) input

/-! ### The model of an input (R174, R175) -/

@[simp] theorem windows_length (cw input : Bytes) : (windows cw input).length = input.length := by
  induction input generalizing cw with
  | nil => rfl
  | cons b rest ih => rw [windows, List.length_cons, List.length_cons, ih]

theorem windows_zip_fst (cw input : Bytes) :
    ((windows cw input).zip input).map Prod.fst = windows cw input :=
  List.map_fst_zip (windows_length cw input).le

/-- A key of the model is a window before an input byte, and no window is left out (R174). -/
theorem mem_freqModel_keys (o : Nat) (input k : Bytes) :
    k ∈ (freqModel o input).map Prod.fst ↔ k ∈ windows (zeros o) input := by
  rw [(freqModel_counts o input).keys, windows_zip_fst]

/-- Each record of the model counts its key's symbols. -/
theorem freqModel_table {o : Nat} {input : Bytes} {r : Bytes × WeightTable}
    (hr : r ∈ freqModel o input) :
    TableCounts ((windows (zeros o) input).zip input) r.1 r.2 := by
  have hF := freqModel_counts o input
  have hat : tableAt r.1 (freqModel o input) = r.2 := by
    rw [tableAt, lookupKey_of_mem (ascending_nodup hF.ascending bytesLt_irrefl) hr, Option.getD_some]
  exact hat ▸ hF.table r.1

theorem freqModel_tableTotal {o : Nat} {input : Bytes} {r : Bytes × WeightTable}
    (hr : r ∈ freqModel o input) : tableTotal r.2 = (windows (zeros o) input).count r.1 := by
  rw [(freqModel_table hr).total, windows_zip_fst]

theorem freqModel_tableTotal_pos {o : Nat} {input : Bytes} {r : Bytes × WeightTable}
    (hr : r ∈ freqModel o input) : 0 < tableTotal r.2 := by
  rw [freqModel_tableTotal hr, List.count_pos_iff, ← mem_freqModel_keys]
  exact List.mem_map_of_mem hr

theorem one_le_length_of_tableTotal_pos {T : WeightTable} (h : 0 < tableTotal T) : 1 ≤ T.length := by
  cases T with
  | nil => cases h
  | cons e T => exact Nat.succ_pos _

/-- Settles O37: each record counts its key's symbols, a key is the window of some position, and FREQ counts
every position once. -/
theorem countsSumToPositions : Obligations.CountsSumToPositions := by
  refine fun o input => ⟨fun r hr => ?_, ?_⟩
  · have hpos := freqModel_tableTotal_pos hr
    exact ⟨freqModel_tableTotal hr, one_le_length_of_tableTotal_pos hpos,
      ascending_length_le (freqModel_table hr).ascending, hpos⟩
  · rw [(freqModel_counts o input).total, List.length_zip, windows_length, Nat.min_self]

/-- Settles O38: what FREQ's loop keeps, read at the whole input. -/
theorem tablesAreTheContexts : Obligations.TablesAreTheContexts := fun o input =>
  ⟨(freqModel_counts o input).ascending, mem_freqModel_keys o input,
    fun _ hr => ⟨(freqModel_table hr).ascending, (freqModel_table hr).entry⟩⟩

end Sys2Proof.Machine

namespace Sys2Proof.Machine

/-! ### Scaling (R193, R194) -/

@[simp] theorem tableTotal_nil : tableTotal [] = 0 := rfl

@[simp] theorem tableTotal_cons (e : Byte × Nat) (W : WeightTable) :
    tableTotal (e :: W) = e.2 + tableTotal W := List.sum_cons

theorem tableTotal_append (V W : WeightTable) :
    tableTotal (V ++ W) = tableTotal V + tableTotal W := by
  simp [tableTotal]

theorem tableTotal_perm {V W : WeightTable} (h : V.Perm W) : tableTotal V = tableTotal W :=
  (h.map Prod.snd).sum_eq

theorem tableTotal_le {W : WeightTable} {c : Nat} (h : ∀ e ∈ W, e.2 ≤ c) :
    tableTotal W ≤ W.length * c := by
  have hsum := List.sum_le_card_nsmul (W.map Prod.snd) c (by simpa using fun w b hb => h (b, w) hb)
  simpa [tableTotal] using hsum

/-- The weight of one entry after a scaling round. -/
def halve (w : Nat) : Nat := max (w >>> 1) 1

theorem scaleRound_iterate (r : Nat) (W : WeightTable) :
    scaleRound^[r] W = W.map (fun e => (e.1, halve^[r] e.2)) := by
  induction r generalizing W with
  | zero => simp
  | succ r ih =>
    rw [Function.iterate_succ_apply, ih, scaleRound, List.map_map]
    rfl

theorem halve_iterate_le {w : Nat} (hw : w ≤ 2 ^ 64 - 1) (r : Nat) :
    halve^[r] w ≤ max ((2 ^ 64 - 1) >>> r) 1 := by
  induction r with
  | zero => simp only [Function.iterate_zero_apply, Nat.shiftRight_zero]; omega
  | succ r ih =>
    rw [Function.iterate_succ_apply', halve, Nat.shiftRight_one, Nat.shiftRight_succ]
    omega

/-- How the loop of R193 ends: after some rounds, at most the given number and at least one where the
total was above the limit, and before the last of them only where the total has come down to it. -/
theorem scaleRounds_cases (n : Nat) (W : WeightTable) :
    ∃ r ≤ n, scaleRounds n W = scaleRound^[r] W ∧
      (r < n → tableTotal (scaleRounds n W) ≤ Config.weightLimit) ∧
      (r = 0 → n = 0 ∨ tableTotal W ≤ Config.weightLimit) := by
  induction n generalizing W with
  | zero => exact ⟨0, le_rfl, rfl, fun h => absurd h (lt_irrefl 0), fun _ => .inl rfl⟩
  | succ n ih =>
    rw [scaleRounds]
    split
    case isTrue =>
      obtain ⟨r, hr, heq, hend, -⟩ := ih (scaleRound W)
      exact ⟨r + 1, by omega, heq, fun h => hend (by omega), fun h => by omega⟩
    case isFalse h =>
      exact ⟨0, Nat.zero_le _, rfl, fun _ => Nat.not_lt.mp h, fun _ => .inr (Nat.not_lt.mp h)⟩

theorem scaleRounds_of_le (n : Nat) {W : WeightTable} (h : tableTotal W ≤ Config.weightLimit) :
    scaleRounds n W = W := by
  cases n with
  | zero => rfl
  | succ n => exact if_neg (Nat.not_lt.mpr h)

/-- More rounds go on from where fewer rounds stopped. -/
theorem scaleRounds_add (m n : Nat) (W : WeightTable) :
    scaleRounds (m + n) W = scaleRounds n (scaleRounds m W) := by
  induction m generalizing W with
  | zero => rw [Nat.zero_add, scaleRounds]
  | succ m ih =>
    by_cases h : tableTotal W ≤ Config.weightLimit
    · simp only [scaleRounds_of_le _ h]
    · have hover := Nat.not_le.mp h
      rw [Nat.succ_add, scaleRounds, scaleRounds, if_pos hover, if_pos hover, ih]

theorem scale_of_le {W : WeightTable} (h : tableTotal W ≤ 2 ^ 64 - 1) : scale W = W :=
  scaleRounds_of_le 8 h

/-- Scaling applies one function to every weight, and it is a number of rounds, none only where the total
fits already. -/
theorem scale_eq_map (W : WeightTable) :
    ∃ r, scale W = W.map (fun e => (e.1, halve^[r] e.2)) ∧
      (r = 0 → tableTotal W ≤ 2 ^ 64 - 1) := by
  obtain ⟨r, -, heq, -, hzero⟩ := scaleRounds_cases 8 W
  exact ⟨r, heq.trans (scaleRound_iterate r W), fun h => (hzero h).resolve_left (by omega)⟩

@[simp] theorem scale_map_fst (W : WeightTable) : (scale W).map Prod.fst = W.map Prod.fst := by
  obtain ⟨r, heq, -⟩ := scale_eq_map W
  rw [heq, List.map_map]
  rfl

@[simp] theorem scale_length (W : WeightTable) : (scale W).length = W.length := by
  rw [← List.length_map Prod.fst, scale_map_fst, List.length_map]

/-- Where a round ran, no weight is below the floor. -/
theorem one_le_of_mem_scale {W : WeightTable} (h : 2 ^ 64 - 1 < tableTotal W) {e : Byte × Nat}
    (he : e ∈ scale W) : 1 ≤ e.2 := by
  obtain ⟨r, heq, hzero⟩ := scale_eq_map W
  rw [heq] at he
  obtain ⟨x, -, rfl⟩ := List.mem_map.mp he
  cases r with
  | zero => exact absurd (hzero rfl) (Nat.not_le.mpr h)
  | succ r =>
    rw [Function.iterate_succ_apply', halve]
    exact le_max_right _ _

/-- Eight rounds bring 256 weights down to 2^56 - 1 each. -/
theorem tableTotal_eight_rounds {W : WeightTable} (hlen : W.length ≤ 256)
    (hW : ∀ e ∈ W, e.2 < 2 ^ 64) : tableTotal (scaleRound^[8] W) ≤ 2 ^ 64 - 256 := by
  have hweights : ∀ e ∈ scaleRound^[8] W, e.2 ≤ 2 ^ 56 - 1 := by
    rw [scaleRound_iterate]
    rintro e he
    obtain ⟨x, hx, rfl⟩ := List.mem_map.mp he
    exact (halve_iterate_le (Nat.le_sub_one_of_lt (hW x hx)) 8).trans (by decide)
  have hsum := tableTotal_le hweights
  have hlength : (scaleRound^[8] W).length = W.length := by rw [scaleRound_iterate, List.length_map]
  rw [hlength] at hsum
  omega

theorem tableTotal_scale_le {W : WeightTable} (hlen : W.length ≤ 256) (hW : ∀ e ∈ W, e.2 < 2 ^ 64) :
    tableTotal (scale W) ≤ 2 ^ 64 - 1 := by
  obtain ⟨r, hr, heq, hend, -⟩ := scaleRounds_cases 8 W
  rcases hr.lt_or_eq with hlt | rfl
  · exact hend hlt
  · rw [scale, heq]
    exact (tableTotal_eight_rounds hlen hW).trans (by omega)

/-- Settles O39: each round halves the bound on every weight, and eight rounds bring the total below the
limit, where the loop stays. -/
theorem scalingEnds : Obligations.ScalingEnds := by
  intro W hlen hW
  have hfits := tableTotal_scale_le hlen hW
  refine ⟨fun r => ?_, tableTotal_eight_rounds hlen hW, hfits, fun n hn => ?_,
    fun h _ => one_le_of_mem_scale h, scale_of_le⟩
  · rw [scaleRound_iterate]
    rintro e he
    obtain ⟨x, hx, rfl⟩ := List.mem_map.mp he
    exact halve_iterate_le (Nat.le_sub_one_of_lt (hW x hx)) r
  · obtain ⟨k, rfl⟩ := Nat.exists_eq_add_of_le hn
    rw [scaleRounds_add]
    exact scaleRounds_of_le k hfits

theorem freqModel_tableTotal_le {o : Nat} {input : Bytes} {r : Bytes × WeightTable}
    (hr : r ∈ freqModel o input) : tableTotal r.2 ≤ input.length := by
  rw [freqModel_tableTotal hr, ← windows_length (zeros o) input]
  exact List.count_le_length

/-- Settles O40: a table counts some of the input's positions, so its total is below the limit. -/
theorem compressNeverScales : Obligations.CompressNeverScales := by
  refine ⟨fun o input hlen r hr => ?_, fun W hW => ?_⟩
  · have hle := freqModel_tableTotal_le hr
    exact ⟨hle, scale_of_le (by omega)⟩
  · exact Nat.not_le.mp fun h => hW (scale_of_le h)

end Sys2Proof.Machine

namespace Sys2Proof.Machine

/-! ### The rank order (R199) -/

theorem ranksBelow_trans {x y z : Tree} (hxy : ranksBelow x y) (hyz : ranksBelow y z) :
    ranksBelow x z := by
  rw [ranksBelow_iff_keyLt, keyLt_iff] at *
  omega

theorem ranksBelow_asymm {x y : Tree} (hxy : ranksBelow x y) : ¬ ranksBelow y x := by
  rw [ranksBelow_iff_keyLt, keyLt_iff] at *
  omega

/-- Nodes with distinct keys are ordered one way or the other. -/
theorem ranksBelow_of_not {x y : Tree} (hne : treeKey x ≠ treeKey y) (h : ¬ ranksBelow x y) :
    ranksBelow y x := by
  rw [ranksBelow_iff_keyLt, keyLt_iff] at *
  rw [Ne, Prod.ext_iff, Prod.ext_iff] at hne
  omega

theorem treeKey_fst (x : Tree) : (treeKey x).1 = treeWeight x := by cases x <;> rfl

theorem ranksBelow_weight_le {x y : Tree} (h : ranksBelow x y) : treeWeight x ≤ treeWeight y := by
  rw [ranksBelow_iff_keyLt, keyLt_iff, treeKey_fst, treeKey_fst] at h
  omega

/-! ### The queue (R197, R198, R201) -/

theorem insertNode_cons (n m : Tree) (q : List Tree) :
    (ranksBelow n m ∧ insertNode n (m :: q) = n :: m :: q) ∨
    (¬ ranksBelow n m ∧ insertNode n (m :: q) = m :: insertNode n q) := by
  rw [insertNode, ranksBelow_iff_keyLt]
  split
  case isTrue h => exact .inl ⟨h, rfl⟩
  case isFalse h => exact .inr ⟨h, rfl⟩

theorem insertNode_perm (n : Tree) (q : List Tree) : (insertNode n q).Perm (n :: q) := by
  induction q with
  | nil => exact .refl _
  | cons m q ih =>
    rcases insertNode_cons n m q with ⟨-, h⟩ | ⟨-, h⟩ <;> rw [h]
    exact (ih.cons m).trans (.swap n m q)

@[simp] theorem insertNode_length (n : Tree) (q : List Tree) :
    (insertNode n q).length = q.length + 1 := (insertNode_perm n q).length_eq

theorem mem_insertNode {n x : Tree} {q : List Tree} : x ∈ insertNode n q ↔ x = n ∨ x ∈ q :=
  (insertNode_perm n q).mem_iff.trans List.mem_cons

theorem insertNode_sorted {n : Tree} {q : List Tree} (hq : q.Pairwise ranksBelow)
    (hn : ∀ m ∈ q, treeKey n ≠ treeKey m) : (insertNode n q).Pairwise ranksBelow := by
  induction q with
  | nil => exact List.pairwise_singleton _ _
  | cons m q ih =>
    obtain ⟨hm, hq'⟩ := List.pairwise_cons.mp hq
    rcases insertNode_cons n m q with ⟨hnm, h⟩ | ⟨hnm, h⟩ <;> rw [h]
    · refine List.pairwise_cons.mpr ⟨fun x hx => ?_, hq⟩
      rcases List.mem_cons.mp hx with rfl | hx
      · exact hnm
      · exact ranksBelow_trans hnm (hm x hx)
    · refine List.pairwise_cons.mpr ⟨fun x hx => ?_, ih hq' fun x hx => hn x (.tail _ hx)⟩
      rcases mem_insertNode.mp hx with rfl | hx
      · exact ranksBelow_of_not (hn m (.head _)) hnm
      · exact hm x hx

/-- The nodes that TREE starts from: a leaf per entry, and the placeholder beside a single leaf. -/
def startNodes (W : WeightTable) : List Tree :=
  (if W.length = 1 then [Tree.placeholder] else []) ++ W.map (fun e => .leaf e.1 e.2)

theorem foldr_insertNode_perm (L : List Tree) : (L.foldr insertNode []).Perm L := by
  induction L with
  | nil => exact .refl _
  | cons n L ih => exact (insertNode_perm _ _).trans (ih.cons n)

theorem foldr_insertNode_sorted {L : List Tree} (hL : (L.map treeKey).Nodup) :
    (L.foldr insertNode []).Pairwise ranksBelow := by
  induction L with
  | nil => exact .nil
  | cons n L ih =>
    obtain ⟨hn, hL⟩ := List.nodup_cons.mp hL
    refine insertNode_sorted (ih hL) fun m hm he => hn ?_
    exact he ▸ List.mem_map_of_mem ((foldr_insertNode_perm L).mem_iff.mp hm)

/-- The start of Q is the sorted arrangement of the start nodes (R197, R198). -/
theorem startQueue_eq (W : WeightTable) : startQueue W = (startNodes W).foldr insertNode [] := by
  unfold startQueue startNodes
  have hlength := (foldr_insertNode_perm (W.map fun e => Tree.leaf e.1 e.2)).length_eq
  rw [List.length_map] at hlength
  dsimp only
  rw [hlength]
  split <;> rfl

theorem startQueue_perm (W : WeightTable) : (startQueue W).Perm (startNodes W) :=
  startQueue_eq W ▸ foldr_insertNode_perm _

theorem startNodes_nodup {W : WeightTable} (hW : (W.map Prod.fst).Nodup) :
    ((startNodes W).map treeKey).Nodup := by
  have hleaves : ((W.map fun e => Tree.leaf e.1 e.2).map treeKey).Nodup := by
    rw [List.map_map]
    refine List.Nodup.of_map (fun k => k.2.2) ?_
    have hinj : Function.Injective fun b : Byte => b.toNat + 1 := fun a b h =>
      BitVec.eq_of_toNat_eq (Nat.succ_injective h)
    simpa [Function.comp_def, treeKey] using hW.map hinj
  unfold startNodes
  split
  · refine List.nodup_cons.mpr ⟨fun h => ?_, hleaves⟩
    simp [treeKey] at h
  · exact hleaves

theorem startQueue_sorted {W : WeightTable} (hW : (W.map Prod.fst).Nodup) :
    (startQueue W).Pairwise ranksBelow :=
  startQueue_eq W ▸ foldr_insertNode_sorted (startNodes_nodup hW)

theorem startQueue_length {W : WeightTable} (hW : 1 ≤ W.length) :
    (startQueue W).length = max 1 (W.length - 1) + 1 := by
  rw [(startQueue_perm W).length_eq, startNodes]
  split
  · simp
    omega
  · simp
    omega

/-! ### The merges (R200) -/

/-- The node that one round of R200 makes. -/
def mergeNode (k : Nat) (a c : Tree) : Tree := .internal k (treeWeight a + treeWeight c) a c

/-- What holds of Q at the start, and is kept by every round, holds of the root at the end: each round
leaves one node less in Q, so that one node remains. -/
theorem mergeRounds_induction {P : Nat → List Tree → Prop}
    (round : ∀ k a c q, P k (a :: c :: q) → P (k + 1) (insertNode (mergeNode k a c) q))
    {n k : Nat} {Q : List Tree} (hne : Q ≠ []) (hn : Q.length ≤ n + 1) (h : P k Q) :
    ∃ t, mergeRounds n k Q = [t] ∧ P (k + (Q.length - 1)) [t] := by
  induction n generalizing k Q with
  | zero =>
    obtain ⟨t, rfl⟩ : ∃ t, Q = [t] := List.length_eq_one_iff.mp
      (Nat.le_antisymm hn (List.length_pos_iff.mpr hne))
    exact ⟨t, rfl, h⟩
  | succ n ih =>
    match Q, hne, hn, h with
    | [t], _, _, h => exact ⟨t, rfl, h⟩
    | a :: c :: q, _, hn, h =>
      have hnext := ih (List.ne_nil_of_length_pos (by simp)) (by simpa using hn) (round k a c q h)
      simpa [mergeRounds, mergeNode, Nat.add_comm, Nat.add_left_comm] using hnext

/-- The same for the tree of a table whose weights are already scaled. -/
theorem treeOfScaled_induction {P : Nat → List Tree → Prop} {W : WeightTable} (hW : 1 ≤ W.length)
    (start : P 0 (startQueue W))
    (round : ∀ k a c q, P k (a :: c :: q) → P (k + 1) (insertNode (mergeNode k a c) q)) :
    ∃ t, treeOfScaled W = some t ∧ P (max 1 (W.length - 1)) [t] := by
  have hlength := startQueue_length hW
  obtain ⟨t, ht, hP⟩ := mergeRounds_induction round (List.ne_nil_of_length_pos (by omega))
    (Nat.le_succ _) start
  rw [hlength, Nat.add_sub_cancel, Nat.zero_add] at hP
  exact ⟨t, by rw [treeOfScaled, ht]; rfl, hP⟩

/-! ### The nodes of a tree by their paths -/

/-- An internal node, as the round of R200 that made it left it. -/
structure Merge where
  index : Nat
  weight : Nat
  left : Tree
  right : Tree

/-- The internal nodes of a tree, from the root down. -/
def merges : Tree → List Merge
  | .leaf _ _ => []
  | .placeholder => []
  | .internal k w l r => ⟨k, w, l, r⟩ :: (merges l ++ merges r)

@[simp] theorem treeAt_nil (t : Tree) : treeAt t [] = some t := by cases t <;> rfl

/-- A path goes on past the root only where the root is an internal node. -/
theorem treeAt_cons {t n : Tree} {b : Bool} {p : Bits} (h : treeAt t (b :: p) = some n) :
    ∃ k w l r, t = .internal k w l r ∧ treeAt (if b then r else l) p = some n := by
  cases t with
  | leaf c v => cases h
  | placeholder => cases h
  | internal k w l r => exact ⟨k, w, l, r, rfl, h⟩

theorem treeAt_append {t n : Tree} {p q : Bits} (h : treeAt t (p ++ q) = some n) :
    ∃ u, treeAt t p = some u ∧ treeAt u q = some n := by
  induction p generalizing t with
  | nil => exact ⟨t, treeAt_nil t, h⟩
  | cons b p ih =>
    obtain ⟨k, w, l, r, rfl, h⟩ := treeAt_cons h
    exact ih h

/-- A node below the root has a parent. -/
theorem treeAt_concat {t n : Tree} {p : Bits} {b : Bool} (h : treeAt t (p ++ [b]) = some n) :
    ∃ k w l r, treeAt t p = some (.internal k w l r) ∧ n = if b then r else l := by
  obtain ⟨u, hu, hb⟩ := treeAt_append h
  obtain ⟨k, w, l, r, rfl, hn⟩ := treeAt_cons hb
  rw [treeAt_nil, Option.some_inj] at hn
  exact ⟨k, w, l, r, hu, hn.symm⟩

theorem merges_subset_of_treeAt {t n : Tree} {p : Bits} (h : treeAt t p = some n) :
    merges n ⊆ merges t := by
  induction p generalizing t with
  | nil =>
    rw [treeAt_nil, Option.some_inj] at h
    exact h ▸ List.Subset.refl _
  | cons b p ih =>
    obtain ⟨k, w, l, r, rfl, h⟩ := treeAt_cons h
    refine List.Subset.trans (ih h) (List.Subset.trans ?_ (List.subset_cons_self _ _))
    cases b
    · exact List.subset_append_left _ _
    · exact List.subset_append_right _ _

theorem mem_merges_of_treeAt {t l r : Tree} {p : Bits} {k w : Nat}
    (h : treeAt t p = some (.internal k w l r)) : ⟨k, w, l, r⟩ ∈ merges t :=
  merges_subset_of_treeAt h (.head _)

/-- The creation indices of a tree's internal nodes. -/
def indices (t : Tree) : List Nat := (merges t).map Merge.index

@[simp] theorem indices_internal (k w : Nat) (l r : Tree) :
    indices (.internal k w l r) = k :: (indices l ++ indices r) := by
  simp [indices, merges]

theorem mem_indices_of_treeAt {t l r : Tree} {p : Bits} {k w : Nat}
    (h : treeAt t p = some (.internal k w l r)) : k ∈ indices t :=
  List.mem_map_of_mem (mem_merges_of_treeAt h)

theorem index_ne_of_below {k w i v : Nat} {l r a c : Tree} {b : Bool} {p : Bits}
    (ht : (indices (.internal k w l r)).Nodup)
    (h : treeAt (.internal k w l r) (b :: p) = some (.internal i v a c)) : k ≠ i := by
  rintro rfl
  have hmem := mem_indices_of_treeAt (t := if b then r else l) h
  rw [indices_internal, List.nodup_cons, List.mem_append, not_or] at ht
  obtain ⟨⟨hl, hr⟩, -⟩ := ht
  cases b
  · exact hl hmem
  · exact hr hmem

/-- Distinct creation indices tell the internal nodes apart. -/
theorem treeAt_path_unique {t : Tree} (ht : (indices t).Nodup) {p q : Bits} {k v w : Nat}
    {a b c d : Tree} (hp : treeAt t p = some (.internal k v a b))
    (hq : treeAt t q = some (.internal k w c d)) : p = q := by
  induction p generalizing t q with
  | nil =>
    rw [treeAt_nil, Option.some_inj] at hp
    subst hp
    cases q with
    | nil => rfl
    | cons y q => exact absurd rfl (index_ne_of_below ht hq)
  | cons x p ih =>
    obtain ⟨i, u, l, r, rfl, hp'⟩ := treeAt_cons hp
    cases q with
    | nil =>
      cases hq
      exact absurd rfl (index_ne_of_below ht hp)
    | cons y q =>
      have hq' : treeAt (if y then r else l) q = some (.internal k w c d) := hq
      rw [indices_internal, List.nodup_cons, List.nodup_append'] at ht
      obtain ⟨-, hl, hr, hlr⟩ := ht
      have hkp := mem_indices_of_treeAt hp'
      have hkq := mem_indices_of_treeAt hq'
      cases x <;> cases y
      · rw [ih hl hp' hq']
      · exact absurd hkq (hlr hkp)
      · exact absurd hkp (hlr hkq)
      · rw [ih hr hp' hq']

end Sys2Proof.Machine

namespace Sys2Proof.Machine

/-! ### What the rounds keep (R199, R200) -/

/-- The merges `M` took their nodes in rank order: each node's weight is its children's sum, its left
child ranks below its right one, it was made after every node below it, no two were made in one round,
and what an earlier one took ranks below what a later one took. -/
structure InRankOrder (M : List Merge) : Prop where
  weight : ∀ m ∈ M, m.weight = treeWeight m.left + treeWeight m.right
  siblings : ∀ m ∈ M, ranksBelow m.left m.right
  younger : ∀ m ∈ M, ∀ n ∈ merges m.left ++ merges m.right, n.index < m.index
  distinct : (M.map Merge.index).Nodup
  taken : ∀ m ∈ M, ∀ m' ∈ M, m.index < m'.index → ranksBelow m.right m'.left

theorem InRankOrder.nil : InRankOrder [] := by constructor <;> simp

theorem InRankOrder.perm {M N : List Merge} (h : InRankOrder M) (hN : N.Perm M) : InRankOrder N where
  weight m hm := h.weight m (hN.mem_iff.mp hm)
  siblings m hm := h.siblings m (hN.mem_iff.mp hm)
  younger m hm := h.younger m (hN.mem_iff.mp hm)
  distinct := (hN.map Merge.index).nodup_iff.mpr h.distinct
  taken m hm m' hm' := h.taken m (hN.mem_iff.mp hm) m' (hN.mem_iff.mp hm')

/-- One more merge, made after all others, of nodes that rank above all that the others took. -/
theorem InRankOrder.cons {M : List Merge} {k : Nat} {a c : Tree} (h : InRankOrder M)
    (hac : ranksBelow a c) (hbelow : ∀ n ∈ merges a ++ merges c, n.index < k)
    (hold : ∀ m ∈ M, m.index < k) (htaken : ∀ m ∈ M, ranksBelow m.right a) :
    InRankOrder (⟨k, treeWeight a + treeWeight c, a, c⟩ :: M) where
  weight := List.forall_mem_cons.mpr ⟨rfl, h.weight⟩
  siblings := List.forall_mem_cons.mpr ⟨hac, h.siblings⟩
  younger := List.forall_mem_cons.mpr ⟨hbelow, h.younger⟩
  distinct := by
    refine List.nodup_cons.mpr ⟨fun hmem => ?_, h.distinct⟩
    obtain ⟨m, hm, hk⟩ := List.mem_map.mp hmem
    exact (hold m hm).ne hk
  taken m hm m' hm' hlt := by
    rcases List.mem_cons.mp hm with rfl | hm <;> rcases List.mem_cons.mp hm' with rfl | hm'
    · exact absurd hlt (lt_irrefl k)
    · exact absurd (hold m' hm') (Nat.lt_asymm hlt)
    · exact htaken m hm
    · exact h.taken m hm m' hm' hlt

/-- Q after `k` rounds from the start nodes of the table `W`. -/
structure QueueAfter (W : WeightTable) (k : Nat) (Q : List Tree) : Prop where
  leaves : (Q.flatMap treeLeaves).Perm W
  placeholders : (Q.map placeholders).sum = if W.length = 1 then 1 else 0
  sorted : Q.Pairwise ranksBelow
  inOrder : InRankOrder (Q.flatMap merges)
  made : ∀ m ∈ Q.flatMap merges, m.index < k
  taken : ∀ m ∈ Q.flatMap merges, ∀ x ∈ Q, ranksBelow m.right x

theorem merges_of_mem_startNodes {W : WeightTable} {x : Tree} (hx : x ∈ startNodes W) :
    merges x = [] := by
  rcases List.mem_append.mp hx with h | h
  · split at h
    · rw [List.mem_singleton.mp h, merges]
    · cases h
  · obtain ⟨e, -, rfl⟩ := List.mem_map.mp h
    rfl

theorem queueAfter_start {W : WeightTable} (hW : (W.map Prod.fst).Nodup) :
    QueueAfter W 0 (startQueue W) := by
  have hperm := startQueue_perm W
  have hmerges : (startQueue W).flatMap merges = [] :=
    List.flatMap_eq_nil_iff.mpr fun x hx => merges_of_mem_startNodes (hperm.mem_iff.mp hx)
  refine ⟨?leaves, ?placeholders, startQueue_sorted hW, hmerges ▸ .nil, ?made, ?taken⟩
  case leaves =>
    refine (hperm.flatMap_right _).trans (.of_eq ?_)
    unfold startNodes
    split <;> simp [treeLeaves, List.flatMap_map]
  case placeholders =>
    rw [(hperm.map _).sum_eq, startNodes]
    split <;> simp [Machine.placeholders, Function.comp_def]
  case made => simp [hmerges]
  case taken => simp [hmerges]

/-- A merged node's key is new: it is made after all internal nodes of Q. -/
theorem treeKey_mergeNode_ne {k : Nat} {a c x : Tree} (hx : ∀ m ∈ merges x, m.index < k) :
    treeKey (mergeNode k a c) ≠ treeKey x := by
  cases x with
  | leaf | placeholder => simp [mergeNode, treeKey]
  | internal i w l r =>
    have hi : i < k := hx _ (.head _)
    simp only [mergeNode, treeKey, ne_eq, Prod.mk.injEq, not_and]
    omega

/-- A merged node ranks above its children. -/
theorem ranksBelow_mergeNode {k : Nat} {a c : Tree} (hc : ∀ m ∈ merges c, m.index < k) :
    ranksBelow c (mergeNode k a c) := by
  rw [ranksBelow_iff_keyLt, keyLt_iff, mergeNode]
  generalize treeWeight a = v
  cases c with
  | leaf | placeholder =>
    simp only [treeKey, treeWeight]
    omega
  | internal i w l r =>
    have hi : i < k := hc _ (.head _)
    simp only [treeKey, treeWeight, true_and]
    omega

theorem QueueAfter.round {W : WeightTable} {k : Nat} {a c : Tree} {q : List Tree}
    (h : QueueAfter W k (a :: c :: q)) : QueueAfter W (k + 1) (insertNode (mergeNode k a c) q) := by
  have hperm := insertNode_perm (mergeNode k a c) q
  have hmerges : ((insertNode (mergeNode k a c) q).flatMap merges).Perm
      (⟨k, treeWeight a + treeWeight c, a, c⟩ :: (a :: c :: q).flatMap merges) := by
    simpa [mergeNode, merges] using hperm.flatMap_right merges
  obtain ⟨ha, hcq⟩ := List.pairwise_cons.mp h.sorted
  obtain ⟨hc, hq⟩ := List.pairwise_cons.mp hcq
  have hac := ha c (.head _)
  have hmade {x : Tree} (hx : x ∈ a :: c :: q) (m : Merge) (hm : m ∈ merges x) : m.index < k :=
    h.made m (List.mem_flatMap.mpr ⟨x, hx, hm⟩)
  have hcn : ranksBelow c (mergeNode k a c) := ranksBelow_mergeNode (hmade (by simp))
  refine ⟨?leaves, ?placeholders, ?sorted, ?inOrder, ?made, ?taken⟩
  case leaves =>
    refine .trans ?_ h.leaves
    simpa [mergeNode, treeLeaves] using hperm.flatMap_right treeLeaves
  case placeholders =>
    rw [← h.placeholders, (hperm.map _).sum_eq]
    simp [mergeNode, Machine.placeholders, Nat.add_assoc]
  case sorted => exact insertNode_sorted hq fun x hx => treeKey_mergeNode_ne (hmade (by simp [hx]))
  case inOrder =>
    refine .perm (h.inOrder.cons hac ?_ h.made fun m hm => h.taken m hm a (.head _)) hmerges
    exact List.forall_mem_append.mpr ⟨hmade (.head _), hmade (.tail _ (.head _))⟩
  case made =>
    intro m hm
    rcases List.mem_cons.mp (hmerges.mem_iff.mp hm) with rfl | hm
    · exact Nat.lt_succ_self k
    · exact Nat.lt_succ_of_lt (h.made m hm)
  case taken =>
    intro m hm x hx
    rcases List.mem_cons.mp (hmerges.mem_iff.mp hm) with rfl | hm <;>
      rcases mem_insertNode.mp hx with rfl | hx
    · exact hcn
    · exact hc x hx
    · exact ranksBelow_trans (h.taken m hm c (by simp)) hcn
    · exact h.taken m hm x (by simp [hx])

/-- The root that R200 leaves for a table `W` whose weights are already scaled. -/
structure BuiltFrom (W : WeightTable) (t : Tree) : Prop where
  leaves : (treeLeaves t).Perm W
  placeholders : placeholders t = if W.length = 1 then 1 else 0
  inOrder : InRankOrder (merges t)
  made : ∀ m ∈ merges t, m.index < max 1 (W.length - 1)

theorem QueueAfter.builtFrom {W : WeightTable} {t : Tree}
    (h : QueueAfter W (max 1 (W.length - 1)) [t]) : BuiltFrom W t where
  leaves := by simpa using h.leaves
  placeholders := by simpa using h.placeholders
  inOrder := by simpa using h.inOrder
  made := by simpa using h.made

theorem treeOfScaled_builtFrom {W : WeightTable} (hlen : 1 ≤ W.length)
    (hW : (W.map Prod.fst).Nodup) : ∃ t, treeOfScaled W = some t ∧ BuiltFrom W t := by
  obtain ⟨t, ht, hbuilt⟩ := treeOfScaled_induction hlen (queueAfter_start hW)
    fun _ _ _ _ => QueueAfter.round
  exact ⟨t, ht, hbuilt.builtFrom⟩

/-- A table in canonical form that meets TREE's preconditions, however wide its weights (R191). -/
def readyTable (W : WeightTable) : Prop := Ascending byteLt W ∧ treeReady W = true

theorem readyTable_of_total_pos {W : WeightTable} (hW : Ascending byteLt W) (h : 0 < tableTotal W) :
    readyTable W :=
  have hlen := one_le_length_of_tableTotal_pos h
  ⟨hW, by simp [treeReady, h, hlen, ascending_length_le hW, Config.maxSyms]⟩

theorem goodTable.ready {W : WeightTable} (h : goodTable W) : readyTable W :=
  have ⟨hW, _, hpos, _⟩ := h
  readyTable_of_total_pos hW hpos

/-- BuildTree answers every ready table (R190, R191). -/
theorem readyTable.exists_builtFrom {W : WeightTable} (h : readyTable W) :
    ∃ t, buildTree W = some t ∧ BuiltFrom (scale W) t := by
  obtain ⟨hW, hready⟩ := h
  have hlen : 1 ≤ W.length := by
    simp only [treeReady, Bool.and_eq_true, decide_eq_true_eq] at hready
    exact hready.1.1
  obtain ⟨t, ht, hbuilt⟩ := treeOfScaled_builtFrom (W := scale W) (by rwa [scale_length])
    (by rw [scale_map_fst]; exact ascending_nodup hW byteLt_irrefl)
  exact ⟨t, by rw [buildTree, if_pos hready, ht], hbuilt⟩

theorem builtFrom_of_buildTree {W : WeightTable} {t : Tree} (h : readyTable W)
    (ht : buildTree W = some t) : BuiltFrom (scale W) t := by
  obtain ⟨u, hu, hbuilt⟩ := h.exists_builtFrom
  rw [ht, Option.some_inj] at hu
  exact hu ▸ hbuilt

/-! ### The shape of the tree (R204) -/

theorem treeSize_eq (t : Tree) :
    treeSize t + 1 = 2 * ((treeLeaves t).length + placeholders t) := by
  induction t with
  | leaf b w => rfl
  | placeholder => rfl
  | internal k w l r ihl ihr =>
    rw [treeSize, treeLeaves, placeholders, List.length_append]
    omega

theorem exists_internal_of_treeSize {t : Tree} (h : 1 < treeSize t) :
    ∃ k w l r, t = .internal k w l r := by
  cases t with
  | leaf b w => cases lt_irrefl 1 h
  | placeholder => cases lt_irrefl 1 h
  | internal k w l r => exact ⟨k, w, l, r, rfl⟩

theorem BuiltFrom.mergedInRankOrder {W : WeightTable} {t : Tree} (h : BuiltFrom W t) :
    mergedInRankOrder t := by
  refine ⟨fun p k w l r hp => ?_, fun p q i j v w a b c d hp hq => ⟨?_, fun hij => ?_⟩⟩
  · have hm := mem_merges_of_treeAt hp
    exact ⟨h.inOrder.weight _ hm, h.inOrder.siblings _ hm⟩
  · rintro rfl
    exact treeAt_path_unique h.inOrder.distinct hp hq
  · exact h.inOrder.taken _ (mem_merges_of_treeAt hp) _ (mem_merges_of_treeAt hq) hij

/-- Settles O41: what the rounds keep, read at the root. -/
theorem treeIsFull : Obligations.TreeIsFull := by
  intro W hW
  obtain ⟨t, ht, hbuilt⟩ := hW.ready.exists_builtFrom
  obtain ⟨hascending, hlen, -, -⟩ := hW
  have hlen256 := ascending_length_le hascending
  have hsize := treeSize_eq t
  have hdummy := hbuilt.placeholders
  rw [hbuilt.leaves.length_eq] at hsize
  rw [scale_length] at hsize hdummy
  refine ⟨t, ht, hbuilt.leaves, fun h => ?_, fun h => ?_, ?_, exists_internal_of_treeSize ?_,
    hbuilt.mergedInRankOrder, fun p k w l r hp => ?_⟩
  · rw [if_neg (by omega)] at hdummy
    omega
  · rw [if_pos h] at hdummy
    omega
  · split at hdummy <;> omega
  · split at hdummy <;> omega
  · simpa using hbuilt.made _ (mem_merges_of_treeAt hp)

/-! ### Weights (R203) -/

/-- Where each internal node weighs as much as its children, each node weighs as much as its leaves. -/
theorem treeWeight_eq_tableTotal {t : Tree}
    (h : ∀ m ∈ merges t, m.weight = treeWeight m.left + treeWeight m.right) :
    treeWeight t = tableTotal (treeLeaves t) := by
  induction t with
  | leaf b w => rfl
  | placeholder => rfl
  | internal k w l r ihl ihr =>
    obtain ⟨hroot, hbelow⟩ := List.forall_mem_cons.mp h
    obtain ⟨hl, hr⟩ := List.forall_mem_append.mp hbelow
    rw [treeLeaves, tableTotal_append, ← ihl hl, ← ihr hr]
    exact hroot

theorem treeLeaves_sublist_of_treeAt {t n : Tree} {p : Bits} (h : treeAt t p = some n) :
    (treeLeaves n).Sublist (treeLeaves t) := by
  induction p generalizing t with
  | nil =>
    rw [treeAt_nil, Option.some_inj] at h
    exact h ▸ .refl _
  | cons b p ih =>
    obtain ⟨k, w, l, r, rfl, h⟩ := treeAt_cons h
    refine (ih h).trans ?_
    cases b
    · exact List.sublist_append_left _ _
    · exact List.sublist_append_right _ _

/-- Settles O42: a node weighs as much as its leaves, which are some of the table's entries. -/
theorem nodeWeightsFit : Obligations.NodeWeightsFit := by
  intro W t hW ht
  have hbuilt := builtFrom_of_buildTree hW.ready ht
  obtain ⟨hascending, -, -, hweights⟩ := hW
  have hroot := treeWeight_eq_tableTotal hbuilt.inOrder.weight
  rw [tableTotal_perm hbuilt.leaves] at hroot
  refine ⟨hroot, fun p n hn => ?_⟩
  have hnode := treeWeight_eq_tableTotal fun m hm =>
    hbuilt.inOrder.weight m (merges_subset_of_treeAt hn hm)
  refine ⟨hnode, ?_, tableTotal_scale_le (ascending_length_le hascending) hweights⟩
  rw [hnode, ← tableTotal_perm hbuilt.leaves]
  exact ((treeLeaves_sublist_of_treeAt hn).map Prod.snd).sum_le_sum fun _ _ => Nat.zero_le _

end Sys2Proof.Machine

namespace Sys2Proof.Machine

/-! ### Depth against rank (R207) -/

section Depth
variable {t : Tree} (ht : InRankOrder (merges t))
include ht

/-- What an earlier merge took ranks below what a later one took. -/
theorem InRankOrder.children_ranked {k w i v : Nat} {l r a c : Tree} {p q : Bits}
    (hp : treeAt t p = some (.internal k w l r)) (hq : treeAt t q = some (.internal i v a c))
    (hki : k < i) (x y : Bool) : ranksBelow (if x then r else l) (if y then c else a) := by
  have hlr := ht.siblings _ (mem_merges_of_treeAt hp)
  have hac := ht.siblings _ (mem_merges_of_treeAt hq)
  have hra := ht.taken _ (mem_merges_of_treeAt hp) _ (mem_merges_of_treeAt hq) hki
  cases x <;> cases y
  · exact ranksBelow_trans hlr hra
  · exact ranksBelow_trans hlr (ranksBelow_trans hra hac)
  · exact hra
  · exact ranksBelow_trans hra hac

/-- An internal node made earlier ranks below one made later. -/
theorem InRankOrder.ranksBelow_of_index_lt {k w i v : Nat} {l r a c : Tree} {p q : Bits}
    (hp : treeAt t p = some (.internal k w l r)) (hq : treeAt t q = some (.internal i v a c))
    (hki : k < i) : ranksBelow (.internal k w l r) (.internal i v a c) := by
  have hw := ht.weight _ (mem_merges_of_treeAt hp)
  have hv := ht.weight _ (mem_merges_of_treeAt hq)
  have hleft := ranksBelow_weight_le (ht.children_ranked hp hq hki false false)
  have hright := ranksBelow_weight_le (ht.children_ranked hp hq hki true true)
  dsimp only at hw hv
  simp only [Bool.false_eq_true, if_false, if_true] at hleft hright
  have hle : w ≤ v := by omega
  rcases hle.lt_or_eq with h | h
  · exact .inl h
  · exact .inr ⟨h, hki⟩

/-- A deeper internal node was made earlier. -/
theorem InRankOrder.index_lt_of_deeper {q : Bits} :
    ∀ {p : Bits} {k w i v : Nat} {l r a c : Tree}, q.length < p.length →
      treeAt t p = some (.internal k w l r) → treeAt t q = some (.internal i v a c) → k < i := by
  induction q using List.reverseRecOn with
  | nil =>
    intro p k w i v l r a c hlen hp hq
    rw [treeAt_nil, Option.some_inj] at hq
    subst hq
    cases p with
    | nil => cases hlen
    | cons x p =>
      have hmem := mem_merges_of_treeAt (t := if x then c else a) hp
      refine ht.younger ⟨i, v, a, c⟩ (.head _) ⟨k, w, l, r⟩ ?_
      cases x
      · exact List.mem_append_left _ hmem
      · exact List.mem_append_right _ hmem
  | append_singleton q y ih =>
    intro p k w i v l r a c hlen hp hq
    rcases p.eq_nil_or_concat' with rfl | ⟨p, x, rfl⟩
    · cases hlen
    obtain ⟨k', w', l', r', hp', hpx⟩ := treeAt_concat hp
    obtain ⟨i', v', a', c', hq', hqy⟩ := treeAt_concat hq
    have hparents : k' < i' := ih (by simpa using hlen) hp' hq'
    have hrank := ht.children_ranked hp' hq' hparents x y
    rw [← hpx, ← hqy] at hrank
    by_contra hki
    rcases (Nat.not_lt.mp hki).lt_or_eq with hik | rfl
    · exact ranksBelow_asymm hrank (ht.ranksBelow_of_index_lt hq hp hik)
    · rw [treeAt_path_unique ht.distinct hp hq] at hlen
      exact lt_irrefl _ hlen

/-- A deeper node, internal or not, ranks below one that is higher up but is not the root. -/
theorem InRankOrder.ranksBelow_of_deeper {p q : Bits} {n m : Tree} (hlen : q.length < p.length)
    (hne : q ≠ []) (hp : treeAt t p = some n) (hq : treeAt t q = some m) : ranksBelow n m := by
  rcases p.eq_nil_or_concat' with rfl | ⟨p, x, rfl⟩
  · cases hlen
  obtain ⟨q, y, rfl⟩ := q.eq_nil_or_concat'.resolve_left hne
  obtain ⟨k, w, l, r, hp', rfl⟩ := treeAt_concat hp
  obtain ⟨i, v, a, c, hq', rfl⟩ := treeAt_concat hq
  exact ht.children_ranked hp' hq' (ht.index_lt_of_deeper (by simpa using hlen) hp' hq') x y

/-- A deeper leaf is not heavier. -/
theorem InRankOrder.weight_le_of_deeper {p q : Bits} {a b : Byte} {v w : Nat}
    (hlen : q.length < p.length) (hp : treeAt t p = some (.leaf a v))
    (hq : treeAt t q = some (.leaf b w)) : v ≤ w := by
  refine ranksBelow_weight_le (ht.ranksBelow_of_deeper hlen ?_ hp hq)
  rintro rfl
  rw [treeAt_nil, Option.some_inj] at hq
  subst hq
  cases p with
  | nil => cases hlen
  | cons x p => cases hp

end Depth

/-! ### Codes are the paths of the leaves (R221) -/

theorem exists_treeAt_of_mem_treeLeaves {t : Tree} {b : Byte} {w : Nat} (h : (b, w) ∈ treeLeaves t) :
    ∃ p, treeAt t p = some (.leaf b w) := by
  induction t with
  | leaf c v =>
    obtain ⟨rfl, rfl⟩ := Prod.mk.inj (List.mem_singleton.mp h)
    exact ⟨[], rfl⟩
  | placeholder => cases h
  | internal k u l r ihl ihr =>
    rcases List.mem_append.mp h with h | h
    · obtain ⟨p, hp⟩ := ihl h
      exact ⟨false :: p, hp⟩
    · obtain ⟨p, hp⟩ := ihr h
      exact ⟨true :: p, hp⟩

theorem mem_treeLeaves_of_treeAt {t : Tree} {p : Bits} {b : Byte} {w : Nat}
    (h : treeAt t p = some (.leaf b w)) : (b, w) ∈ treeLeaves t :=
  (treeLeaves_sublist_of_treeAt h).subset (List.mem_singleton_self _)

/-- The walk of a tree binds no other bytes than its leaves'. -/
theorem lookupKey_walk_other {t : Tree} {b : Byte} (h : b ∉ (treeLeaves t).map Prod.fst) (p : Bits)
    (C : CodeTable) : lookupKey b (walk t p C) = lookupKey b C := by
  induction t generalizing p C with
  | leaf c v => exact lookup_alter_other c b _ C (by simpa [treeLeaves] using h)
  | placeholder => rfl
  | internal k w l r ihl ihr =>
    rw [treeLeaves, List.map_append, List.mem_append, not_or] at h
    rw [walk, ihr h.2, ihl h.1]

/-- The walk of a tree binds each leaf's byte to the leaf's path. -/
theorem lookupKey_walk {t : Tree} (ht : ((treeLeaves t).map Prod.fst).Nodup) {q : Bits} {b : Byte}
    {w : Nat} (h : treeAt t q = some (.leaf b w)) (p : Bits) (C : CodeTable) :
    lookupKey b (walk t p C) = some (p ++ q) := by
  induction q generalizing t p C with
  | nil =>
    rw [treeAt_nil, Option.some_inj] at h
    rw [h, walk, List.append_nil]
    exact lookup_insert_self b p C
  | cons x q ih =>
    obtain ⟨k, v, l, r, rfl, hx⟩ := treeAt_cons h
    rw [treeLeaves, List.map_append, List.nodup_append'] at ht
    obtain ⟨hl, hr, hlr⟩ := ht
    rw [walk]
    cases x
    · have hmem : b ∈ (treeLeaves l).map Prod.fst :=
        List.mem_map_of_mem (mem_treeLeaves_of_treeAt hx)
      rw [lookupKey_walk_other (hlr hmem), ih hl hx, List.append_assoc, List.singleton_append]
    · rw [ih hr hx, List.append_assoc, List.singleton_append]

theorem codesOf_eq {W : WeightTable} {t : Tree} (ht : buildTree W = some t) :
    codesOf W = codeTable t := by
  rw [codesOf, ht]

theorem lookupKey_codesOf {W : WeightTable} {t : Tree} (hW : readyTable W)
    (ht : buildTree W = some t) {p : Bits} {b : Byte} {w : Nat}
    (hp : treeAt t p = some (.leaf b w)) : lookupKey b (codesOf W) = some p := by
  rw [codesOf_eq ht]
  refine lookupKey_walk ?_ hp [] []
  rw [((builtFrom_of_buildTree hW ht).leaves.map Prod.fst).nodup_iff, scale_map_fst]
  exact ascending_nodup hW.1 byteLt_irrefl

/-- An entry of the scaled table is a leaf, whose path is the byte's code. -/
theorem exists_path_of_mem_scale {W : WeightTable} {t : Tree} (hW : readyTable W)
    (ht : buildTree W = some t) {b : Byte} {w : Nat} (h : (b, w) ∈ scale W) :
    ∃ p, treeAt t p = some (.leaf b w) ∧ lookupKey b (codesOf W) = some p := by
  have hleaf := (builtFrom_of_buildTree hW ht).leaves.mem_iff.mpr h
  obtain ⟨p, hp⟩ := exists_treeAt_of_mem_treeLeaves hleaf
  exact ⟨p, hp, lookupKey_codesOf hW ht hp⟩

theorem mem_of_lookupKey {α β : Type} [DecidableEq α] {k : α} {v : β} {m : List (α × β)}
    (h : lookupKey k m = some v) : (k, v) ∈ m := by
  induction m with
  | nil => cases h
  | cons e m ih =>
    rw [lookupKey] at h
    split at h
    case isTrue hk =>
      rw [Option.some_inj] at h
      exact hk ▸ h ▸ .head _
    case isFalse => exact .tail _ (ih h)

/-- Settles O45: were the heavier symbol's leaf the deeper one, it would rank below the other's. -/
theorem heavierIsNotDeeper : Obligations.HeavierIsNotDeeper := by
  intro W a b v w hW ha hb hwv
  obtain ⟨t, ht, hbuilt⟩ := hW.ready.exists_builtFrom
  obtain ⟨p, hp, hcode⟩ := exists_path_of_mem_scale hW.ready ht (mem_of_lookupKey ha)
  obtain ⟨q, hq, hcode'⟩ := exists_path_of_mem_scale hW.ready ht (mem_of_lookupKey hb)
  rw [codeLength, codeLength, hcode, hcode', Option.getD_some, Option.getD_some]
  by_contra hlen
  have hle := hbuilt.inOrder.weight_le_of_deeper (Nat.not_le.mp hlen) hp hq
  exact absurd hwv (Nat.not_lt.mpr hle)

end Sys2Proof.Machine

namespace Sys2Proof.Machine

/-! ### Trees of one and of two nodes (R205, R206) -/

theorem treeOfScaled_single (b : Byte) {w : Nat} (hw : 1 ≤ w) :
    treeOfScaled [(b, w)] = some (.internal 0 w .placeholder (.leaf b w)) := by
  have hrank : ranksBelow .placeholder (.leaf b w) := .inl hw
  rw [ranksBelow_iff_keyLt] at hrank
  simp [treeOfScaled, startQueue, insertNode, hrank, mergeRounds, treeWeight]

/-- Settles O43: the placeholder ranks below a leaf with a positive weight. -/
theorem singleEntryTree : Obligations.SingleEntryTree := by
  intro b w hpos hw
  have ⟨_, hready⟩ : readyTable [(b, w)] :=
    readyTable_of_total_pos (List.pairwise_singleton _ _) (Nat.add_pos_left hpos _)
  have hscale : scale [(b, w)] = [(b, w)] := scale_of_le (by simp; omega)
  have htree : buildTree [(b, w)] = some (.internal 0 w .placeholder (.leaf b w)) := by
    rw [buildTree, if_pos hready, hscale, treeOfScaled_single b hpos]
  exact ⟨htree, by simp [codesOf_eq htree, codeTable, walk, insertKey, alterKey]⟩

/-- Two entries in canonical order make a tree of their two leaves, the lower rank on the left. -/
theorem treeOfScaled_pair (a b : Byte) (v w : Nat) :
    (ranksBelow (.leaf a v) (.leaf b w) ∧ treeOfScaled [(a, v), (b, w)]
        = some (.internal 0 (v + w) (.leaf a v) (.leaf b w))) ∨
    (¬ ranksBelow (.leaf a v) (.leaf b w) ∧ treeOfScaled [(a, v), (b, w)]
        = some (.internal 0 (w + v) (.leaf b w) (.leaf a v))) := by
  rcases insertNode_cons (.leaf a v) (.leaf b w) [] with ⟨h, hq⟩ | ⟨h, hq⟩
  · exact .inl ⟨h, by simp [treeOfScaled, startQueue, insertNode, hq, mergeRounds, treeWeight]⟩
  · exact .inr ⟨h, by simp [treeOfScaled, startQueue, insertNode, hq, mergeRounds, treeWeight]⟩

/-- Settles O44: the tree of two leaves, in either order. -/
theorem twoEntryCodes : Obligations.TwoEntryCodes := by
  intro a b v w hab hv hw hpos
  have hne : b ≠ a := by
    rintro rfl
    exact lt_irrefl _ hab
  have hlt : byteLt a b = true := decide_eq_true hab
  have hlt' : byteLt b a = false := decide_eq_false (Nat.lt_asymm hab)
  have ⟨_, hready⟩ : readyTable [(a, v), (b, w)] :=
    readyTable_of_total_pos (List.pairwise_pair.mpr hlt) (by simpa using hpos)
  obtain ⟨r, hscale, -⟩ := scale_eq_map [(a, v), (b, w)]
  have hbuild : buildTree [(a, v), (b, w)] = treeOfScaled [(a, halve^[r] v), (b, halve^[r] w)] := by
    rw [buildTree, if_pos hready, hscale]
    rfl
  rcases treeOfScaled_pair a b (halve^[r] v) (halve^[r] w) with ⟨hrank, htree⟩ | ⟨hrank, htree⟩
  · rw [← hbuild] at htree
    have hcodes : codesOf [(a, v), (b, w)] = [(a, [false]), (b, [true])] := by
      simp [codesOf_eq htree, codeTable, walk, insertKey, alterKey, hne, hlt']
    refine ⟨⟨false, true, hcodes, by decide⟩, ?_⟩
    rintro rfl
    exact ⟨hcodes, _, _, htree⟩
  · rw [← hbuild] at htree
    have hcodes : codesOf [(a, v), (b, w)] = [(a, [true]), (b, [false])] := by
      simp [codesOf_eq htree, codeTable, walk, insertKey, alterKey, hne.symm, hlt]
    refine ⟨⟨true, false, hcodes, by decide⟩, ?_⟩
    rintro rfl
    exact absurd (.inr ⟨rfl, hab⟩) hrank

/-! ### Every context has a code table (R190, R227) -/

theorem buildAll_of_ready {F : FreqModel} (hF : ∀ r ∈ F, readyTable r.2) :
    ∃ N, buildAll F = some N ∧ N.map (fun e => (e.1, codeTable e.2)) = codeStoreOf F := by
  induction F with
  | nil => exact ⟨[], rfl, rfl⟩
  | cons r F ih =>
    obtain ⟨hr, hF⟩ := List.forall_mem_cons.mp hF
    obtain ⟨t, ht, -⟩ := hr.exists_builtFrom
    obtain ⟨N, hN, hcodes⟩ := ih hF
    refine ⟨(r.1, t) :: N, by rw [buildAll, ht, hN], ?_⟩
    rw [List.map_cons, hcodes, ← codesOf_eq ht]
    rfl

theorem lookupKey_codeStoreOf (k : Bytes) (F : FreqModel) :
    lookupKey k (codeStoreOf F) = (lookupKey k F).map codesOf := by
  induction F with
  | nil => rfl
  | cons r F ih =>
    rw [codeStoreOf, List.map_cons, lookupKey, lookupKey]
    split
    · rfl
    · exact ih

/-- Every byte of a ready table has a code. -/
theorem exists_code {W : WeightTable} (hW : readyTable W) {b : Byte} (hb : b ∈ W.map Prod.fst) :
    ∃ code, lookupKey b (codesOf W) = some code := by
  obtain ⟨t, ht, -⟩ := hW.exists_builtFrom
  rw [← scale_map_fst] at hb
  obtain ⟨⟨b, w⟩, he, rfl⟩ := List.mem_map.mp hb
  obtain ⟨p, -, hcode⟩ := exists_path_of_mem_scale hW ht he
  exact ⟨p, hcode⟩

theorem freqModel_ready {o : Nat} {input : Bytes} {r : Bytes × WeightTable}
    (hr : r ∈ freqModel o input) : readyTable r.2 :=
  readyTable_of_total_pos (freqModel_table hr).ascending (freqModel_tableTotal_pos hr)

/-- A symbol of the input has a code in the model's code store (R227). -/
theorem exists_encodeLookup {o : Nat} {input : Bytes} {cw : Bytes} {b : Byte}
    (h : (cw, b) ∈ (windows (zeros o) input).zip input) :
    ∃ code, encodeLookup (codeStoreOf (freqModel o input)) cw b = some code := by
  have hkey : cw ∈ (freqModel o input).map Prod.fst :=
    (mem_freqModel_keys o input cw).mpr (List.of_mem_zip h).1
  obtain ⟨⟨cw, T⟩, hr, rfl⟩ := List.mem_map.mp hkey
  have hT : lookupKey cw (freqModel o input) = some T :=
    lookupKey_of_mem (ascending_nodup (freqModel_counts o input).ascending bytesLt_irrefl) hr
  have hb : b ∈ T.map Prod.fst := by
    by_contra hb
    have hentry := (freqModel_table hr).entry b
    rw [(lookupKey_none b T).mpr hb, entryOf, if_neg (List.count_pos_iff.mpr h).ne'] at hentry
    cases hentry
  obtain ⟨code, hcode⟩ := exists_code (freqModel_ready hr) hb
  refine ⟨code, ?_⟩
  rw [encodeLookup, lookupKey_codeStoreOf, hT]
  exact hcode

/-- PACK goes through where every symbol has a code. -/
theorem packBits_of_codes {C : CodeStore} {cw input : Bytes}
    (h : ∀ e ∈ (windows cw input).zip input, ∃ code, encodeLookup C e.1 e.2 = some code) :
    ∃ bits, packBits C cw input = some bits := by
  induction input generalizing cw with
  | nil => exact ⟨[], rfl⟩
  | cons b rest ih =>
    obtain ⟨⟨code, hcode⟩, hrest⟩ := List.forall_mem_cons.mp h
    obtain ⟨more, hmore⟩ := ih hrest
    exact ⟨code ++ more, by rw [packBits, hcode, hmore]; rfl⟩

/-- Every code that PACK asks for exists (R227, R281). -/
theorem packBits_freqModel (o : Nat) (input : Bytes) :
    ∃ bits, packBits (codeStoreOf (freqModel o input)) (zeros o) input = some bits :=
  packBits_of_codes fun _ he => exists_encodeLookup he

/-! ### Tables of a header that parses (R255, R263) -/

/-- What the parser stored is good records, read in any order. -/
theorem parseHeader_wt {p : Params} {input : Bytes} {hd : Header}
    (h : parseHeader p input = .ok hd) :
    ∃ R : FreqModel, (∀ r ∈ R, goodRecord hd.order r) ∧ (R.map Prod.fst).Nodup ∧
      hd.wt = insertAll bytesLt (R.map storedRecord) [] := by
  unfold parseHeader at h
  obtain ⟨⟨lengthField, rest⟩, -, h⟩ := bind_ok h
  dsimp only at h
  split at h
  · cases h
  obtain ⟨⟨sizeField, rest⟩, -, h⟩ := bind_ok h
  dsimp only at h
  split at h
  · cases h
  split at h
  · cases h
  obtain ⟨⟨countField, rest⟩, -, h⟩ := bind_ok h
  dsimp only at h
  split at h
  · cases h
  obtain ⟨⟨WT, rest'⟩, hrecords, h⟩ := bind_ok h
  cases h
  obtain ⟨R, tail, -, hR, hd, -, ⟨-, hok⟩ | ⟨e, -, -, herr⟩⟩ :=
    parseRecords_cases (beValue sizeField - 1) (beValue countField) [] rest
  · rw [hok] at hrecords
    cases hrecords
    exact ⟨R, hR, hd, rfl⟩
  · rw [herr] at hrecords
    cases hrecords

theorem storedRecord_good {o : Nat} {r : Bytes × WeightTable} (hr : goodRecord o r) :
    goodTable (storedRecord r).2 := by
  obtain ⟨-, hlen, -, hd, hweights, hpos⟩ := hr
  have hperm := storedRecord_perm hd
  exact ⟨storedRecord_ascending r, hperm.length_eq ▸ hlen, tableTotal_perm hperm ▸ hpos,
    fun e he => hweights e (hperm.mem_iff.mp he)⟩

/-- TREE is given good tables by DECOMPRESS (R191). -/
theorem parseHeader_good {p : Params} {input : Bytes} {hd : Header}
    (h : parseHeader p input = .ok hd) {r : Bytes × WeightTable} (hr : r ∈ hd.wt) :
    goodTable r.2 := by
  obtain ⟨R, hR, hkeys, hwt⟩ := parseHeader_wt h
  rw [hwt, (storedRecords_perm hkeys).mem_iff] at hr
  obtain ⟨x, hx, rfl⟩ := List.mem_map.mp hr
  exact storedRecord_good (hR x hx)

/-! ### No fault (R191, R227) -/

/-- A phase that does not end in a fault of the model. -/
def NoFault {α : Type} (x : Except Stop α) : Prop := ∀ f, x ≠ .error (.fault f)

theorem NoFault.bind {α β : Type} {x : Except Stop α} {k : α → Except Stop β} (hx : NoFault x)
    (hk : ∀ a, x = .ok a → NoFault (k a)) : NoFault (x >>= k) := by
  cases x with
  | ok a => exact hk a rfl
  | error e => exact fun f hf => hx f (by cases hf; rfl)

theorem NoFault.ok {α : Type} (a : α) : NoFault (.ok a : Except Stop α) := fun _ h => by cases h

theorem NoFault.raise {α : Type} (e : ErrKind) (s : State) :
    NoFault (raiseError e s : Except Stop α) := fun _ h => by cases h

theorem NoFault.ite {α : Type} {c : Prop} [Decidable c] {x y : Except Stop α} (hx : NoFault x)
    (hy : NoFault y) : NoFault (if c then x else y) := by
  split
  · exact hx
  · exact hy

theorem checkCompress_noFault (o : Byte) (s : State) : NoFault (checkCompress o s) :=
  .ite (.raise _ _) (.ite (.raise _ _) (.ite (.raise _ _) (.ok _)))

theorem phaseFreq_noFault (s : State) : NoFault (phaseFreq s) := .ite (.raise _ _) (.ok _)

theorem checkSize_noFault (s : State) : NoFault (checkSize s) := .ite (.raise _ _) (.ok _)

theorem checkDecompress_noFault (s : State) : NoFault (checkDecompress s) := .ite (.raise _ _) (.ok _)

/-- TREE and CODEGEN on ready tables give the code store of those tables. -/
theorem buildPhase_ready {p : Phase} {F : FreqModel} (s : State) (hF : ∀ r ∈ F, readyTable r.2) :
    ∃ t, buildPhase p F s = .ok t ∧
      t.stores.node.map (fun e => (e.1, codeTable e.2)) = codeStoreOf F := by
  obtain ⟨N, hN, hcodes⟩ := buildAll_of_ready hF
  exact ⟨_, by rw [buildPhase, hN], hcodes⟩

theorem buildPhase_noFault {p : Phase} {F : FreqModel} {s : State} (hF : ∀ r ∈ F, readyTable r.2) :
    NoFault (buildPhase p F s) := by
  obtain ⟨t, ht, -⟩ := buildPhase_ready (p := p) s hF
  exact ht ▸ .ok t

theorem phaseCodegen_code {p q : Phase} {F : FreqModel} {s t : State} (hF : ∀ r ∈ F, readyTable r.2)
    (ht : buildPhase p F s = .ok t) : (phaseCodegen q t).stores.code = codeStoreOf F := by
  obtain ⟨u, hu, hcodes⟩ := buildPhase_ready (p := p) s hF
  rw [ht, Except.ok.injEq] at hu
  exact hu ▸ hcodes

theorem phasePack_noFault {s : State}
    (h : ∃ bits, packBits s.stores.code (zeros s.work.ord.toNat) s.input = some bits) :
    NoFault (phasePack s) := by
  obtain ⟨bits, hbits⟩ := h
  simp only [phasePack, hbits]
  exact .ok _

theorem phaseHdrw_input (s : State) : (phaseHdrw s).input = s.input := input_eq rfl rfl rfl

theorem compressPhases_noFault (o : Byte) (s : State) : NoFault (compressPhases o s) := by
  unfold compressPhases
  refine .bind (checkCompress_noFault o s) fun s _ => .bind (phaseFreq_noFault s) fun s hs => ?_
  obtain ⟨hfreq, -, -⟩ := phaseFreq_ok hs
  have hready : ∀ r ∈ s.stores.freq, readyTable r.2 := fun r hr => freqModel_ready (hfreq ▸ hr)
  refine .bind (buildPhase_noFault hready) fun t ht => ?_
  refine .bind (checkSize_noFault _) fun u hu => .bind (phasePack_noFault ?_) fun _ _ => .ok _
  obtain ⟨rfl, -⟩ := checkSize_ok hu
  obtain ⟨-, hwork, hinput, -, -⟩ := buildPhase_phaseCodegen_ok (q := .codegen) ht
  have hcode := phaseCodegen_code (q := .codegen) hready ht
  have hpack := packBits_freqModel s.work.ord.toNat s.input
  rw [← hfreq, ← hcode, ← hwork, ← hinput, ← phaseHdrw_input] at hpack
  exact hpack

theorem phaseHdrp_noFault (s : State) : NoFault (phaseHdrp s) := by
  unfold phaseHdrp
  dsimp only
  split
  · exact .raise _ _
  · exact .ok _

theorem phaseUnpack_noFault (s : State) : NoFault (phaseUnpack s) := by
  unfold phaseUnpack
  dsimp only
  split
  · exact .ok _
  · exact .raise _ _

/-- After HDRP the WT store holds good tables. -/
theorem phaseHdrp_good {s : State} {r : State × Nat} (h : phaseHdrp s = .ok r) :
    ∀ e ∈ r.1.stores.wt, goodTable e.2 := by
  unfold phaseHdrp raiseError at h
  dsimp only at h
  split at h <;> cases h
  next hd hparse => exact fun e he => parseHeader_good hparse he

theorem decompressPhases_noFault (s : State) : NoFault (decompressPhases s) := by
  unfold decompressPhases
  refine .bind (checkDecompress_noFault s) fun s _ => .bind (phaseHdrp_noFault s) fun r hr => ?_
  have hready : ∀ e ∈ r.1.stores.wt, readyTable e.2 := fun e he => (phaseHdrp_good hr e he).ready
  exact .bind (buildPhase_noFault hready) fun t _ => .bind (phaseUnpack_noFault _) fun _ _ => .ok _

theorem finish_next {x : Except Stop (State × Nat × Nat × Nat)} (h : NoFault x) :
    ∃ t, finish x = .next t := by
  match x, h with
  | .ok (s, n, hl, k), _ => exact ⟨_, rfl⟩
  | .error (.raised e s), _ => exact ⟨_, rfl⟩
  | .error (.fault f), h => exact absurd rfl (h f)

theorem exec_next (i : Instr) (s : State) : ∃ t, exec i s = .next t := by
  cases i with
  | nop => exact ⟨s, rfl⟩
  | compress o => exact finish_next (compressPhases_noFault o s)
  | decompress => exact finish_next (decompressPhases_noFault s)
  | illegal w => exact ⟨_, rfl⟩

theorem coreStep_next (s : State) : ∃ t, coreStep s = .next t := by
  unfold coreStep
  split
  · exact exec_next _ s
  · exact ⟨s, rfl⟩

/-- Settles O8: TREE is called on ready tables only, every symbol that PACK codes was counted, and so no
command ends in a fault. -/
theorem everyStepGoesOn : Obligations.EveryStepGoesOn := by
  refine ⟨exec_next, fun s => ?_⟩
  unfold step
  split
  · exact ⟨_, hostStep_eq _ _⟩
  · exact coreStep_next _
  · exact ⟨_, rfl⟩
  · split
    · exact coreStep_next _
    · exact ⟨s, rfl⟩

end Sys2Proof.Machine

namespace Sys2Proof.Machine

/-! ### What a bit string meets on its way down a tree (R221, R295) -/

theorem treeAt_append_of_treeAt {t u : Tree} {p : Bits} (h : treeAt t p = some u) (q : Bits) :
    treeAt t (p ++ q) = treeAt u q := by
  induction p generalizing t with
  | nil =>
    rw [treeAt_nil, Option.some_inj] at h
    rw [h, List.nil_append]
  | cons b p ih =>
    obtain ⟨k, w, l, r, rfl, h⟩ := treeAt_cons h
    exact ih h

/-- Nothing lies below a leaf. -/
theorem treeAt_leaf {b : Byte} {w : Nat} {p : Bits} {n : Tree}
    (h : treeAt (.leaf b w) p = some n) : p = [] ∧ n = .leaf b w := by
  cases p with
  | nil => exact ⟨rfl, (Option.some_inj.mp h).symm⟩
  | cons x p => cases h

/-- Where a path goes on to a further node, it has reached an internal node. -/
theorem exists_internal_of_treeAt_append {t n : Tree} {p q : Bits} (hq : q ≠ [])
    (h : treeAt t (p ++ q) = some n) : ∃ k w l r, treeAt t p = some (.internal k w l r) := by
  obtain ⟨u, hu, hn⟩ := treeAt_append h
  obtain ⟨x, q, rfl⟩ := List.exists_cons_of_ne_nil hq
  obtain ⟨k, w, l, r, rfl, -⟩ := treeAt_cons hn
  exact ⟨k, w, l, r, hu⟩

/-- A bit string ends at an internal node, or passes a leaf or a placeholder. -/
theorem treeAt_cases (t : Tree) (a : Bits) :
    (∃ k w l r, treeAt t a = some (.internal k w l r)) ∨
    (∃ p b w, p <+: a ∧ treeAt t p = some (.leaf b w)) ∨
    (∃ p, p <+: a ∧ treeAt t p = some .placeholder) := by
  induction a generalizing t with
  | nil =>
    cases t with
    | leaf b w => exact .inr (.inl ⟨[], b, w, List.prefix_rfl, rfl⟩)
    | placeholder => exact .inr (.inr ⟨[], List.prefix_rfl, rfl⟩)
    | internal k w l r => exact .inl ⟨k, w, l, r, rfl⟩
  | cons x a ih =>
    cases t with
    | leaf b w => exact .inr (.inl ⟨[], b, w, List.nil_prefix, rfl⟩)
    | placeholder => exact .inr (.inr ⟨[], List.nil_prefix, rfl⟩)
    | internal k w l r =>
      rcases ih (if x then r else l) with h | ⟨p, b, v, hp, h⟩ | ⟨p, hp, h⟩
      · exact .inl h
      · exact .inr (.inl ⟨x :: p, b, v, (List.prefix_cons_inj x).mpr hp, h⟩)
      · exact .inr (.inr ⟨x :: p, (List.prefix_cons_inj x).mpr hp, h⟩)

theorem treeSize_pos (t : Tree) : 0 < treeSize t := by cases t <;> exact Nat.succ_pos _

/-- A step down leaves behind the node and its other child. -/
theorem treeSize_add_depth_le {t n : Tree} {p : Bits} (h : treeAt t p = some n) :
    treeSize n + 2 * p.length ≤ treeSize t := by
  induction p generalizing t with
  | nil =>
    rw [treeAt_nil, Option.some_inj] at h
    rw [h, List.length_nil, Nat.mul_zero, Nat.add_zero]
  | cons x p ih =>
    obtain ⟨k, w, l, r, rfl, h⟩ := treeAt_cons h
    have hchild := ih h
    have hl := treeSize_pos l
    have hr := treeSize_pos r
    rw [treeSize, List.length_cons]
    cases x
    · rw [if_neg Bool.false_ne_true] at hchild
      omega
    · rw [if_pos rfl] at hchild
      omega

theorem placeholders_le_of_treeAt {t n : Tree} {p : Bits} (h : treeAt t p = some n) :
    placeholders n ≤ placeholders t := by
  induction p generalizing t with
  | nil =>
    rw [treeAt_nil, Option.some_inj] at h
    rw [h]
  | cons x p ih =>
    obtain ⟨k, w, l, r, rfl, h⟩ := treeAt_cons h
    rw [placeholders]
    cases x
    · exact (ih h).trans (Nat.le_add_right _ _)
    · exact (ih h).trans (Nat.le_add_left _ _)

/-- With one placeholder at most, an internal node has a leaf below it. -/
theorem exists_leaf_below {t l r : Tree} {p : Bits} {k w : Nat} (ht : placeholders t ≤ 1)
    (h : treeAt t p = some (.internal k w l r)) :
    ∃ q b v, q ≠ [] ∧ treeAt t (p ++ q) = some (.leaf b v) := by
  have hdummy := (placeholders_le_of_treeAt h).trans ht
  have hsize := treeSize_eq (.internal k w l r)
  have hl := treeSize_pos l
  have hr := treeSize_pos r
  rw [treeSize] at hsize
  have hleaves : treeLeaves (.internal k w l r) ≠ [] := List.ne_nil_of_length_pos (by omega)
  obtain ⟨⟨b, v⟩, hmem⟩ := List.exists_mem_of_ne_nil _ hleaves
  obtain ⟨q, hq⟩ := exists_treeAt_of_mem_treeLeaves hmem
  refine ⟨q, b, v, ?_, (treeAt_append_of_treeAt h q).trans hq⟩
  rintro rfl
  cases hq

/-! ### The keys of a code table (R221, R223) -/

theorem mem_walk_fst (t : Tree) (p : Bits) (C : CodeTable) (b : Byte) :
    b ∈ (walk t p C).map Prod.fst ↔ b ∈ (treeLeaves t).map Prod.fst ∨ b ∈ C.map Prod.fst := by
  induction t generalizing p C with
  | leaf c v => exact (mem_insertKey_fst byteLt c b p C).trans (by simp [treeLeaves])
  | placeholder => simp [walk, treeLeaves]
  | internal k w l r ihl ihr =>
    rw [walk, ihr, ihl, treeLeaves, List.map_append, List.mem_append, or_left_comm, or_assoc]

theorem walk_ascending {t : Tree} {p : Bits} {C : CodeTable} (h : Ascending byteLt C) :
    Ascending byteLt (walk t p C) := by
  induction t generalizing p C with
  | leaf b w => exact alter_ascending b _ C h byteLt_trans byteLt_total
  | placeholder => exact h
  | internal k w l r ihl ihr => exact ihr (ihl h)

theorem codesOf_ascending (W : WeightTable) : Ascending byteLt (codesOf W) := by
  unfold codesOf
  split
  · exact walk_ascending .nil
  · exact .nil

/-- Maps in canonical form with the same keys list them alike. -/
theorem ascending_keys_eq {α β : Type} {C : List (Byte × α)} {W : List (Byte × β)}
    (hC : Ascending byteLt C) (hW : Ascending byteLt W)
    (h : ∀ b, b ∈ C.map Prod.fst ↔ b ∈ W.map Prod.fst) : C.map Prod.fst = W.map Prod.fst := by
  have hperm := (List.perm_ext_iff_of_nodup (ascending_nodup hC byteLt_irrefl)
    (ascending_nodup hW byteLt_irrefl)).mpr h
  refine hperm.eq_of_pairwise (le := fun x y => byteLt x y = true) (fun a b _ _ hab hba => ?_)
    (List.pairwise_map.mpr hC) (List.pairwise_map.mpr hW)
  have haa := byteLt_trans a b a hab hba
  rw [byteLt_irrefl] at haa
  cases haa

/-! ### The tree and the lookups (R223, R225, R228, R295) -/

theorem mem_of_decodeLookup {C : CodeTable} {a : Bits} {b : Byte}
    (h : decodeLookup C a = some b) : (b, a) ∈ C := by
  obtain ⟨⟨c, p⟩, hfind, rfl⟩ := Option.map_eq_some_iff.mp h
  have hp : (p == a) = true := List.find?_some (p := fun e : Byte × Bits => e.2 == a) hfind
  exact beq_iff_eq.mp hp ▸ List.mem_of_find?_eq_some hfind

theorem exists_decodeLookup_of_mem {C : CodeTable} {a : Bits} {b : Byte} (h : (b, a) ∈ C) :
    ∃ c, decodeLookup C a = some c := by
  have hfound : (C.find? fun e => e.2 == a).isSome :=
    List.find?_isSome.mpr ⟨(b, a), h, beq_self_eq_true a⟩
  obtain ⟨e, he⟩ := Option.isSome_iff_exists.mp hfound
  exact ⟨e.1, by rw [decodeLookup, he, Option.map_some]⟩

section CodesAtTree
variable {W : WeightTable} {t : Tree} (hW : readyTable W) (ht : buildTree W = some t)
include hW ht

theorem placeholders_le_one : placeholders t ≤ 1 := by
  rw [(builtFrom_of_buildTree hW ht).placeholders]
  split <;> omega

theorem codesOf_map_fst : (codesOf W).map Prod.fst = W.map Prod.fst := by
  refine ascending_keys_eq (codesOf_ascending W) hW.1 fun b => ?_
  have hleaves := (builtFrom_of_buildTree hW ht).leaves.map Prod.fst
  rw [scale_map_fst] at hleaves
  rw [codesOf_eq ht, codeTable, mem_walk_fst, hleaves.mem_iff]
  simp

/-- The entries of the code table are the leaves of the tree with their paths. -/
theorem mem_codesOf_iff (b : Byte) (p : Bits) :
    (b, p) ∈ codesOf W ↔ ∃ w, treeAt t p = some (.leaf b w) := by
  constructor
  · intro h
    have hb : b ∈ (scale W).map Prod.fst := by
      rw [scale_map_fst, ← codesOf_map_fst hW ht]
      exact List.mem_map_of_mem h
    obtain ⟨⟨b, w⟩, hw, rfl⟩ := List.mem_map.mp hb
    obtain ⟨q, hq, hcode⟩ := exists_path_of_mem_scale hW ht hw
    have hnodup := ascending_nodup (codesOf_ascending W) byteLt_irrefl
    obtain rfl : p = q := Option.some_inj.mp ((lookupKey_of_mem hnodup h).symm.trans hcode)
    exact ⟨w, hq⟩
  · rintro ⟨w, hp⟩
    exact mem_of_lookupKey (lookupKey_codesOf hW ht hp)

/-- A code that begins another code is of the same byte: nothing lies below a leaf. -/
theorem byte_eq_of_code_prefix {b c : Byte} {p q : Bits} (hp : (b, p) ∈ codesOf W)
    (hq : (c, q) ∈ codesOf W) (hpq : p <+: q) : b = c := by
  obtain ⟨v, hp⟩ := (mem_codesOf_iff hW ht b p).mp hp
  obtain ⟨w, hq⟩ := (mem_codesOf_iff hW ht c q).mp hq
  obtain ⟨s, rfl⟩ := hpq
  rw [treeAt_append_of_treeAt hp] at hq
  obtain ⟨-, hleaf⟩ := treeAt_leaf hq
  exact (Tree.leaf.inj hleaf).1.symm

/-- A hit is a leaf (R228, R295). -/
theorem decodeLookup_codesOf_iff (a : Bits) (b : Byte) :
    decodeLookup (codesOf W) a = some b ↔ ∃ w, treeAt t a = some (.leaf b w) := by
  rw [← mem_codesOf_iff hW ht]
  refine ⟨mem_of_decodeLookup, fun hb => ?_⟩
  obtain ⟨c, hlookup⟩ := exists_decodeLookup_of_mem hb
  have hc := mem_of_decodeLookup hlookup
  rw [hlookup, byte_eq_of_code_prefix hW ht hc hb List.prefix_rfl]

/-- What a longer code begins with is the path of an internal node (R295). -/
theorem exists_longer_code_iff (a : Bits) :
    (∃ e ∈ codesOf W, a <+: e.2 ∧ a ≠ e.2) ↔ ∃ k w l r, treeAt t a = some (.internal k w l r) := by
  constructor
  · rintro ⟨⟨b, p⟩, hmem, ⟨q, rfl⟩, hne⟩
    obtain ⟨w, hleaf⟩ := (mem_codesOf_iff hW ht b _).mp hmem
    have hq : q ≠ [] := fun h => hne (by rw [h, List.append_nil])
    exact exists_internal_of_treeAt_append hq hleaf
  · rintro ⟨k, w, l, r, h⟩
    obtain ⟨q, b, v, hq, hleaf⟩ := exists_leaf_below (placeholders_le_one hW ht) h
    exact ⟨(b, a ++ q), (mem_codesOf_iff hW ht b _).mpr ⟨v, hleaf⟩, List.prefix_append a q,
      fun h => hq (List.self_eq_append_right.mp h)⟩

theorem properPrefix_codesOf_iff (a : Bits) :
    properPrefix (codesOf W) a = true ↔ ∃ k w l r, treeAt t a = some (.internal k w l r) := by
  rw [← exists_longer_code_iff hW ht, properPrefix]
  simp

/-- Where no leaf is reached, the lookup misses. -/
theorem decodeLookup_codesOf_none {a : Bits} (h : ∀ b w, treeAt t a ≠ some (.leaf b w)) :
    decodeLookup (codesOf W) a = none := by
  refine Option.eq_none_iff_forall_ne_some.mpr fun b hb => ?_
  obtain ⟨w, hw⟩ := (decodeLookup_codesOf_iff hW ht a b).mp hb
  exact h b w hw

theorem properPrefix_codesOf_false {a : Bits}
    (h : ∀ k w l r, treeAt t a ≠ some (.internal k w l r)) :
    properPrefix (codesOf W) a = false := by
  refine Bool.eq_false_iff.mpr fun hprefix => ?_
  obtain ⟨k, w, l, r, hnode⟩ := (properPrefix_codesOf_iff hW ht a).mp hprefix
  exact h k w l r hnode

end CodesAtTree

/-- Settles O46: the codes are the paths of the leaves, which lie below the root and at most as deep as
a full tree of that size can be. -/
theorem codesCoverTheTable : Obligations.CodesCoverTheTable := by
  intro W hW
  obtain ⟨t, ht, -, hmany, hone, -, ⟨k, w, l, r, rfl⟩, -⟩ := treeIsFull W hW
  have hkeys := codesOf_map_fst hW.ready ht
  have hmem := mem_codesOf_iff hW.ready ht
  obtain ⟨hascending, hlen, -, -⟩ := hW
  have hlen256 := ascending_length_le hascending
  refine ⟨fun hnil => ?_, hkeys, fun ⟨b, p⟩ he => ?_⟩
  · rw [hnil, List.map_nil] at hkeys
    rw [List.map_eq_nil_iff.mp hkeys.symm] at hlen
    cases hlen
  · obtain ⟨v, hp⟩ := (hmem b p).mp he
    have hpos : 1 ≤ p.length := List.length_pos_iff.mpr (by rintro rfl; cases hp)
    have hdepth := treeSize_add_depth_le hp
    have hmax : p.length ≤ max 1 (W.length - 1) := by
      rw [treeSize] at hdepth
      rcases hlen.lt_or_eq with h | h
      · obtain ⟨-, hsize⟩ := hmany h
        omega
      · obtain ⟨-, hsize⟩ := hone h.symm
        omega
    dsimp only
    omega

/-- Settles O47: no leaf lies below another. -/
theorem codesPrefixFree : Obligations.CodesPrefixFree := by
  intro W hW e he f hf hne hprefix
  obtain ⟨t, ht, -⟩ := hW.ready.exists_builtFrom
  exact hne (byte_eq_of_code_prefix hW.ready ht he hf hprefix)

/-- Without a placeholder every bit string ends at an internal node or passes a leaf. -/
theorem codesOf_complete {W : WeightTable} (hW : goodTable W) (hlen : 2 ≤ W.length) (a : Bits) :
    (∃ e ∈ codesOf W, e.2 <+: a) ∨ ∃ e ∈ codesOf W, a <+: e.2 ∧ a ≠ e.2 := by
  obtain ⟨t, ht, -, hmany, -⟩ := treeIsFull W hW
  obtain ⟨hnone, -⟩ := hmany hlen
  rcases treeAt_cases t a with h | ⟨p, b, w, hp, h⟩ | ⟨p, -, h⟩
  · exact .inr ((exists_longer_code_iff hW.ready ht a).mpr h)
  · exact .inl ⟨(b, p), (mem_codesOf_iff hW.ready ht b p).mpr ⟨w, h⟩, hp⟩
  · have hdummy := placeholders_le_of_treeAt h
    rw [hnone, placeholders] at hdummy
    cases hdummy

/-- Settles O48: a full tree without a placeholder turns no bit string away, and the tree of a single
entry has the placeholder on the left (R205). -/
theorem codesComplete : Obligations.CodesComplete := by
  intro W hW
  refine ⟨codesOf_complete hW, fun hone => ?_⟩
  obtain ⟨⟨b, w⟩, rfl⟩ := List.length_eq_one_iff.mp hone
  obtain ⟨-, -, hpos, hweights⟩ := hW
  rw [tableTotal_cons, tableTotal_nil, Nat.add_zero] at hpos
  obtain ⟨htree, hcodes⟩ := singleEntryTree b w hpos (hweights _ (.head _))
  exact ⟨by rw [hcodes]; rfl, fun a => by simp [hcodes], _, htree, rfl⟩

/-- Settles O49: a hit is a leaf, and a miss that a longer code goes on from is an internal node. -/
theorem treeWalkIsTheLookup : Obligations.TreeWalkIsTheLookup := by
  intro W t a hW ht
  have hmiss := decodeLookup_codesOf_none hW.ready ht (a := a)
  have hdead := properPrefix_codesOf_false hW.ready ht (a := a)
  refine ⟨fun b w h => ?_, fun k w l r h => ⟨hmiss ?_, ?_⟩, fun h => ⟨hmiss ?_, hdead ?_⟩,
    fun h => ⟨hmiss ?_, hdead ?_⟩⟩
  · exact (decodeLookup_codesOf_iff hW.ready ht a b).mpr ⟨w, h⟩
  · simp [h]
  · exact (properPrefix_codesOf_iff hW.ready ht a).mpr ⟨k, w, l, r, h⟩
  all_goals simp [h]

end Sys2Proof.Machine

namespace Sys2Proof.Machine

/-! ### A model in canonical form comes back as it was written (R140, R266) -/

/-- Two maps in canonical form with the same entries are one list. -/
theorem ascending_perm_eq {α β : Type} {lt : α → α → Bool} {m n : List (α × β)}
    (hm : Ascending lt m) (hn : Ascending lt n) (h : m.Perm n) (irr : ∀ a, lt a a = false)
    (tr : ∀ a b c, lt a b = true → lt b c = true → lt a c = true) : m = n :=
  h.eq_of_pairwise
    (fun x y _ _ hxy hyx => absurd (tr _ _ _ hxy hyx) (by simp [irr])) hm hn

theorem storedRecord_of_ascending {r : Bytes × WeightTable} (h : Ascending byteLt r.2) :
    storedRecord r = r :=
  Prod.ext rfl <| ascending_perm_eq (storedRecord_ascending r) h
    (storedRecord_perm (ascending_nodup h byteLt_irrefl)) byteLt_irrefl byteLt_trans

theorem insertAll_storedRecords {F : FreqModel} (hF : Ascending bytesLt F)
    (hT : ∀ r ∈ F, Ascending byteLt r.2) : insertAll bytesLt (F.map storedRecord) [] = F := by
  have hmap : F.map storedRecord = F :=
    (List.map_congr_left fun r hr => storedRecord_of_ascending (hT r hr)).trans F.map_id
  have hperm := storedRecords_perm (ascending_nodup hF bytesLt_irrefl)
  rw [hmap] at hperm ⊢
  exact ascending_perm_eq (insertAll_ascending F .nil bytesLt_trans bytesLt_total) hF hperm
    bytesLt_irrefl bytesLt_trans

/-! ### The model of an input is a header that HDRP accepts (R267) -/

theorem length_of_mem_windows {cw input k : Bytes} (h : k ∈ windows cw input) :
    k.length = cw.length := by
  induction input generalizing cw with
  | nil => cases h
  | cons b rest ih =>
    rcases List.mem_cons.mp h with rfl | h
    · rfl
    · rw [ih h, slide_length]

theorem weight_le_tableTotal {T : WeightTable} {e : Byte × Nat} (he : e ∈ T) : e.2 ≤ tableTotal T :=
  List.le_sum_of_mem (List.mem_map_of_mem he)

/-- Every record of the model passes HDRP's checks, as its weights are at most the input's length. -/
theorem freqModel_goodRecord {o : Nat} {input : Bytes} {r : Bytes × WeightTable}
    (hlen : input.length < 2 ^ 64) (hr : r ∈ freqModel o input) : goodRecord o r := by
  have hwindow := (mem_freqModel_keys o input r.1).mp (List.mem_map_of_mem hr)
  have htable := (freqModel_table hr).ascending
  have hpos := freqModel_tableTotal_pos hr
  refine ⟨by rw [length_of_mem_windows hwindow, zeros_length], one_le_length_of_tableTotal_pos hpos,
    ascending_length_le htable, ascending_nodup htable byteLt_irrefl, fun e he => ?_, hpos⟩
  calc e.2 ≤ tableTotal r.2 := weight_le_tableTotal he
    _ ≤ input.length := freqModel_tableTotal_le hr
    _ < 2 ^ 64 := hlen

/-- Settles O52: the model is a list of good records in canonical order, which HDRP stores as it reads
them. -/
theorem parserReturnsTheModel : Obligations.ParserReturnsTheModel := by
  intro p o input body hp ho hcap hlen hctx
  have hF := (freqModel_counts o input).ascending
  have hacc : acceptable p o input.length (freqModel o input) :=
    ⟨ho, hcap, hctx, fun r hr => freqModel_goodRecord (by omega) hr,
      ascending_nodup hF bytesLt_irrefl⟩
  rw [parseHeader_writeHeader body hp hacc,
    insertAll_storedRecords hF fun r hr => (freqModel_table hr).ascending]

end Sys2Proof.Machine

namespace Sys2Proof.Machine

/-! ### Where HDRP refuses a header (R255 to R259) -/

@[simp] theorem takeField_beBytes (k n : Nat) (rest : Bytes) :
    takeField k (beBytes k n ++ rest) = .ok (beBytes k n, rest) :=
  takeField_ok _ _ _ (beBytes_length k n)

theorem beBytes_one (v : Nat) : beBytes 1 v = [BitVec.ofNat 8 v] := by simp [beBytes]

/-- A header that is refused parses to the error it is refused with. -/
theorem parseHeader_refused {p : Params} {input : Bytes} {e : ErrKind} (hp : p.legal)
    (h : HeaderRefused p input e) : parseHeader p input = .error e := by
  have ⟨_, _, _, hout, hord, _, hctx⟩ := hp
  have hlength : ∀ n, n ≤ p.outCap → beValue (beBytes 8 n) = n ∧ ¬ p.outCap < n := fun n hn =>
    ⟨beValue_beBytes 8 n (by omega), Nat.not_lt.mpr hn⟩
  have hsize : ∀ o, o ≤ 254 → beValue (beBytes 1 (o + 1)) = o + 1 := fun o ho =>
    beValue_beBytes 1 _ (by omega)
  cases h with
  | shortLength _ h => simp only [parseHeader, takeField_short _ _ h, bind, Except.bind]
  | longOutput n rest hn h =>
    simp only [parseHeader, takeField_beBytes, beValue_beBytes 8 n hn, bind, Except.bind, h,
      ↓reduceIte]
  | noBlockSize n hn =>
    obtain ⟨hval, hfits⟩ := hlength n hn
    rw [← List.append_nil (beBytes 8 n)]
    simp only [parseHeader, takeField_beBytes, hval, bind, Except.bind, hfits, ↓reduceIte,
      takeField_short 1 [] Nat.one_pos]
  | zeroBlockSize n rest hn =>
    obtain ⟨hval, hfits⟩ := hlength n hn
    rw [List.append_assoc, show [0#8] = beBytes 1 0 from rfl]
    simp only [parseHeader, takeField_beBytes, hval, bind, Except.bind, hfits, ↓reduceIte,
      beValue_beBytes 1 0 (by omega)]
  | largeOrder n o rest hn ho h =>
    obtain ⟨hval, hfits⟩ := hlength n hn
    rw [List.append_assoc, ← beBytes_one]
    simp only [parseHeader, takeField_beBytes, hval, bind, Except.bind, hfits, ↓reduceIte,
      hsize o ho, Nat.add_one_ne_zero, Nat.add_sub_cancel, h]
  | shortCount n o rest hn ho h =>
    obtain ⟨hval, hfits⟩ := hlength n hn
    rw [List.append_assoc, ← beBytes_one]
    simp only [parseHeader, takeField_beBytes, hval, bind, Except.bind, hfits, ↓reduceIte,
      hsize o (ho.trans hord), Nat.add_one_ne_zero, Nat.add_sub_cancel, Nat.not_lt.mpr ho,
      takeField_short _ _ h]
  | manyContexts n o K rest hn ho hK h =>
    rw [parseHeader_start p o n K rest hp ho hn hK, if_pos h]
  | record n o K R rest _ hK hacc hlt h =>
    obtain ⟨ho, hn, -, hR, hd⟩ := hacc
    obtain ⟨k, rfl⟩ : ∃ k, K = R.length + (k + 1) := ⟨K - R.length - 1, by omega⟩
    have hkeys : RecordRefused o ((insertAll bytesLt (R.map storedRecord) []).map Prod.fst) rest e :=
      h.congr fun k => by rw [mem_insertAll_fst, map_storedRecord_fst]; simp
    rw [List.append_assoc, parseHeader_start p o n _ _ hp ho hn (by omega),
      if_neg (Nat.not_lt.mpr hK), parseRecords_append o (k + 1) R [] rest hR hd (by simp),
      parseRecords_refused o k _ rest e hkeys]
    rfl

/-- An input either begins with three fields that pass their checks or is refused. -/
theorem headerStart_or_refused (p : Params) (input : Bytes) :
    (∃ o n K rest, input = headerStart o n K ++ rest ∧ o ≤ p.maxOrder ∧ n ≤ p.outCap ∧
      K ≤ p.maxCtx ∧ K < 2 ^ 32) ∨ ∃ e, HeaderRefused p input e := by
  by_cases h1 : input.length < 8
  · exact .inr ⟨_, .shortLength input h1⟩
  obtain ⟨n, rest, rfl, hn64⟩ := split_field 8 input h1
  by_cases hn : n ≤ p.outCap
  swap
  · exact .inr ⟨_, .longOutput n rest hn64 (Nat.not_le.mp hn)⟩
  by_cases h2 : rest.length < 1
  · obtain rfl := List.length_eq_zero_iff.mp (Nat.lt_one_iff.mp h2)
    rw [List.append_nil]
    exact .inr ⟨_, .noBlockSize n hn⟩
  obtain ⟨v, rest, rfl, hv⟩ := split_field 1 rest h2
  rw [beBytes_one, ← List.append_assoc]
  cases v with
  | zero => exact .inr ⟨_, .zeroBlockSize n rest hn⟩
  | succ o =>
    by_cases ho : o ≤ p.maxOrder
    swap
    · exact .inr ⟨_, .largeOrder n o rest hn (by omega) (Nat.not_le.mp ho)⟩
    by_cases h3 : rest.length < 4
    · exact .inr ⟨_, .shortCount n o rest hn ho h3⟩
    obtain ⟨K, rest, rfl, hK32⟩ := split_field 4 rest h3
    rw [← List.append_assoc]
    by_cases hK : K ≤ p.maxCtx
    · exact .inl ⟨o, n, K, rest, rfl, ho, hn, hK, hK32⟩
    · exact .inr ⟨_, .manyContexts n o K rest hn ho hK32 (Nat.not_le.mp hK)⟩

/-- HDRP gives an error exactly where the header is refused with it: what fails is one of the three
fields or the first record that is not good. -/
theorem parseHeader_error_iff {p : Params} (hp : p.legal) (input : Bytes) (e : ErrKind) :
    parseHeader p input = .error e ↔ HeaderRefused p input e := by
  refine ⟨fun herr => ?_, parseHeader_refused hp⟩
  rcases headerStart_or_refused p input with ⟨o, n, K, rest, rfl, ho, hn, hK, hK32⟩ | ⟨e', h⟩
  · rw [parseHeader_start p o n K rest hp ho hn hK32, if_neg (Nat.not_lt.mpr hK)] at herr
    obtain ⟨R, tail, rfl, hR, hd, -, ⟨-, hparse⟩ | ⟨e', hlt, h, hparse⟩⟩ :=
      parseRecords_cases o K [] rest
    all_goals rw [hparse] at herr; cases herr
    rw [← List.append_assoc]
    exact .record n o K R tail e hK ⟨ho, hn, by omega, hR, hd⟩ hlt
      (h.congr fun k => by rw [mem_insertAll_fst, map_storedRecord_fst]; simp)
  · rw [parseHeader_refused hp h] at herr
    cases herr
    exact h

end Sys2Proof.Machine

namespace Sys2Proof.Machine

/-! ### DECOMPRESS as the calculation of R322 -/

/-- How a command's phases from `s` end where its result is `r` (R312). -/
def Result.endsPhases (s : State) : Result → Except Stop (State × Nat × Nat × Nat) → Prop
  | .ok out hl k, x =>
    ∃ u, x = .ok (u, out.length, hl, k) ∧ u.outMem = memPutAll 0 out s.outMem
  | .err e, x => ∃ u, x = .error (.raised e u)

theorem finish_eq_complete {s : State} {r : Result} {x : Except Stop (State × Nat × Nat × Nat)}
    (hx : framed s (fun r => r.1) x) (h : r.endsPhases s x) : finish x = .next (s.complete r) := by
  cases r with
  | ok out hl k =>
    obtain ⟨u, rfl, hmem⟩ := h
    have hu : phaseFrame s u := hx
    rw [hu, hmem]
    rfl
  | err e =>
    obtain ⟨u, rfl⟩ := h
    have hu : phaseFrame s u := hx
    rw [hu]
    rfl

/-- The order and the length that a header holds fit their fields (R131, R132). -/
theorem parseHeader_fits {p : Params} {input : Bytes} {hd : Header}
    (h : parseHeader p input = .ok hd) : hd.order < 2 ^ 8 ∧ hd.origLen < 2 ^ 64 := by
  unfold parseHeader at h
  obtain ⟨⟨lengthField, rest⟩, hlength, h⟩ := bind_ok h
  dsimp only at h
  split at h
  · cases h
  obtain ⟨⟨sizeField, rest⟩, hsize, h⟩ := bind_ok h
  dsimp only at h
  split at h
  · cases h
  split at h
  · cases h
  obtain ⟨⟨countField, rest⟩, -, h⟩ := bind_ok h
  dsimp only at h
  split at h
  · cases h
  obtain ⟨⟨WT, rest⟩, -, h⟩ := bind_ok h
  cases h
  obtain ⟨-, hlength8⟩ := takeField_inv _ _ _ hlength
  obtain ⟨-, hsize1⟩ := takeField_inv _ _ _ hsize
  have hlt8 := beValue_lt lengthField
  have hlt1 := beValue_lt sizeField
  rw [hlength8] at hlt8
  rw [hsize1] at hlt1
  exact ⟨by dsimp only; omega, hlt8⟩

@[simp] theorem input_setPhase (s : State) (p : Phase) : { s with phase := p }.input = s.input :=
  input_eq rfl rfl rfl

/-- What HDRP leaves for REBUILD and UNPACK (R250, R255). -/
theorem phaseHdrp_of_ok {s : State} {hd : Header} (h : parseHeader s.params s.input = .ok hd) :
    ∃ u, phaseHdrp s = .ok (u, hd.count) ∧ u.stores.wt = hd.wt ∧ u.work.ord.toNat = hd.order ∧
      u.work.origLen.toNat = hd.origLen ∧ u.work.hlen = hd.hlen ∧ u.input = s.input ∧
      u.outMem = s.outMem := by
  obtain ⟨hord, hlen⟩ := parseHeader_fits h
  simp only [phaseHdrp, input_setPhase, h]
  refine ⟨_, rfl, rfl, ?_, ?_, rfl, ?_, rfl⟩
  · exact (BitVec.toNat_ofNat _ _).trans (Nat.mod_eq_of_lt hord)
  · exact (BitVec.toNat_ofNat _ _).trans (Nat.mod_eq_of_lt hlen)
  · exact input_eq rfl rfl rfl

theorem phaseHdrp_of_error {s : State} {e : ErrKind} (h : parseHeader s.params s.input = .error e) :
    ∃ u, phaseHdrp s = .error (.raised e u) := by
  simp only [phaseHdrp, input_setPhase, h]
  exact ⟨_, rfl⟩

/-- UNPACK as a phase ends as the unpacker does (R290 to R301). -/
theorem phaseUnpack_of_ok {s : State} {out : Bytes}
    (h : unpack s.stores.code s.work.ord.toNat s.work.origLen.toNat
      (bytesBits (s.input.drop s.work.hlen)) = .ok out) :
    ∃ u, phaseUnpack s = .ok u ∧ u.outMem = memPutAll 0 out s.outMem ∧
      u.work.outpos = out.length ∧ u.work.hlen = s.work.hlen := by
  unfold unpack at h
  split at h <;> cases h
  next u hrun =>
    simp only [phaseUnpack, hrun]
    exact ⟨_, rfl, rfl, rfl, rfl⟩

theorem phaseUnpack_of_error {s : State} {e : ErrKind}
    (h : unpack s.stores.code s.work.ord.toNat s.work.origLen.toNat
      (bytesBits (s.input.drop s.work.hlen)) = .error e) :
    ∃ u, phaseUnpack s = .error (.raised e u) := by
  unfold unpack at h
  split at h <;> cases h
  next u hrun =>
    simp only [phaseUnpack, hrun]
    exact ⟨_, rfl⟩

/-- The phases of DECOMPRESS end as `Decompress()` of R322 calculates: the check of R323, the header's
error, the body's error, or the output. -/
theorem decompressPhases_ends (s : State) :
    (decompressResult s.params s.regs.inLen.toNat s.input).endsPhases s (decompressPhases s) := by
  unfold decompressResult decompressPhases
  split
  case isTrue hbig =>
    have hcheck : checkDecompress s = raiseError .capacityExceeded (phaseCheck s) := if_pos hbig
    rw [hcheck]
    exact ⟨_, rfl⟩
  have hcheck : checkDecompress s = .ok (phaseCheck s) := if_neg ‹_›
  have hinput : (phaseCheck s).input = s.input := input_eq rfl rfl rfl
  rw [hcheck, ← hinput]
  split
  case h_1 e hparse =>
    obtain ⟨u, hu⟩ := phaseHdrp_of_error hparse
    exact ⟨u, by simp only [bind, Except.bind, hu]⟩
  case h_2 hd hparse =>
    obtain ⟨u, hu, hwt, hord, hlen, hhlen, huinput, humem⟩ := phaseHdrp_of_ok hparse
    have hready : ∀ r ∈ u.stores.wt, readyTable r.2 := fun r hr =>
      (parseHeader_good hparse (hwt ▸ hr)).ready
    obtain ⟨v, hv, -⟩ := buildPhase_ready (p := .rebuild) u hready
    have hcode := phaseCodegen_code (q := .rebuild) hready hv
    obtain ⟨-, hwork, hvinput, hvmem, -⟩ := buildPhase_phaseCodegen_ok (q := .rebuild) hv
    rw [← hwt, ← hcode, ← hord, ← hlen, ← hhlen, ← huinput, ← hvinput, ← hwork]
    simp only [bind, Except.bind, hu, hv]
    split
    case h_1 e hbody =>
      obtain ⟨t, ht⟩ := phaseUnpack_of_error hbody
      exact ⟨t, by rw [ht]⟩
    case h_2 out hbody =>
      obtain ⟨t, ht, hmem, hpos, hthlen⟩ := phaseUnpack_of_ok hbody
      exact ⟨t, by simp only [ht, hpos, hthlen], by rw [hmem, hvmem, humem]; rfl⟩

/-- DECOMPRESS completes with its result (R312, R322). -/
theorem exec_decompress (s : State) :
    exec .decompress s =
      .next (s.complete (decompressResult s.params s.regs.inLen.toNat s.input)) :=
  finish_eq_complete (decompressPhases_framed s) (decompressPhases_ends s)

/-- What STATUS shows after DECOMPRESS has ended in an error (R46, R48). -/
theorem exec_decompress_of_err {s : State} {e : ErrKind}
    (h : decompressResult s.params s.regs.inLen.toNat s.input = .err e) :
    ∃ t, exec .decompress s = .next t ∧ t.busy = false ∧
      t.regs.status = { s.regs.status with err := true, errcode := errCode e } :=
  ⟨s.completeErr e, by rw [exec_decompress, h]; rfl, rfl, rfl⟩

/-- Settles O31: the calculation of R322 makes the checks in this order, and HDRP's errors are the
refusals. -/
theorem decompressChecksInOrder : Obligations.DecompressChecksInOrder := by
  intro s
  refine ⟨fun hbig => ?_, fun hp e => parseHeader_error_iff hp s.input e, fun e hfits hparse => ?_,
    fun h e hfits hparse hbody => ?_⟩
  all_goals apply exec_decompress_of_err; unfold decompressResult
  · rw [if_pos hbig]
  · rw [if_neg (Nat.not_lt.mpr hfits), hparse]
  · simp only [if_neg (Nat.not_lt.mpr hfits), hparse, hbody]

end Sys2Proof.Machine

namespace Sys2Proof.Machine

/-! ### The loop of R292, one body bit at a time -/

/-- The bit `b` is taken into ACC (R292). -/
def Unpacked.read (b : Bool) (u : Unpacked) : Unpacked :=
  { u with acc := u.acc ++ [b], bitpos := u.bitpos + 1 }

/-- The byte `x` is output for the code in ACC (R292, R294). -/
def Unpacked.hit (x : Byte) (u : Unpacked) : Unpacked :=
  { u with acc := [], cw := slide u.cw x, out := u.out ++ [x] }

@[simp] theorem read_cw (b : Bool) (u : Unpacked) : (u.read b).cw = u.cw := rfl
@[simp] theorem read_acc (b : Bool) (u : Unpacked) : (u.read b).acc = u.acc ++ [b] := rfl
@[simp] theorem read_dead (b : Bool) (u : Unpacked) : (u.read b).dead = u.dead := rfl
@[simp] theorem read_bitpos (b : Bool) (u : Unpacked) : (u.read b).bitpos = u.bitpos + 1 := rfl
@[simp] theorem read_out (b : Bool) (u : Unpacked) : (u.read b).out = u.out := rfl
@[simp] theorem hit_cw (x : Byte) (u : Unpacked) : (u.hit x).cw = slide u.cw x := rfl
@[simp] theorem hit_acc (x : Byte) (u : Unpacked) : (u.hit x).acc = [] := rfl
@[simp] theorem hit_dead (x : Byte) (u : Unpacked) : (u.hit x).dead = u.dead := rfl
@[simp] theorem hit_bitpos (x : Byte) (u : Unpacked) : (u.hit x).bitpos = u.bitpos := rfl
@[simp] theorem hit_out (x : Byte) (u : Unpacked) : (u.hit x).out = u.out ++ [x] := rfl

/-- What the window's table says of an accumulator: there is no table, the accumulator is a code, a
longer code goes on from it, or none does. -/
theorem look_cases (C : CodeStore) (cw : Bytes) (acc : Bits) :
    lookupKey cw C = none ∨ ∃ T, lookupKey cw C = some T ∧
      ((∃ x, decodeLookup T acc = some x) ∨
        decodeLookup T acc = none ∧ properPrefix T acc = true ∨
        decodeLookup T acc = none ∧ properPrefix T acc = false) := by
  cases lookupKey cw C with
  | none => exact .inl rfl
  | some T =>
    refine .inr ⟨T, rfl, ?_⟩
    cases decodeLookup T acc with
    | some x => exact .inl ⟨x, rfl⟩
    | none => cases properPrefix T acc <;> simp

theorem unpackFrom_done {C : CodeStore} {L : Nat} {u : Unpacked} (h : L ≤ u.out.length)
    (body : Bits) : unpackFrom C L body u = (u, none) := by
  cases body <;> exact if_neg (Nat.not_lt.mpr h)

section Pass
variable {C : CodeStore} {L : Nat} {u : Unpacked} (h : u.out.length < L)
include h

theorem unpackFrom_nil : unpackFrom C L [] u = (u, some .bitstreamExhausted) := if_pos h

variable (b : Bool) (rest : Bits)

theorem unpackFrom_noTable (hT : lookupKey u.cw C = none) :
    unpackFrom C L (b :: rest) u = (u.read b, some .unknownContext) := by
  simp only [unpackFrom, if_pos h, hT, Unpacked.read]

variable {T : CodeTable} (hT : lookupKey u.cw C = some T)
include hT

theorem unpackFrom_hit {x : Byte} (hx : decodeLookup T (u.acc ++ [b]) = some x) :
    unpackFrom C L (b :: rest) u = unpackFrom C L rest ((u.read b).hit x) := by
  simp only [unpackFrom, if_pos h, hT, hx, Unpacked.read, Unpacked.hit]

variable (hmiss : decodeLookup T (u.acc ++ [b]) = none)
include hmiss

theorem unpackFrom_more (hp : properPrefix T (u.acc ++ [b]) = true) :
    unpackFrom C L (b :: rest) u = unpackFrom C L rest (u.read b) := by
  simp only [unpackFrom, if_pos h, hT, hmiss, if_pos hp, Unpacked.read]

theorem unpackFrom_dead (hp : properPrefix T (u.acc ++ [b]) = false) :
    unpackFrom C L (b :: rest) u = ({ u.read b with dead := true }, some .bitstreamExhausted) := by
  simp only [unpackFrom, if_pos h, hT, hmiss, hp, Bool.false_eq_true, if_false, Unpacked.read]

end Pass

/-! ### What a run without error has read (R300, R301) -/

/-- The run from `u` over the bits `used` ends in `v` without error, whatever follows them. -/
def RunUses (C : CodeStore) (L : Nat) (u v : Unpacked) (used : Bits) : Prop :=
  v.bitpos = u.bitpos + used.length ∧ v.out.length = L ∧
    ∀ extra, unpackFrom C L (used ++ extra) u = (v, none)

theorem runUses_nil {C : CodeStore} {L : Nat} {u : Unpacked} (h : u.out.length = L) :
    RunUses C L u u [] :=
  ⟨rfl, h, unpackFrom_done h.ge⟩

theorem RunUses.cons {C : CodeStore} {L : Nat} {u v w : Unpacked} {b : Bool} {used : Bits}
    (h : RunUses C L w v used) (hpos : w.bitpos = u.bitpos + 1)
    (hstep : ∀ rest, unpackFrom C L (b :: rest) u = unpackFrom C L rest w) :
    RunUses C L u v (b :: used) := by
  obtain ⟨hbits, hlen, hrun⟩ := h
  refine ⟨by rw [hbits, hpos, List.length_cons]; omega, hlen, fun extra => ?_⟩
  rw [List.cons_append, hstep, hrun]

/-- A run without error read some first bits of the body and looked at no other. -/
theorem unpackFrom_ok {C : CodeStore} {L : Nat} {body : Bits} {u v : Unpacked}
    (hu : u.out.length ≤ L) (hv : unpackFrom C L body u = (v, none)) :
    ∃ used unread, body = used ++ unread ∧ RunUses C L u v used := by
  induction body generalizing u with
  | nil =>
    rcases hu.lt_or_eq with hlt | hdone
    · rw [unpackFrom_nil hlt] at hv
      cases hv
    · rw [unpackFrom_done hdone.ge] at hv
      cases hv
      exact ⟨[], [], rfl, runUses_nil hdone⟩
  | cons b rest ih =>
    have goesOn {w : Unpacked} (hw : w.out.length ≤ L) (hpos : w.bitpos = u.bitpos + 1)
        (hstep : ∀ rest, unpackFrom C L (b :: rest) u = unpackFrom C L rest w) :
        ∃ used unread, b :: rest = used ++ unread ∧ RunUses C L u v used := by
      obtain ⟨used, unread, rfl, hrun⟩ := ih hw (hstep rest ▸ hv)
      exact ⟨b :: used, unread, rfl, hrun.cons hpos hstep⟩
    rcases hu.lt_or_eq with hlt | hdone
    · rcases look_cases C u.cw (u.acc ++ [b]) with
        hT | ⟨T, hT, ⟨x, hx⟩ | ⟨hmiss, hp⟩ | ⟨hmiss, hp⟩⟩
      · rw [unpackFrom_noTable hlt b rest hT] at hv
        cases hv
      · exact goesOn (by simpa using hlt) rfl fun rest => unpackFrom_hit hlt b rest hT hx
      · exact goesOn (w := u.read b) hu rfl fun rest => unpackFrom_more hlt b rest hT hmiss hp
      · rw [unpackFrom_dead hlt b rest hT hmiss hp] at hv
        cases hv
    · rw [unpackFrom_done hdone.ge] at hv
      cases hv
      exact ⟨[], b :: rest, rfl, runUses_nil hdone⟩

/-- Settles O58: the bits that a run reads decide how it ends. -/
theorem trailingBitsIgnored : Obligations.TrailingBitsIgnored := by
  intro C o L body extra u hrun
  obtain ⟨used, unread, rfl, hpos, hlen, hsame⟩ := unpackFrom_ok (Nat.zero_le L) hrun
  have hused : u.bitpos = used.length := hpos.trans (Nat.zero_add _)
  rw [hused, List.take_left, List.length_append]
  exact ⟨Nat.le_add_right _ _, hlen, hsame extra⟩

theorem unpack_ok_length {C : CodeStore} {o L : Nat} {body : Bits} {out : Bytes}
    (h : unpack C o L body = .ok out) : out.length = L := by
  unfold unpack at h
  split at h <;> cases h
  next u hrun =>
    obtain ⟨-, -, -, -, hlen, -⟩ := unpackFrom_ok (Nat.zero_le L) hrun
    exact hlen

end Sys2Proof.Machine

namespace Sys2Proof.Machine

/-! ### UNPACK reads the codes that PACK emitted (R285, R304) -/

section Codes
variable {W : WeightTable} (hW : readyTable W) {b : Byte} {code : Bits}
  (hcode : (b, code) ∈ codesOf W)
include hW hcode

/-- A code is 1 to 255 bits long, however wide the weights (R223). -/
theorem code_length : 1 ≤ code.length ∧ code.length ≤ 255 := by
  obtain ⟨t, ht, hbuilt⟩ := hW.exists_builtFrom
  obtain ⟨w, hleaf⟩ := (mem_codesOf_iff hW ht b code).mp hcode
  have hdepth := treeSize_add_depth_le hleaf
  have hsize := treeSize_eq t
  have hdummy := hbuilt.placeholders
  have hlen256 := ascending_length_le hW.1
  rw [treeSize] at hdepth
  rw [hbuilt.leaves.length_eq, scale_length] at hsize
  rw [scale_length] at hdummy
  obtain ⟨k, v, l, r, rfl⟩ := exists_internal_of_treeSize (t := t) (by split at hdummy <;> omega)
  refine ⟨List.length_pos_iff.mpr ?_, by split at hdummy <;> omega⟩
  rintro rfl
  cases hleaf

/-- The code's byte is what the lookup finds (R225, R228). -/
theorem decodeLookup_code : decodeLookup (codesOf W) code = some b := by
  obtain ⟨t, ht, -⟩ := hW.exists_builtFrom
  exact (decodeLookup_codesOf_iff hW ht code b).mpr ((mem_codesOf_iff hW ht b code).mp hcode)

end Codes

/-- Short of its last bit a code is a miss that a longer code goes on from (R225). -/
theorem look_before_code_end {W : WeightTable} (hW : readyTable W) {b : Byte} {p q : Bits}
    (hcode : (b, p ++ q) ∈ codesOf W) (hq : q ≠ []) :
    decodeLookup (codesOf W) p = none ∧ properPrefix (codesOf W) p = true := by
  obtain ⟨t, ht, -⟩ := hW.exists_builtFrom
  have hnode : ∃ k w l r, treeAt t p = some (.internal k w l r) :=
    (exists_longer_code_iff hW ht p).mp
      ⟨_, hcode, List.prefix_append p q, fun h => hq (List.self_eq_append_right.mp h)⟩
  refine ⟨decodeLookup_codesOf_none hW ht fun b w hleaf => ?_,
    (properPrefix_codesOf_iff hW ht p).mpr hnode⟩
  obtain ⟨k, v, l, r, hnode⟩ := hnode
  rw [hnode] at hleaf
  cases hleaf

/-- A code that PACK emits is in the code table of the window's weight table (R227). -/
theorem exists_table_of_encodeLookup {F : FreqModel} {cw : Bytes} {b : Byte} {code : Bits}
    (h : encodeLookup (codeStoreOf F) cw b = some code) :
    ∃ W, (cw, W) ∈ F ∧ lookupKey cw (codeStoreOf F) = some (codesOf W) ∧ (b, code) ∈ codesOf W := by
  obtain ⟨T, hT, hcode⟩ := Option.bind_eq_some_iff.mp h
  have hF := hT
  rw [lookupKey_codeStoreOf] at hF
  obtain ⟨W, hW, rfl⟩ := Option.map_eq_some_iff.mp hF
  exact ⟨W, mem_of_lookupKey hW, hT, mem_of_lookupKey hcode⟩

/-- PACK emits the code of the first byte and then what it emits from the next window (R281). -/
theorem packBits_cons {C : CodeStore} {cw input : Bytes} {b : Byte} {s : Bits}
    (h : packBits C cw (b :: input) = some s) :
    ∃ code more, encodeLookup C cw b = some code ∧ packBits C (slide cw b) input = some more ∧
      s = code ++ more := by
  rw [packBits] at h
  obtain ⟨code, hcode, h⟩ := Option.bind_eq_some_iff.mp h
  obtain ⟨more, hmore, h⟩ := Option.bind_eq_some_iff.mp h
  exact ⟨code, more, hcode, hmore, (Option.some_inj.mp h).symm⟩

theorem packBits_length_bounds {C : CodeStore} {cw input : Bytes} {s : Bits}
    (hC : ∀ cw b code, encodeLookup C cw b = some code → 1 ≤ code.length ∧ code.length ≤ 255)
    (h : packBits C cw input = some s) :
    input.length ≤ s.length ∧ s.length ≤ 255 * input.length := by
  induction input generalizing cw s with
  | nil =>
    cases h
    exact ⟨le_rfl, le_rfl⟩
  | cons b rest ih =>
    obtain ⟨code, more, hcode, hmore, rfl⟩ := packBits_cons h
    have hb := hC _ _ _ hcode
    have hrest := ih hmore
    rw [List.length_append, List.length_cons]
    omega

/-- Settles O54: every symbol was counted, and every code has 1 to 255 bits. -/
theorem codeBitCount : Obligations.CodeBitCount := by
  intro o input
  obtain ⟨s, hs⟩ := packBits_freqModel o input
  refine ⟨s, hs, packBits_length _ o input s hs, packBits_length_bounds (fun cw b code h => ?_) hs⟩
  obtain ⟨W, hW, -, hcode⟩ := exists_table_of_encodeLookup h
  exact code_length (freqModel_ready hW) hcode

/-- The unpacker that is partway into a code of the window's table outputs its byte at the code's end. -/
theorem unpackFrom_code {C : CodeStore} {L : Nat} {W : WeightTable} (hW : readyTable W) {b : Byte}
    {todo : Bits} (rest : Bits) {u : Unpacked} (hT : lookupKey u.cw C = some (codesOf W))
    (hlt : u.out.length < L) (htodo : todo ≠ []) (hcode : (b, u.acc ++ todo) ∈ codesOf W) :
    unpackFrom C L (todo ++ rest) u =
      unpackFrom C L rest (Unpacked.hit b { u with bitpos := u.bitpos + todo.length }) := by
  induction todo generalizing u with
  | nil => exact absurd rfl htodo
  | cons x todo ih =>
    rcases eq_or_ne todo [] with rfl | hne
    · exact unpackFrom_hit hlt x rest hT (decodeLookup_code hW hcode)
    · have hnext : (b, (u.read x).acc ++ todo) ∈ codesOf W := by simpa using hcode
      obtain ⟨hmiss, hp⟩ := look_before_code_end hW hnext hne
      rw [List.cons_append, unpackFrom_more hlt x _ hT hmiss hp, ih (u := u.read x) hT hlt hne hnext]
      simp [Unpacked.hit, Nat.add_assoc, Nat.add_comm 1]

/-- Where the tables are ready, what PACK emits from a window unpacks to its input from that window. -/
theorem unpackFrom_packBits {F : FreqModel} (hF : ∀ r ∈ F, readyTable r.2) {L : Nat} {input : Bytes}
    {s : Bits} (extra : Bits) {u : Unpacked} (hs : packBits (codeStoreOf F) u.cw input = some s)
    (hacc : u.acc = []) (hlen : u.out.length + input.length = L) :
    unpackFrom (codeStoreOf F) L (s ++ extra) u =
      ({ u with cw := windowAfter u.cw input, bitpos := u.bitpos + s.length, out := u.out ++ input },
        none) := by
  induction input generalizing u s with
  | nil =>
    cases hs
    rw [unpackFrom_done hlen.ge]
    simp [windowAfter]
  | cons b rest ih =>
    obtain ⟨code, more, hcode, hmore, rfl⟩ := packBits_cons hs
    obtain ⟨W, hmem, hT, hcode⟩ := exists_table_of_encodeLookup hcode
    have hW := hF _ hmem
    obtain ⟨hpos, -⟩ := code_length hW hcode
    rw [List.length_cons] at hlen
    rw [List.append_assoc, unpackFrom_code hW _ hT (by omega) (List.length_pos_iff.mp hpos)
      (by rwa [hacc]), ih hmore rfl (by simp; omega)]
    simp [Unpacked.hit, windowAfter, hacc, Nat.add_assoc]

/-- Settles O55: each code of the stream is read to its end and gives back its byte. -/
theorem unpackInvertsPack : Obligations.UnpackInvertsPack := by
  intro o input s extra C hs
  have hF : ∀ r ∈ freqModel o input, readyTable r.2 := fun r hr => freqModel_ready hr
  rw [unpackRun, unpackFrom_packBits (u := unpackStart o) hF extra hs rfl (Nat.zero_add _)]
  simp [unpackStart]

end Sys2Proof.Machine

namespace Sys2Proof.Machine

/-! ### The bits of a body (R145, R284) -/

/-- Body bit k is bit 7 - (k mod 8) of byte k div 8 (R145). -/
theorem bytesBits_getElem? {bs : Bytes} {k : Nat} (h : k < 8 * bs.length) :
    (bytesBits bs)[k]? = some ((bs.getD (k / 8) 0#8).getLsbD (7 - k % 8)) := by
  induction bs generalizing k with
  | nil => cases h
  | cons b bs ih =>
    rw [bytesBits_cons]
    rcases lt_or_ge k 8 with hk | hk
    · rw [List.getElem?_append_left (by simpa using hk), Nat.div_eq_of_lt hk, Nat.mod_eq_of_lt hk]
      simp [byteBits, hk]
    · obtain ⟨j, rfl⟩ := Nat.exists_eq_add_of_le' hk
      rw [List.length_cons] at h
      rw [List.getElem?_append_right (by simp), byteBits_length, Nat.add_sub_cancel, ih (by omega),
        Nat.add_div_right j (by decide), Nat.add_mod_right, List.getD_cons_succ]

theorem byteBits_bitsByte_of_length {s : Bits} (h : s.length = 8) : byteBits (bitsByte s) = s := by
  match s, h with
  | [a, b, c, d, e, f, g, i], _ => exact byteBits_bitsByte a b c d e f g i

/-- The bytes cut from a stream of whole bytes hold its bits (R145, R282). -/
theorem bytesBits_cut {n : Nat} {s : Bits} (h : s.length = 8 * n) :
    bytesBits ((List.range n).map fun j => bitsByte ((s.drop (8 * j)).take 8)) = s := by
  induction n generalizing s with
  | zero => exact (List.length_eq_zero_iff.mp h).symm
  | succ n ih =>
    have hrest := ih (s := s.drop 8) (by rw [List.length_drop]; omega)
    simp only [List.drop_drop, ← Nat.mul_succ, Nat.add_comm 8] at hrest
    rw [List.range_succ_eq_map, List.map_cons, List.map_map, bytesBits_cons,
      byteBits_bitsByte_of_length (by simp; omega)]
    exact (congrArg _ hrest).trans (List.take_append_drop 8 s)

/-- Settles O53: the padding fills the last byte, and the bytes hold the padded stream. -/
theorem packedBytesHoldTheStream : Obligations.PackedBytesHoldTheStream := by
  intro s
  have hpadded : (s ++ padBits s).length = 8 * ((s ++ padBits s).length / 8) := by
    rw [List.length_append, padBits, List.length_replicate]
    omega
  exact ⟨_, bytesBits_cut hpadded, by omega, fun h => by omega, packBytes_length s⟩

end Sys2Proof.Machine

namespace Sys2Proof.Machine

/-! ### The state machine of Table 12 follows the loop (R290, R302, R303) -/

/-- The machine in a state of Table 12 with the loop's registers. -/
def Unpacked.inState (q : UState) (v : Unpacked) : UMachine :=
  { ustate := q, cw := v.cw, acc := v.acc, dead := v.dead, bitpos := v.bitpos, out := v.out }

section Transitions
variable (u : UInput) {v : Unpacked}

theorem uStep_sym_next (h : v.out.length < u.origLen) :
    uStep u (v.inState .sym) = Unpacked.inState .fetch { v with acc := [], dead := false } :=
  if_pos h

theorem uStep_sym_done (h : u.origLen ≤ v.out.length) :
    uStep u (v.inState .sym) = v.inState .done :=
  if_neg (Nat.not_lt.mpr h)

theorem uStep_fetch_bit (h : v.bitpos < bodyBits u) :
    uStep u (v.inState .fetch) = (v.read (bodyBit u v.bitpos)).inState .look :=
  if_pos h

theorem uStep_fetch_end (h : bodyBits u ≤ v.bitpos) :
    uStep u (v.inState .fetch) = v.inState (.err .bitstreamExhausted) :=
  if_neg (Nat.not_lt.mpr h)

theorem uStep_look_noTable (hT : lookupKey v.cw u.codes = none) :
    uStep u (v.inState .look) = v.inState (.err .unknownContext) := by
  simp only [uStep, Unpacked.inState, hT]

variable {T : CodeTable} (hT : lookupKey v.cw u.codes = some T)
include hT

theorem uStep_look_hit {x : Byte} (hx : decodeLookup T v.acc = some x) :
    uStep u (v.inState .look) = Unpacked.inState .sym { v.hit x with acc := v.acc } := by
  simp only [uStep, Unpacked.inState, hT, hx, Unpacked.hit]

variable (hmiss : decodeLookup T v.acc = none)
include hmiss

theorem uStep_look_more (hp : properPrefix T v.acc = true) :
    uStep u (v.inState .look) = v.inState .fetch := by
  simp only [uStep, Unpacked.inState, hT, hmiss, hp, if_true]

theorem uStep_look_dead (hp : properPrefix T v.acc = false) :
    uStep u (v.inState .look) =
      Unpacked.inState (.err .bitstreamExhausted) { v with dead := true } := by
  simp only [uStep, Unpacked.inState, hT, hmiss, hp, Bool.false_eq_true, if_false]

end Transitions

/-- The exit of Table 12 for the way the loop ends. -/
def exitState : Option ErrKind → UState
  | none => .done
  | some e => .err e

/-- The machine has stopped as a run of the loop ends, ACC apart. -/
def UMachine.endsAs (m : UMachine) (run : Unpacked × Option ErrKind) : Prop :=
  m.ustate = exitState run.2 ∧ m.out = run.1.out ∧ m.cw = run.1.cw ∧ m.bitpos = run.1.bitpos ∧
    m.dead = run.1.dead

theorem uSteps_of_exit (u : UInput) (n : Nat) {m : UMachine} (h : uStep u m = m) :
    uSteps u n m = m := by
  induction n with
  | zero => rfl
  | succ n ih => rw [uSteps, h, ih]

/-- An exit is not left. -/
theorem endsAs_of_exit (u : UInput) (n : Nat) (v : Unpacked) (e : Option ErrKind) :
    (uSteps u n (v.inState (exitState e))).endsAs (v, e) := by
  rw [uSteps_of_exit u n (by cases e <;> rfl)]
  exact ⟨rfl, rfl, rfl, rfl, rfl⟩

/-- U_SYM ends the run, or empties the accumulator for the next symbol as the loop's hit did. -/
theorem endsAs_of_sym {u : UInput} {n : Nat} {v w : Unpacked} {rest : Bits}
    (hw : w = { v with acc := [], dead := false }) (hdead : v.dead = false)
    (hfetch : w.out.length < u.origLen →
      (uSteps u n (w.inState .fetch)).endsAs (unpackFrom u.codes u.origLen rest w)) :
    (uSteps u (n + 1) (v.inState .sym)).endsAs (unpackFrom u.codes u.origLen rest w) := by
  subst hw
  rcases lt_or_ge v.out.length u.origLen with hlt | hdone
  · rw [uSteps, uStep_sym_next u hlt]
    exact hfetch hlt
  · rw [uSteps, uStep_sym_done u hdone, unpackFrom_done (by exact hdone), ← hdead]
    exact endsAs_of_exit u n v none

/-- The body's bits as the loop takes them (R292). -/
def bodyStream (u : UInput) : Bits := bytesBits (u.input.drop u.hlen)

theorem bodyStream_length (u : UInput) : (bodyStream u).length = bodyBits u := by
  rw [bodyStream, bytesBits_length, List.length_drop, bodyBits]

theorem bodyStream_drop {u : UInput} {k : Nat} (h : k < bodyBits u) :
    (bodyStream u).drop k = bodyBit u k :: (bodyStream u).drop (k + 1) := by
  have hbit : (bodyStream u)[k]? = some (bodyBit u k) := by
    rw [bodyStream, bytesBits_getElem? (by rwa [List.length_drop]), bodyBit]
    simp
  obtain ⟨hk, hget⟩ := List.getElem?_eq_some_iff.mp hbit
  rw [List.drop_eq_getElem_cons hk, hget]

/-- From U_FETCH the machine ends as the loop does from the same registers, within two transitions for
each body bit left and one for each byte left to output. -/
theorem endsAs_of_fetch {u : UInput} {n : Nat} {v : Unpacked} (hlt : v.out.length < u.origLen)
    (hdead : v.dead = false)
    (hn : 2 * (bodyBits u - v.bitpos) + (u.origLen - v.out.length) ≤ n) :
    (uSteps u n (v.inState .fetch)).endsAs
      (unpackFrom u.codes u.origLen ((bodyStream u).drop v.bitpos) v) := by
  induction n using Nat.strong_induction_on generalizing v with
  | _ n ih =>
  rcases lt_or_ge v.bitpos (bodyBits u) with hbit | hend
  · obtain ⟨n, rfl⟩ := Nat.exists_eq_add_of_le' (show 3 ≤ n by omega)
    rw [uSteps, uStep_fetch_bit u hbit, bodyStream_drop hbit]
    generalize bodyBit u v.bitpos = b
    rcases look_cases u.codes v.cw (v.acc ++ [b]) with
      hT | ⟨T, hT, ⟨x, hx⟩ | ⟨hmiss, hp⟩ | ⟨hmiss, hp⟩⟩
    · rw [unpackFrom_noTable hlt b _ hT, uSteps, uStep_look_noTable u (v := v.read b) hT]
      exact endsAs_of_exit u _ _ (some _)
    · rw [unpackFrom_hit hlt b _ hT hx, uSteps, uStep_look_hit u (v := v.read b) hT hx]
      refine endsAs_of_sym (by simp [hdead, Unpacked.hit]) hdead fun hnext => ?_
      exact ih n (by omega) hnext hdead (by simp; omega)
    · rw [unpackFrom_more hlt b _ hT hmiss hp, uSteps, uStep_look_more u (v := v.read b) hT hmiss hp]
      exact ih (n + 1) (by omega) (v := v.read b) hlt hdead (by simp; omega)
    · rw [unpackFrom_dead hlt b _ hT hmiss hp, uSteps, uStep_look_dead u (v := v.read b) hT hmiss hp]
      exact endsAs_of_exit u _ _ (some _)
  · obtain ⟨n, rfl⟩ := Nat.exists_eq_add_of_le' (show 1 ≤ n by omega)
    rw [List.drop_eq_nil_of_le ((bodyStream_length u).trans_le hend), unpackFrom_nil hlt, uSteps,
      uStep_fetch_end u hend]
    exact endsAs_of_exit u _ _ (some _)

/-- Settles O56: U_SYM goes to U_FETCH or to the exit, and from U_FETCH the machine follows the loop. -/
theorem unpackerMachineIsTheLoop : Obligations.UnpackerMachineIsTheLoop := by
  intro u o
  have hends := endsAs_of_sym (u := u) (n := 2 * bodyBits u + u.origLen + 1) (v := unpackStart o)
    (rest := bodyStream u) rfl rfl fun hlt => endsAs_of_fetch hlt rfl (by simp [unpackStart])
  exact hends

end Sys2Proof.Machine

namespace Sys2Proof.Machine

/-! ### A successful DECOMPRESS (R301, R312, R322) -/

/-- A header that parses has its length and its record count in 32 bits (R51, R52). -/
theorem parseHeader_results_fit {p : Params} {input : Bytes} {hd : Header} (hp : p.legal)
    (h : parseHeader p input = .ok hd) : hd.hlen ≤ input.length ∧ hd.count < 2 ^ 32 := by
  obtain ⟨R, body, ⟨-, -, hctx, -, -⟩, hcount, rfl, hlen⟩ := parseHeader_ok hp h
  obtain ⟨-, -, -, -, -, -, hmax⟩ := hp
  exact ⟨by rw [hlen, List.length_append]; omega, by omega⟩

section Complete
variable (s : State) (out : Bytes) (hl k : Nat)

theorem outByte_complete_of_lt {j : Nat} (h : j < out.length) :
    some ((s.complete (.ok out hl k)).outByte j) = out[j]? := by
  have hget : memGet (memPutAll 0 out s.outMem) j = out[j]? := by
    rw [memGet_putAll, if_pos (by omega), Nat.sub_zero]
  simp [State.complete, State.outByte, hget, h]

theorem outByte_complete_of_le {j : Nat} (h : out.length ≤ j) :
    (s.complete (.ok out hl k)).outByte j = s.outByte j := by
  have hget : memGet (memPutAll 0 out s.outMem) j = memGet s.outMem j := by
    rw [memGet_putAll, if_neg (by omega)]
  simp [State.complete, State.outByte, hget]

end Complete

/-- Settles O30: the completion leaves the output that R322 calculates, which is original_length bytes. -/
theorem decompressWritesOutput : Obligations.DecompressWritesOutput := by
  intro s h out hp hfits hparse hbody
  have hlen := unpack_ok_length hbody
  have hresult : decompressResult s.params s.regs.inLen.toNat s.input = .ok out h.hlen h.count := by
    simp only [decompressResult, if_neg (Nat.not_lt.mpr hfits), hparse, hbody]
  have horig := parseHeader_origLen_le hparse
  obtain ⟨hhlen, hcount⟩ := parseHeader_results_fit hp hparse
  have hin := s.regs.inLen.isLt
  rw [input_length] at hhlen
  obtain ⟨-, -, -, hcap, -⟩ := hp
  refine ⟨_, by rw [exec_decompress, hresult], rfl, rfl, ?_, hlen, ?_, ?_,
    fun k hk => outByte_complete_of_lt s out _ _ (hlen ▸ hk),
    fun k hk => outByte_complete_of_le s out _ _ (hlen ▸ hk)⟩
  all_goals exact (BitVec.toNat_ofNat _ _).trans (by omega)

end Sys2Proof.Machine

namespace Sys2Proof.Machine

/-! ### COMPRESS as the calculation of R315 -/

/-- The state in which COMPRESS makes checks 1 to 3 of R318: the stores empty, ORD the word's order. -/
def State.startCompress (o : Byte) (s : State) : State :=
  { phaseCheck s with work := { s.work with ord := o } }

@[simp] theorem startCompress_input (o : Byte) (s : State) : (s.startCompress o).input = s.input :=
  input_eq rfl rfl rfl

/-- Check 4 of R318 fails (R178). -/
theorem phaseFreq_of_many {s : State}
    (h : s.params.maxCtx < (freqModel s.work.ord.toNat s.input).length) :
    ∃ u, phaseFreq s = .error (.raised .capacityExceeded u) :=
  ⟨_, if_pos h⟩

/-- What FREQ leaves for TREE and the later phases (R173). -/
theorem phaseFreq_of_few {s : State}
    (h : (freqModel s.work.ord.toNat s.input).length ≤ s.params.maxCtx) :
    ∃ u, phaseFreq s = .ok u ∧ u.stores.freq = freqModel s.work.ord.toNat s.input ∧
      u.work.ord = s.work.ord ∧ u.input = s.input ∧ u.outMem = s.outMem ∧ u.params = s.params :=
  ⟨_, if_neg (Nat.not_lt.mpr h), rfl, rfl, input_eq rfl rfl rfl, rfl, rfl⟩

/-- PACK after HDRW, where every code exists: the header and the packed code bits, with the cursors that
become OUT_LEN and HDR_LEN (R241, R282, R316). -/
theorem phasePack_phaseHdrw_of_codes {s : State} {bits : Bits}
    (h : packBits s.stores.code (zeros s.work.ord.toNat) s.input = some bits) :
    let header := writeHeader s.work.ord.toNat s.regs.inLen.toNat s.stores.freq
    ∃ u, phasePack (phaseHdrw s) = .ok u ∧
      u.outMem = memPutAll 0 (header ++ packBytes bits) s.outMem ∧
      u.work.outpos = (header ++ packBytes bits).length ∧ u.work.hlen = header.length ∧
      u.stores.freq = s.stores.freq := by
  have hbits : packBits (phaseHdrw s).stores.code (zeros (phaseHdrw s).work.ord.toNat)
      (phaseHdrw s).input = some bits := by rw [phaseHdrw_input]; exact h
  simp only [phasePack, hbits]
  exact ⟨_, rfl, by simp [memPutAll_append, phaseHdrw], by simp [phaseHdrw], rfl, rfl⟩

/-- The container's header and body (R316). -/
theorem container_eq (o : Nat) (input : Bytes) :
    ∃ bits, packBits (codeStoreOf (freqModel o input)) (zeros o) input = some bits ∧
      container o input = writeHeader o input.length (freqModel o input) ++ packBytes bits := by
  obtain ⟨bits, hbits⟩ := packBits_freqModel o input
  exact ⟨bits, hbits, by simp [container, hbits]⟩

/-- `OUT_LEN = HDR_LEN + ceil(T / 8)` (R285, R316). -/
theorem container_length (o : Nat) (input : Bytes) :
    (container o input).length = (writeHeader o input.length (freqModel o input)).length
      + (codeBits (freqModel o input) (codeStoreOf (freqModel o input)) + 7) / 8 := by
  obtain ⟨bits, hbits, heq⟩ := container_eq o input
  rw [heq, List.length_append, packBytes_length, packBits_length _ _ _ _ hbits]

theorem Result.endsPhases.of_outMem {s t : State} {r : Result}
    {x : Except Stop (State × Nat × Nat × Nat)} (h : r.endsPhases t x) (hmem : t.outMem = s.outMem) :
    r.endsPhases s x := by
  cases r with
  | ok out hl k =>
    obtain ⟨u, hx, hu⟩ := h
    exact ⟨u, hx, hmem ▸ hu⟩
  | err e => exact h

/-- From CODEGEN on COMPRESS checks the size and writes the container (R315, R317). -/
theorem sizeCheckAndWrite_ends {s : State} (hfreq : s.stores.freq = freqModel s.work.ord.toNat s.input)
    (hcode : s.stores.code = codeStoreOf s.stores.freq) :
    (if s.params.outCap < (container s.work.ord.toNat s.input).length then Result.err .capacityExceeded
      else .ok (container s.work.ord.toNat s.input)
        (writeHeader s.work.ord.toNat s.input.length s.stores.freq).length
        s.stores.freq.length).endsPhases s
      (do
        let s ← checkSize s
        let s ← phasePack (phaseHdrw s)
        .ok (s, s.work.outpos, s.work.hlen, s.stores.freq.length)) := by
  have hcheck : checkSize s =
      if s.params.outCap < (container s.work.ord.toNat s.input).length then
        raiseError .capacityExceeded s
      else .ok s := by
    rw [container_length, ← hfreq, ← hcode, input_length]
    rfl
  rw [hcheck]
  by_cases hlarge : s.params.outCap < (container s.work.ord.toNat s.input).length
  · simp only [if_pos hlarge]
    exact ⟨s, rfl⟩
  · simp only [if_neg hlarge]
    obtain ⟨bits, hbits, heq⟩ := container_eq s.work.ord.toNat s.input
    rw [← hfreq, ← hcode] at hbits
    obtain ⟨u, hu, hmem, hpos, hhlen, hufreq⟩ := phasePack_phaseHdrw_of_codes hbits
    rw [← input_length, hfreq, ← heq] at hmem hpos
    refine ⟨u, ?_, hmem⟩
    simp only [bind, Except.bind, hu, hpos, hhlen, hufreq, input_length]

/-- The phases of COMPRESS end as `Compress(o)` of R315 calculates: the first of the five checks of R318
that fails, or the container. -/
theorem compressPhases_ends (o : Byte) (s : State) :
    (compressResult s.params o.toNat s.regs.inLen.toNat s.input).endsPhases s
      (compressPhases o s) := by
  have hcheck : checkCompress o s =
      if s.params.maxOrder < o.toNat then raiseError .capacityExceeded (s.startCompress o)
      else if s.params.inCap < s.regs.inLen.toNat then
        raiseError .capacityExceeded (s.startCompress o)
      else if s.regs.inLen.toNat = 0 then raiseError .emptyInput (s.startCompress o)
      else .ok (s.startCompress o) := rfl
  unfold compressResult compressPhases
  rw [hcheck]
  by_cases horder : s.params.maxOrder < o.toNat
  · simp only [if_pos horder]
    exact ⟨_, rfl⟩
  by_cases hin : s.params.inCap < s.regs.inLen.toNat
  · simp only [if_neg horder, if_pos hin]
    exact ⟨_, rfl⟩
  by_cases hempty : s.regs.inLen.toNat = 0
  · simp only [if_neg horder, if_neg hin, if_pos hempty]
    exact ⟨_, rfl⟩
  simp only [if_neg horder, if_neg hin, if_neg hempty]
  rw [← startCompress_input o s]
  split
  case isTrue hmany =>
    obtain ⟨u, hu⟩ := phaseFreq_of_many (s := s.startCompress o) hmany
    exact ⟨u, by simp only [bind, Except.bind, hu]⟩
  case isFalse hfew =>
    obtain ⟨u, hu, hfreq, hord, hinput, hmem, hparams⟩ :=
      phaseFreq_of_few (s := s.startCompress o) (Nat.not_lt.mp hfew)
    have hready : ∀ r ∈ u.stores.freq, readyTable r.2 := fun r hr => freqModel_ready (hfreq ▸ hr)
    obtain ⟨v, hv, -⟩ := buildPhase_ready (p := .build) u hready
    have hcode := phaseCodegen_code (q := .codegen) hready hv
    obtain ⟨hvfreq, hvwork, hvinput, hvmem, hvparams⟩ := buildPhase_phaseCodegen_ok (q := .codegen) hv
    have horder : (phaseCodegen .codegen v).work.ord = o := by rw [hvwork, hord]; rfl
    have hmodel : (phaseCodegen .codegen v).stores.freq
        = freqModel o.toNat (s.startCompress o).input := hvfreq.trans hfreq
    have hends := sizeCheckAndWrite_ends (s := phaseCodegen .codegen v)
      (by rw [horder, hmodel, hvinput, hinput]) (by rw [hcode, hvfreq])
    rw [horder, hmodel, hvinput, hinput, hvparams, hparams] at hends
    simp only [bind, Except.bind, hu, hv]
    exact hends.of_outMem (hvmem.trans hmem)

/-- COMPRESS completes with its result (R312, R315). -/
theorem exec_compress (o : Byte) (s : State) :
    exec (.compress o) s =
      .next (s.complete (compressResult s.params o.toNat s.regs.inLen.toNat s.input)) :=
  finish_eq_complete (compressPhases_framed o s) (compressPhases_ends o s)

/-- Settles O27: each command's phases end as its calculation does, and the completion writes over
whatever else they changed. -/
theorem completionIsThePseudocode : Obligations.CompletionIsThePseudocode := by
  intro i s r hr
  cases i <;> cases hr
  case compress o => exact exec_compress o s
  case decompress => exact exec_decompress s
  case illegal w => exact exec_illegal w s

end Sys2Proof.Machine

namespace Sys2Proof.Machine

/-! ### The checks of COMPRESS (R318) and its container (R316, R321) -/

/-- What STATUS shows after COMPRESS has ended in an error (R46, R48). -/
theorem exec_compress_of_err {o : Byte} {s : State} {e : ErrKind}
    (h : compressResult s.params o.toNat s.regs.inLen.toNat s.input = .err e) :
    ∃ t, exec (.compress o) s = .next t ∧ t.busy = false ∧
      t.regs.status = { s.regs.status with err := true, errcode := errCode e } :=
  ⟨s.completeErr e, by rw [exec_compress, h]; rfl, rfl, rfl⟩

/-- Settles O29: the calculation of R315 makes the five checks in this order. -/
theorem compressChecksInOrder : Obligations.CompressChecksInOrder := by
  intro s o n contexts failsWith
  refine ⟨fun horder => ?_, fun horder hin => ?_, fun horder hin hempty => ?_,
    fun horder hin hempty hmany => ?_, fun horder hin hempty hfew hlarge => ?_⟩
  · exact exec_compress_of_err (e := .capacityExceeded) (if_pos horder)
  all_goals have horder := Nat.not_lt.mpr horder
  · exact exec_compress_of_err (e := .capacityExceeded) ((if_neg horder).trans (if_pos hin))
  all_goals have hin := Nat.not_lt.mpr hin
  · exact exec_compress_of_err (e := .emptyInput)
      ((if_neg horder).trans ((if_neg hin).trans (if_pos hempty)))
  · exact exec_compress_of_err (e := .capacityExceeded)
      ((if_neg horder).trans ((if_neg hin).trans ((if_neg hempty).trans (if_pos hmany))))
  · exact exec_compress_of_err (e := .capacityExceeded)
      ((if_neg horder).trans ((if_neg hin).trans ((if_neg hempty).trans
        ((if_neg (Nat.not_lt.mpr hfew)).trans (if_pos hlarge)))))

/-- COMPRESS succeeds exactly where the checks of R318 pass, and then with the container, its header's
length and the number of contexts (R316). -/
theorem compressResult_eq_ok_iff {p : Params} {o n : Nat} {input out : Bytes} {hl k : Nat} :
    compressResult p o n input = .ok out hl k ↔
      (o ≤ p.maxOrder ∧ n ≤ p.inCap ∧ 0 < n ∧ (freqModel o input).length ≤ p.maxCtx ∧
        (container o input).length ≤ p.outCap) ∧
      out = container o input ∧ hl = (writeHeader o input.length (freqModel o input)).length ∧
      k = (freqModel o input).length := by
  unfold compressResult
  dsimp only
  split_ifs with horder hin hempty hmany hlarge
  case neg =>
    simp only [Result.ok.injEq]
    exact ⟨fun ⟨hout, hhl, hk⟩ => ⟨by omega, hout.symm, hhl.symm, hk.symm⟩,
      fun ⟨_, hout, hhl, hk⟩ => ⟨hout.symm, hhl.symm, hk.symm⟩⟩
  all_goals exact ⟨fun h => (by cases h), fun ⟨h, _⟩ => by omega⟩

theorem freqModel_key_length {o : Nat} {input : Bytes} {r : Bytes × WeightTable}
    (hr : r ∈ freqModel o input) : r.1.length = o := by
  have hwindow := (mem_freqModel_keys o input r.1).mp (List.mem_map_of_mem hr)
  rw [length_of_mem_windows hwindow, zeros_length]

/-- The header that COMPRESS writes has the length of R136. -/
theorem writeHeader_freqModel_length (o : Nat) (input : Bytes) :
    (writeHeader o input.length (freqModel o input)).length
      = headerLength o (freqModel o input) :=
  headerLengthFormula o input.length _ fun _ hr => freqModel_key_length hr

/-- Settles O28: the completion leaves the container, whose length under legal parameters fits 32 bits. -/
theorem compressWritesContainer : Obligations.CompressWritesContainer := by
  intro s o hp horder hin hpos F hctx hcap
  have hresult : compressResult s.params o.toNat s.regs.inLen.toNat s.input = .ok _ _ _ :=
    compressResult_eq_ok_iff.mpr ⟨⟨horder, hin, hpos, hctx, hcap⟩, rfl, rfl, rfl⟩
  obtain ⟨-, -, -, hout, -, -, hmax⟩ := hp
  have hheader : (writeHeader o.toNat s.input.length F).length = headerLength o.toNat F :=
    writeHeader_freqModel_length o.toNat s.input
  have hlen : (container o.toNat s.input).length
      = headerLength o.toNat F + (codeBits F (codeStoreOf F) + 7) / 8 := by
    rw [container_length, writeHeader_freqModel_length]
  let t := s.complete (.ok (container o.toNat s.input)
    (writeHeader o.toNat s.input.length F).length F.length)
  have houtLen : t.regs.outLen.toNat = (container o.toNat s.input).length :=
    (BitVec.toNat_ofNat _ _).trans (by omega)
  have hhdrLen : t.regs.hdrLen.toNat = headerLength o.toNat F :=
    (BitVec.toNat_ofNat _ _).trans (by omega)
  have hcount : t.regs.ctxCount.toNat = F.length := (BitVec.toNat_ofNat _ _).trans (by omega)
  refine ⟨t, by rw [exec_compress, hresult], rfl, rfl, houtLen, hhdrLen, by omega, hcount,
    fun k hk => outByte_complete_of_lt s _ _ _ (houtLen ▸ hk),
    fun k hk => outByte_complete_of_le s _ _ _ (houtLen ▸ hk)⟩

/-- Settles O36: the result depends on the parameters, the order, IN_LEN and the input bytes only. -/
theorem compressDeterministic : Obligations.CompressDeterministic := by
  intro o s t s' t' hparams hlen hbytes hs ht hs' ht'
  rw [exec_compress] at hs' ht'
  cases hs'
  cases ht'
  rw [← input_congr s t hlen hbytes, ← hparams, ← hlen]
  cases compressResult s.params o.toNat s.regs.inLen.toNat s.input with
  | ok out hl k =>
    refine ⟨rfl, fun _ => ⟨rfl, rfl, rfl, fun j hj => ?_⟩⟩
    have hj : j < out.length :=
      Nat.lt_of_lt_of_le hj ((BitVec.toNat_ofNat _ _).trans_le (Nat.mod_le _ _))
    exact Option.some.inj
      ((outByte_complete_of_lt s out hl k hj).trans (outByte_complete_of_lt t out hl k hj).symm)
  | err e =>
    exact ⟨hs.trans ht.symm, fun hdone => absurd (hs.symm.trans hdone) (by decide)⟩

end Sys2Proof.Machine

namespace Sys2Proof.Machine

/-! ### A run that the end of the body does not stop (R292, R300) -/

/-- A run either comes to the end of the body with symbols left or ends as it does whatever follows. -/
theorem unpackFrom_exhausted_or_decided (C : CodeStore) (L : Nat) (body : Bits) (u : Unpacked) :
    (∃ v, unpackFrom C L body u = (v, some .bitstreamExhausted)) ∨
      ∀ extra, unpackFrom C L (body ++ extra) u = unpackFrom C L body u := by
  induction body generalizing u with
  | nil =>
    rcases lt_or_ge u.out.length L with hlt | hdone
    · exact .inl ⟨u, unpackFrom_nil hlt⟩
    · exact .inr fun extra => by rw [unpackFrom_done hdone, unpackFrom_done hdone]
  | cons b rest ih =>
    simp only [List.cons_append]
    rcases lt_or_ge u.out.length L with hlt | hdone
    · rcases look_cases C u.cw (u.acc ++ [b]) with
        hT | ⟨T, hT, ⟨x, hx⟩ | ⟨hmiss, hp⟩ | ⟨hmiss, hp⟩⟩
      · exact .inr fun extra => by rw [unpackFrom_noTable hlt b _ hT, unpackFrom_noTable hlt b _ hT]
      · simp only [unpackFrom_hit hlt b _ hT hx]
        exact ih _
      · simp only [unpackFrom_more hlt b _ hT hmiss hp]
        exact ih _
      · exact .inl ⟨_, unpackFrom_dead hlt b rest hT hmiss hp⟩
    · exact .inr fun extra => by rw [unpackFrom_done hdone, unpackFrom_done hdone]

/-- UNPACK over the codes of an input without their last bits fails with BitstreamExhausted (R336). -/
theorem unpack_truncated {o : Nat} {input : Bytes} {body more : Bits}
    (hbits : packBits (codeStoreOf (freqModel o input)) (zeros o) input = some (body ++ more))
    (hmore : more ≠ []) :
    unpack (codeStoreOf (freqModel o input)) o input.length body = .error .bitstreamExhausted := by
  rcases unpackFrom_exhausted_or_decided (codeStoreOf (freqModel o input)) input.length body
    (unpackStart o) with ⟨v, hv⟩ | hsame
  · rw [unpack, unpackRun, hv]
  · have hrun := unpackInvertsPack o input _ [] hbits
    rw [List.append_nil, unpackRun, hsame more] at hrun
    obtain ⟨hread, -⟩ := trailingBitsIgnored _ _ _ _ [] _ hrun
    have hlen : (body ++ more).length ≤ body.length := hread
    rw [List.length_append] at hlen
    exact absurd (List.length_eq_zero_iff.mp (by omega)) hmore

/-- The packed bytes of a stream but the last hold first bits of it and not all of them (R284). -/
theorem packBytes_init {bits : Bits} (h : bits ≠ []) :
    ∃ init last more, packBytes bits = init ++ [last] ∧ bits = bytesBits init ++ more ∧ more ≠ [] := by
  obtain ⟨pad, hpad, hpad7, -, hlen⟩ := packedBytesHoldTheStream bits
  have hpos := List.length_pos_iff.mpr h
  obtain hnil | ⟨init, last, hbody⟩ := (packBytes bits).eq_nil_or_concat'
  · rw [hnil, List.length_nil] at hlen
    omega
  rw [hbody, List.length_append, List.length_singleton] at hlen
  rw [hbody, bytesBits_append] at hpad
  have hshort : (bytesBits init).length < bits.length := by
    have := congrArg List.length hpad
    simp only [List.length_append, bytesBits_length, List.length_singleton,
      List.length_replicate] at this ⊢
    omega
  obtain ⟨more, hmore⟩ :=
    List.prefix_of_prefix_length_le ⟨_, hpad⟩ (List.prefix_append _ _) hshort.le
  refine ⟨init, last, more, hbody, hmore.symm, ?_⟩
  rintro rfl
  rw [List.append_nil] at hmore
  exact absurd (congrArg List.length hmore) hshort.ne

/-! ### DECOMPRESS on what COMPRESS wrote (R335, R336) -/

/-- Where DONE was 0, COMPRESS leaves DONE set only by success: its checks passed, and OUT_MEM holds the
header and the packed code bits (R312, R316). -/
theorem exec_compress_done {o : Byte} {s t : State} (hp : s.params.legal)
    (hidle : s.regs.status.done = false) (hexec : exec (.compress o) s = .next t)
    (hdone : t.regs.status.done = true) :
    let F := freqModel o.toNat s.input
    let header := writeHeader o.toNat s.input.length F
    ∃ bits, packBits (codeStoreOf F) (zeros o.toNat) s.input = some bits ∧
      o.toNat ≤ s.params.maxOrder ∧ 0 < s.input.length ∧ F.length ≤ s.params.maxCtx ∧
      t.regs.outLen.toNat = (header ++ packBytes bits).length ∧
      t.regs.hdrLen.toNat = header.length ∧ t.regs.ctxCount.toNat = F.length ∧
      ∀ k, k < t.regs.outLen.toNat → some (t.outByte k) = (header ++ packBytes bits)[k]? := by
  have hchecks : ∃ out hl k,
      compressResult s.params o.toNat s.regs.inLen.toNat s.input = .ok out hl k := by
    rw [exec_compress] at hexec
    cases hexec
    cases hr : compressResult s.params o.toNat s.regs.inLen.toNat s.input with
    | ok out hl k => exact ⟨out, hl, k, rfl⟩
    | err e =>
      rw [hr] at hdone
      exact absurd (hidle.symm.trans hdone) (by decide)
  obtain ⟨_, _, _, hresult⟩ := hchecks
  obtain ⟨⟨horder, hin, hpos, hctx, hcap⟩, -⟩ := compressResult_eq_ok_iff.mp hresult
  obtain ⟨t', ht', -, -, houtLen, hhdrLen, -, hcount, hbytes, -⟩ :=
    compressWritesContainer s o hp horder hin hpos hctx hcap
  cases hexec.symm.trans ht'
  obtain ⟨bits, hbits, heq⟩ := container_eq o.toNat s.input
  rw [heq] at houtLen hbytes
  exact ⟨bits, hbits, horder, input_length s ▸ hpos, hctx, houtLen,
    hhdrLen.trans (writeHeader_freqModel_length _ _).symm, hcount, hbytes⟩

/-- An input that agrees with some bytes below IN_LEN is their first part. -/
theorem input_eq_of_bytes {u : State} {bs cs : Bytes} (hlen : u.regs.inLen.toNat = bs.length)
    (h : ∀ k, k < u.regs.inLen.toNat → some (u.inByte k) = (bs ++ cs)[k]?) : u.input = bs := by
  refine List.ext_getElem? fun k => ?_
  rcases lt_or_ge k u.regs.inLen.toNat with hk | hk
  · have hbs : (bs ++ cs)[k]? = bs[k]? := List.getElem?_append_left (hlen ▸ hk)
    rw [← hbs, ← h k hk, State.input, readIn_getElem? _ _ _ _ hk, Nat.zero_add]
  · rw [List.getElem?_eq_none (by simpa using hk), List.getElem?_eq_none (hlen ▸ hk)]

/-- Settles O59: the container's header parses to the model that COMPRESS counted, and its codes unpack to
the input. -/
theorem roundTrip : Obligations.RoundTrip := by
  intro o s t u hp hidle hexec hdone hparams hlen hbytes hin hout
  obtain ⟨bits, hbits, horder, -, hctx, houtLen, hhdrLen, hcount, hcontainer⟩ :=
    exec_compress_done hp hidle hexec hdone
  have hinput : u.input = _ := input_eq_of_bytes (cs := []) (hlen ▸ houtLen) fun k hk => by
    rw [hlen] at hk
    rw [hbytes k hk, hcontainer k hk, List.append_nil]
  rw [← input_length] at hout
  have hparse := parserReturnsTheModel s.params o.toNat s.input (packBytes bits) hp horder hout
    (hout.trans hp.2.2.2.1) hctx
  rw [← hinput, ← hparams] at hparse
  obtain ⟨pad, hpad, -⟩ := packedBytesHoldTheStream bits
  have hbody : unpack (codeStoreOf (freqModel o.toNat s.input)) o.toNat s.input.length
      (bytesBits (u.input.drop
        (writeHeader o.toNat s.input.length (freqModel o.toNat s.input)).length)) = .ok s.input := by
    rw [hinput, List.drop_left, hpad, unpack, unpackInvertsPack o.toNat s.input bits _ hbits]
  obtain ⟨v, hv, -, hstatus, hvoutLen, -, hvhdrLen, hvcount, hvbytes, -⟩ :=
    decompressWritesOutput u _ _ (hparams ▸ hp) (by rwa [hparams, hlen]) hparse hbody
  refine ⟨v, hv, hstatus, BitVec.eq_of_toNat_eq (hvoutLen.trans (input_length s)),
    BitVec.eq_of_toNat_eq (hvhdrLen.trans hhdrLen.symm),
    BitVec.eq_of_toNat_eq (hvcount.trans hcount.symm), fun k hk => Option.some.inj ?_⟩
  rw [hvbytes k (by rwa [input_length]), State.input, readIn_getElem? _ _ _ _ hk, Nat.zero_add]

/-- Settles O60: the header still parses, and the body that is left ends within a code. -/
theorem truncatedContainerFails : Obligations.TruncatedContainerFails := by
  intro o s t u hp hidle hexec hdone hparams hlen hbytes hin hout
  obtain ⟨bits, hbits, horder, hpos, hctx, houtLen, -, -, hcontainer⟩ :=
    exec_compress_done hp hidle hexec hdone
  have hne : bits ≠ [] := by
    rintro rfl
    obtain ⟨bits, hbits', -, hle, -⟩ := codeBitCount o.toNat s.input
    cases hbits.symm.trans hbits'
    exact absurd hle (Nat.not_le.mpr hpos)
  obtain ⟨init, last, more, hpacked, rfl, hmore⟩ := packBytes_init hne
  rw [hpacked, ← List.append_assoc] at houtLen hcontainer
  have hinput : u.input = _ := input_eq_of_bytes (cs := [last])
    (Nat.succ_injective (hlen.trans (houtLen.trans List.length_append))) fun k hk => by
      rw [hbytes k hk, hcontainer k (by omega)]
  rw [← input_length] at hout
  have hparse := parserReturnsTheModel s.params o.toNat s.input init hp horder hout
    (hout.trans hp.2.2.2.1) hctx
  rw [← hinput, ← hparams] at hparse
  obtain ⟨-, -, -, hbodyError⟩ := decompressChecksInOrder u
  obtain ⟨v, hv, -, hstatus⟩ := hbodyError _ .bitstreamExhausted (by rwa [hparams]) hparse (by
    rw [hinput, List.drop_left]
    exact unpack_truncated hbits hmore)
  exact ⟨v, hv, hstatus⟩

end Sys2Proof.Machine

namespace Sys2Proof.Machine

/-! ### NOP, and the steps that run a command or none (R310 to R313, R386) -/

/-- The word 0 at CTRL gets OKAY and nothing else happens, busy or idle (R310, R313). -/
theorem step_ctrl_zero {s : State} {rest : List Event}
    (h : s.host.pending = .access ⟨0x020#32, .four, .write 0#32⟩ :: rest) :
    step s = .next ((s.advance rest).respond (.okay 0#32)) := by
  rw [step_access h]
  exact congrArg _ (performAccess_write_register (by decide) (by decide) rfl)

/-- Settles O24: NOP is the encoding of no other word, R124 lists the words with OP = 0, and presenting the
word 0 leaves the state alone. -/
theorem nopDoesNothing : Obligations.NopDoesNothing := by
  refine ⟨fun w => ⟨fun hnop => ?_, fun hzero => if_pos hzero⟩, fun w hop hw => ?_,
    fun s rest => ⟨rfl, fun hp => ⟨0#32, step_ctrl_zero hp⟩⟩⟩
  · obtain ⟨-, hencode⟩ := encodeOfDecode w
    rw [← hencode, hnop, encode]
  · exact decode_illegal ((illegalWord_iff w).mpr ⟨hw, .inl hop⟩)

/-- A completion event while a command is in flight runs what CMD decodes to (R312). -/
theorem step_complete_busy {s : State} {rest : List Event} (hb : s.busy = true)
    (hp : s.host.pending = .complete :: rest) : step s = exec (decode s.cmd) (s.advance rest) := by
  simp only [step, hp]
  exact coreStep_busy hb

/-- A non-zero fetch word is accepted, with its completion as the next event (R311; log entry 2). -/
theorem withFetchWord_of_ne_zero (s : State) {w : Word} (hw : w ≠ 0#32) :
    s.withFetchWord 32 w.toNat =
      { s.accept w with host := { s.host with pending := .complete :: s.host.pending } } := by
  have hword : BitVec.ofNat 32 (w.toNat % 2 ^ 32) = w := by
    rw [Nat.mod_eq_of_lt w.isLt, BitVec.ofNat_toNat, BitVec.setWidth_eq]
  simp only [State.withFetchWord, hword, if_neg hw, accept_host]

/-- Settles O5: an accepted word leaves the block busy with it, and the fetch word 0 is the CTRL write of
NOP. -/
theorem stepRunsDecodedCommand : Obligations.StepRunsDecodedCommand := by
  refine ⟨fun s rest hb hp => step_complete_busy hb hp, fun s hb hp => step_end_busy hb hp,
    fun s rest hp => ⟨0#32, step_ctrl_zero hp⟩, fun s w hw => ?_, fun s => ⟨0#32, step_ctrl_zero rfl⟩⟩
  rw [withFetchWord_of_ne_zero s hw, step_complete_busy (rest := s.host.pending) rfl rfl]
  rfl

/-- Settles O6: the core's step asks for BUSY. -/
theorem idleCoreDoesNothing : Obligations.IdleCoreDoesNothing := by
  refine fun s hidle => ⟨fun hp => ?_, fun rest hp => ?_⟩
  · simp [step, hp, hidle]
  · simp only [step, hp]
    exact coreStep_idle hidle

/-- Settles O25: the CTRL write accepts the word. -/
theorem nonzeroWordAccepted : Obligations.NonzeroWordAccepted := by
  intro s w rest hidle hw hp
  have haccept : (s.advance rest).present w = (s.advance rest).accept w := by
    rcases present_cases w (s.advance rest) with ⟨h0, -⟩ | ⟨-, hbusy, -⟩ | ⟨-, -, heq⟩
    · exact absurd h0 hw
    · exact absurd (hidle.symm.trans hbusy) (by decide)
    · exact heq
  refine ⟨((s.advance rest).present w).respond (.okay 0#32), ?_, ⟨_, rfl⟩, ?_⟩
  · rw [step_access hp, performAccess_write_register (by decide) (by decide) rfl]
  · rw [haccept]
    exact ⟨rfl, rfl, rfl, rfl, rfl, rfl, rfl, rfl, rfl, rfl, rfl, rfl⟩

/-- Settles O33: the error completion of an ILLEGAL word reads neither IN_LEN nor IN_MEM. -/
theorem illegalReadsNothing : Obligations.IllegalReadsNothing := by
  intro w s inLen mem s'
  exact ⟨_, exec_illegal w s, rfl, rfl, fun _ => rfl, rfl, rfl, exec_illegal w s'⟩

end Sys2Proof.Machine

namespace Sys2Proof.Machine

/-! ### Error completions (R350, R356, R364, R365) -/

/-- Settles O32: the completion writes ERR, ERRCODE and OUT_MEM, and the invariant gives DONE and the
result registers of a busy block. -/
theorem errorCompletionChanges : Obligations.ErrorCompletionChanges := by
  intro i s e hinv hb hresult
  obtain ⟨hdone, -, -⟩ := hinv.busyFlags hb
  obtain ⟨houtLen, hhdrLen, hctxCount⟩ := hinv.busyResults hb
  refine ⟨s.completeErr e, completionIsThePseudocode i s _ hresult, rfl, rfl, ?_,
    houtLen, hhdrLen, hctxCount, fun _ => rfl, rfl, rfl, rfl, rfl, rfl⟩
  rw [completeErr_regs, ← hdone]
  cases e <;> rfl

/-! ### Bus errors (R370) -/

/-- The address map of R81, Table 6, by cases. -/
theorem addr_cases (addr : Word) :
    addr.toNat < 0x1000 ∨
      ((0x1000 ≤ addr.toNat ∧ addr.toNat < 0x40000000) ∨ 0xC0000000 ≤ addr.toNat) ∨
      (0x40000000 ≤ addr.toNat ∧ addr.toNat < 0x80000000) ∨
      (0x80000000 ≤ addr.toNat ∧ addr.toNat < 0xC0000000) := by omega

/-! What R370 and R88 list, region by region. -/

section BadAccess
variable {s : State} {addr : Word} {size : Size} {dir : Dir}

theorem badAccess_registers_iff (h : addr.toNat < 0x1000) :
    badAccess s ⟨addr, size, dir⟩ ↔
      (size ≠ .four ∨ addr.toNat % 4 ≠ 0) ∨ (s.busy = true ∧ addr.toNat = 0x02C ∧ dir ≠ .read) := by
  have hmap : ¬ 0x1000 ≤ addr.toNat ∧ ¬ 0x40000000 ≤ addr.toNat ∧ ¬ 0x80000000 ≤ addr.toNat ∧
      ¬ 0xC0000000 ≤ addr.toNat := by omega
  simp only [badAccess, h, hmap, true_and, false_and, false_or, or_false]

theorem badAccess_unmapped
    (h : (0x1000 ≤ addr.toNat ∧ addr.toNat < 0x40000000) ∨ 0xC0000000 ≤ addr.toNat) :
    badAccess s ⟨addr, size, dir⟩ := h.elim .inl fun h => .inr (.inl h)

theorem badAccess_inWindow_iff (hlo : 0x40000000 ≤ addr.toNat) (hhi : addr.toNat < 0x80000000) :
    badAccess s ⟨addr, size, dir⟩ ↔
      (size ≠ .one ∨ s.params.inCap ≤ addr.toNat - 0x40000000) ∨ (s.busy = true ∧ dir ≠ .read) := by
  have hmap : ¬ addr.toNat < 0x1000 ∧ ¬ addr.toNat < 0x40000000 ∧ ¬ 0x80000000 ≤ addr.toNat ∧
      ¬ 0xC0000000 ≤ addr.toNat ∧ addr.toNat ≠ 0x02C := by omega
  simp only [badAccess, hlo, hhi, hmap, true_and, and_false, false_and, false_or, or_false]

theorem badAccess_outWindow_iff (hlo : 0x80000000 ≤ addr.toNat) (hhi : addr.toNat < 0xC0000000) :
    badAccess s ⟨addr, size, dir⟩ ↔
      (size ≠ .one ∨ dir ≠ .read ∨ s.params.outCap ≤ addr.toNat - 0x80000000) ∨ s.busy = true := by
  have hmap : ¬ addr.toNat < 0x1000 ∧ ¬ addr.toNat < 0x40000000 ∧ ¬ addr.toNat < 0x80000000 ∧
      ¬ 0xC0000000 ≤ addr.toNat ∧ addr.toNat ≠ 0x02C := by omega
  simp only [badAccess, hlo, hhi, hmap, true_and, and_true, and_false, false_and, false_or]

end BadAccess

theorem registerAccess_eq_false_iff {size : Size} {off : Nat} :
    registerAccess size off = false ↔ size ≠ .four ∨ off % 4 ≠ 0 := by
  simp [registerAccess, or_iff_not_imp_left]

/-- The only register write with ERROR is that of IN_LEN while busy (R50, R88). -/
theorem writeReg_eq_none_iff {off : Nat} {v : Word} {s : State} :
    writeReg off v s = none ↔ s.busy = true ∧ off = 0x02C := by
  unfold writeReg
  split
  case h_4 => simp
  all_goals simp_all

theorem readPort_eq_none_iff {s : State} {addr : Word} {size : Size} :
    readPort s addr size = none ↔ badAccess s ⟨addr, size, .read⟩ := by
  refine ⟨fun hnone => ?_, readPort_of_badAccess⟩
  rcases addr_cases addr with hreg | hun | ⟨hlo, hhi⟩ | ⟨hlo, hhi⟩
  · refine (badAccess_registers_iff hreg).mpr (.inl (registerAccess_eq_false_iff.mp ?_))
    simpa [readPort, regionOf_registers addr hreg] using hnone
  · exact badAccess_unmapped hun
  · rw [readPort_inWindow (regionOf_inWindow addr hlo hhi)] at hnone
    rw [badAccess_inWindow_iff hlo hhi]
    simpa [imp_iff_not_or] using hnone
  · rw [readPort_outWindow (regionOf_outWindow addr hlo hhi)] at hnone
    rw [badAccess_outWindow_iff hlo hhi]
    simpa [imp_iff_not_or, or_assoc] using hnone

theorem writePort_eq_none_iff {s : State} {addr v : Word} {size : Size} :
    writePort addr size v s = none ↔ badAccess s ⟨addr, size, .write v⟩ := by
  rcases addr_cases addr with hreg | hun | ⟨hlo, hhi⟩ | ⟨hlo, hhi⟩
  · rw [badAccess_registers_iff hreg, ← registerAccess_eq_false_iff]
    simp only [writePort, regionOf_registers addr hreg]
    cases registerAccess size addr.toNat <;> simp [writeReg_eq_none_iff]
  · simp [writePort, regionOf_unmapped addr hun, badAccess_unmapped hun]
  · rw [writePort_inWindow (regionOf_inWindow addr hlo hhi), badAccess_inWindow_iff hlo hhi]
    simp [imp_iff_not_or, or_assoc]
  · rw [writePort_outWindow (regionOf_outWindow addr hlo hhi), badAccess_outWindow_iff hlo hhi]
    simp

/-- Settles O13: `readPort` and `writePort` give nothing exactly in the listed cases, and the answer is ERROR
exactly where they give nothing. -/
theorem busErrorsAsListed : Obligations.BusErrorsAsListed := by
  rintro s ⟨addr, size, dir⟩
  cases dir with
  | read =>
    rw [performAccess_read, ← readPort_eq_none_iff]
    refine ⟨fun hbad => ⟨0#32, by rw [hbad]; rfl⟩, fun hgood => ?_⟩
    obtain ⟨v, hv⟩ := Option.ne_none_iff_exists'.mp hgood
    exact ⟨v, by rw [hv]; rfl⟩
  | write v =>
    rw [← writePort_eq_none_iff]
    refine ⟨fun hbad => ⟨0#32, performAccess_write_refused hbad⟩, fun hgood => ?_⟩
    obtain ⟨t, ht⟩ := Option.ne_none_iff_exists'.mp hgood
    exact ⟨0#32, by rw [performAccess_write ht]; rfl⟩

/-! ### The interrupt output (R360) -/

/-- STATUS masked by INT_EN's enables, which stand one bit lower: each flag that meets its enable. -/
theorem statusWord_and_intEnWord_bits (busy : Bool) (st : Status) (e : IntEn) :
    ∀ i < 32, (statusWord busy st &&& (intEnWord e <<< 1)).getLsbD i =
      [false, st.done && e.doneIe, st.err && e.errIe, st.rej && e.rejIe].getD i false := by
  obtain ⟨-, hdone, herr, hrej, -⟩ := statusWord_fields busy st
  intro i hi
  rw [BitVec.getLsbD_and, BitVec.getLsbD_shiftLeft, intEnWord_bits e (i - 1) (by omega)]
  match i with
  | 0 => simp
  | 1 => rw [hdone]; rfl
  | 2 => rw [herr]; rfl
  | 3 => rw [hrej]; rfl
  | i + 4 => simp

/-- Settles O23: the masked word is 0 exactly when none of its three bits is set. -/
theorem irqFromTheReadWords : Obligations.IrqFromTheReadWords := by
  intro s
  have hbits := statusWord_and_intEnWord_bits s.busy s.regs.status s.regs.intEn
  rw [Bool.eq_iff_iff, bne_iff_ne, ← not_iff_not, Bool.not_eq_true, not_not]
  constructor
  · intro hlow
    simp only [irq, Bool.or_eq_false_iff] at hlow
    obtain ⟨⟨hdone, herr⟩, hrej⟩ := hlow
    refine BitVec.eq_of_getLsbD_eq fun i hi => ?_
    rw [hbits i hi, hdone, herr, hrej]
    match i with
    | 0 | 1 | 2 | 3 => rfl
    | i + 4 => simp
  · intro hzero
    rw [hzero] at hbits
    simp only [irq, Bool.or_eq_false_iff]
    exact ⟨⟨(hbits 1 (by decide)).symm, (hbits 2 (by decide)).symm⟩, (hbits 3 (by decide)).symm⟩

end Sys2Proof.Machine

namespace Sys2Proof.Machine

/-! ### Reset (R390, R391) -/

theorem step_reset {s : State} {rest : List Event} (h : s.host.pending = .reset :: rest) :
    step s = .next (s.advance rest).resetEvent := by
  simp only [step, h]

theorem irq_resetRegs : irq resetRegs = false := rfl

/-- Settles O9: the constant registers read their constants in every state, the words of STATUS and
INT_EN are 0 with every field at its reset value, and no reserved offset stands in the register file. -/
theorem registersAfterReset : Obligations.RegistersAfterReset := by
  intro p hp s
  obtain ⟨hid, hversion, hcapIn, hcapOut, hcapCtx, hcapOrder, hctrl⟩ := constantRegisters s hp
  have hstatus : statusWord false resetRegs.status = 0#32 := by decide
  have hintEn : intEnWord resetRegs.intEn = 0#32 := by decide
  refine ⟨hid, hversion, hcapIn, hcapOut, hcapCtx, hcapOrder, hctrl, congrArg some hstatus,
    congrArg some hintEn, rfl, rfl, rfl, rfl, ?_⟩
  intro a halign hreserved
  rw [readPort_register (by omega) halign, readReg_reserved s (by omega)]

/-- Settles O10: the step is the reset event, whose state has the registers of reset and empty buffers. -/
theorem resetEvent : Obligations.ResetEvent := by
  intro s rest hp
  exact ⟨(s.advance rest).resetEvent, step_reset hp, rfl, rfl, rfl, rfl, rfl, rfl, rfl, rfl,
    irq_resetRegs, fun _ => ⟨rfl, rfl⟩, rfl, rfl⟩

end Sys2Proof.Machine
